-- ==== Sys2Proof/Word.lean ====
section
/-!
DEFINITION. The machine's word types (00_scope.md rules R10, R12, R13): a register or address is 32 bits, the
smallest addressable unit is a byte, a cycle stamp is an unsigned 64-bit count, a register field is 4 bits.
-/

namespace Sys2Proof

/-- A register, an address, an instruction word: `XLEN = ALEN = 32` (R10). -/
abbrev Word := BitVec 32

/-- One byte of memory. -/
abbrev Byte := BitVec 8

/-- A cycle stamp or cycle count: `STAMP_BITS = 64` (R10). -/
abbrev Stamp := BitVec 64

/-- A general-register field of an instruction, R0..R15. -/
abbrev RegNum := BitVec 4

end Sys2Proof
end

