-- ==== Sys2Proof/Config.lean ====
section
/-!
DEFINITION. What an implementation of WDC-CORE fixes: the parameters of 00_scope.md rule R10, as plain data that a
state carries (so a statement about every state holds for every value of every parameter), and the free values,
opaque constants nothing in Lean can evaluate.
-/

namespace Sys2Proof

/-- `UNALIGNED_WORD` (20_memory.md R88): how an unaligned 4-byte LDR or STR is approximated. -/
inductive UnalignedWord where
  /-- The access is passed to the bus unchanged. -/
  | busBytes
  /-- A load rotates the aligned word; a store writes the aligned word. -/
  | rotate
  /-- The access is fatal. -/
  | fault
  deriving DecidableEq, Repr

/-- `CMP_ORDER` (42_data_processing.md R261): the operand order of CMP. -/
inductive CmpOrder where
  /-- Rn minus the right operand. -/
  | rnMinusOp2
  /-- The right operand minus Rn. -/
  | op2MinusRn
  deriving DecidableEq, Repr

/-- `REG_SHIFT_GE32` (42_data_processing.md R245): a register-specified shift amount of 32 or more. -/
inductive RegShiftGe32 where
  /-- Fatal. -/
  | fault
  /-- The general architecture's results. -/
  | armSemantics
  deriving DecidableEq, Repr

/-- `TIE_ORDER` (40_scheduler.md R153, 93_implementation_defined.md U1): order among events of equal `when`. -/
inductive TieOrder where
  /-- First scheduled, first popped. -/
  | fifo
  /-- Not defined: a newly scheduled event takes any place among its equals, by a free value (log 9). -/
  | anyOrder
  deriving DecidableEq, Repr

/-- The parameters of R10. `LOOKAHEAD`, `IDLE_COST` and `PIPE_DEPTH` are fixed by the spec and are no fields. -/
structure Config where
  /-- `CLOCK_SCALE`, at least 1 (41_pipeline.md R234). -/
  clockScale : Nat
  /-- `CPU_CLOCK_SCALE`: stamp ticks per CPU cycle. -/
  cpuClockScale : Nat
  /-- `BASE_COST(k)` for the decode-table entries 1 to 12 (30_encoding.md R133), in that order. -/
  baseCost : Vector Nat 12
  /-- `N_DOMAINS`, at least 1. -/
  nDomains : Nat
  /-- `N_EVENTS`. -/
  nEvents : Nat
  unalignedWord : UnalignedWord
  cmpOrder : CmpOrder
  regShiftGe32 : RegShiftGe32
  /-- `INTEGRITY_CHECKS`: true is ENABLED. -/
  integrityChecks : Bool
  tieOrder : TieOrder
  /-- The clock domain the engine is attached to (41_pipeline.md R217). -/
  engineDomain : Nat
  deriving DecidableEq, Repr

/-- The values of R10 and R11: every default, and where R10 gives none the vectors' value; `N_EVENTS` is
DESIGN CHOICE 16 (log 8). -/
def Config.default : Config where
  clockScale := 1
  cpuClockScale := 1
  baseCost := Vector.replicate 12 1
  nDomains := 1
  nEvents := 16
  unalignedWord := .busBytes
  cmpOrder := .rnMinusOp2
  regShiftGe32 := .fault
  integrityChecks := true
  tieOrder := .fifo
  engineDomain := 0

/-- FREE VALUE (log 3): what a device answers to a read the host has scripted no answer for (20_memory.md R83,
93_implementation_defined.md U14), as a function of a counter that every use advances. -/
opaque Config.deviceValue : Nat → Word

/-- FREE VALUE (log 9): how many events of equal `when` stay before a newly scheduled one under `TieOrder.anyOrder`
(93_implementation_defined.md U1), as a function of a counter that every use advances. -/
opaque Config.tieChoice : Nat → Nat

end Sys2Proof
end

