-- ==== Sys2Proof/Syntax.lean ====
section
/-!
DEFINITION. The instructions as syntax: the fields of the twelve formats of 30_encoding.md (R111 to R124), and one
constructor of `Instr` for each row of opcode_table.json. `Form` groups the constructors by format, so that what
depends on the format alone (encoding, decode-time checks, cost) is said once per format.
-/

namespace Sys2Proof

/-- The condition field `cond` (R111). -/
inductive Cond where
  | eq | ne | cs | cc | mi | pl | vs | vc | hi | ls | ge | lt | gt | le | al | nv
  deriving DecidableEq, Repr

/-- The shift-type field (R125). -/
inductive ShiftKind where
  | lsl | lsr | asr | ror
  deriving DecidableEq, Repr

/-- The data-processing `opcode` field (R115). -/
inductive DpOp where
  | and | eor | sub | rsb | add | adc | sbc | rsc | tst | teq | cmp | cmn | orr | mov | bic | mvn
  deriving DecidableEq, Repr

/-- Format DPI (R112), without the opcode. -/
structure Dpi where
  cond : Cond
  s : Bool
  rn : RegNum
  rd : RegNum
  rotate : BitVec 4
  imm8 : BitVec 8
  deriving DecidableEq, Repr

/-- Format DPS (R113), without the opcode. -/
structure Dps where
  cond : Cond
  s : Bool
  rn : RegNum
  rd : RegNum
  shiftImm : BitVec 5
  shift : ShiftKind
  rm : RegNum
  deriving DecidableEq, Repr

/-- Format DPR (R114), without the opcode. -/
structure Dpr where
  cond : Cond
  s : Bool
  rn : RegNum
  rd : RegNum
  rs : RegNum
  shift : ShiftKind
  rm : RegNum
  deriving DecidableEq, Repr

/-- Format MUL (R116), without the accumulate bit. -/
structure MulFields where
  cond : Cond
  s : Bool
  rd : RegNum
  rn : RegNum
  rs : RegNum
  rm : RegNum
  deriving DecidableEq, Repr

/-- Format MRS (R117): `spsr` is the R bit. -/
structure MrsFields where
  cond : Cond
  spsr : Bool
  rd : RegNum
  deriving DecidableEq, Repr

/-- Format MSRR (R118): `spsr` is the R bit, `mask` the field mask `f s x c` (R132). -/
structure MsrRegFields where
  cond : Cond
  spsr : Bool
  mask : BitVec 4
  rm : RegNum
  deriving DecidableEq, Repr

/-- Format MSRI (R119). -/
structure MsrImmFields where
  cond : Cond
  spsr : Bool
  mask : BitVec 4
  rotate : BitVec 4
  imm8 : BitVec 8
  deriving DecidableEq, Repr

/-- Format LSI (R120), without the B and L bits. -/
structure LsImmFields where
  cond : Cond
  p : Bool
  u : Bool
  w : Bool
  rn : RegNum
  rd : RegNum
  offset12 : BitVec 12
  deriving DecidableEq, Repr

/-- Format LSR (R121), without the B and L bits. -/
structure LsRegFields where
  cond : Cond
  p : Bool
  u : Bool
  w : Bool
  rn : RegNum
  rd : RegNum
  shiftImm : BitVec 5
  shift : ShiftKind
  rm : RegNum
  deriving DecidableEq, Repr

/-- Format BT (R122), without the L bit: `s` is the force-user-bank bit. -/
structure BtFields where
  cond : Cond
  p : Bool
  u : Bool
  s : Bool
  w : Bool
  rn : RegNum
  list : BitVec 16
  deriving DecidableEq, Repr

/-- Format BR (R123), without the link bit. -/
structure BrFields where
  cond : Cond
  offset24 : BitVec 24
  deriving DecidableEq, Repr

/-- Format SWI (R124). -/
structure SwiFields where
  cond : Cond
  comment24 : BitVec 24
  deriving DecidableEq, Repr

/-- The instructions: one constructor per row of opcode_table.json, in the table's order. -/
inductive Instr where
  | mrs (f : MrsFields)
  | msrReg (f : MsrRegFields)
  | msrImm (f : MsrImmFields)
  | mul (f : MulFields)
  | mla (f : MulFields)
  | andRsh (f : Dpr)
  | eorRsh (f : Dpr)
  | subRsh (f : Dpr)
  | rsbRsh (f : Dpr)
  | addRsh (f : Dpr)
  | adcRsh (f : Dpr)
  | sbcRsh (f : Dpr)
  | rscRsh (f : Dpr)
  | tstRsh (f : Dpr)
  | teqRsh (f : Dpr)
  | cmpRsh (f : Dpr)
  | cmnRsh (f : Dpr)
  | orrRsh (f : Dpr)
  | movRsh (f : Dpr)
  | bicRsh (f : Dpr)
  | mvnRsh (f : Dpr)
  | andSh (f : Dps)
  | eorSh (f : Dps)
  | subSh (f : Dps)
  | rsbSh (f : Dps)
  | addSh (f : Dps)
  | adcSh (f : Dps)
  | sbcSh (f : Dps)
  | rscSh (f : Dps)
  | tstSh (f : Dps)
  | teqSh (f : Dps)
  | cmpSh (f : Dps)
  | cmnSh (f : Dps)
  | orrSh (f : Dps)
  | movSh (f : Dps)
  | bicSh (f : Dps)
  | mvnSh (f : Dps)
  | andImm (f : Dpi)
  | eorImm (f : Dpi)
  | subImm (f : Dpi)
  | rsbImm (f : Dpi)
  | addImm (f : Dpi)
  | adcImm (f : Dpi)
  | sbcImm (f : Dpi)
  | rscImm (f : Dpi)
  | tstImm (f : Dpi)
  | teqImm (f : Dpi)
  | cmpImm (f : Dpi)
  | cmnImm (f : Dpi)
  | orrImm (f : Dpi)
  | movImm (f : Dpi)
  | bicImm (f : Dpi)
  | mvnImm (f : Dpi)
  | strImm (f : LsImmFields)
  | ldrImm (f : LsImmFields)
  | strbImm (f : LsImmFields)
  | ldrbImm (f : LsImmFields)
  | strReg (f : LsRegFields)
  | ldrReg (f : LsRegFields)
  | strbReg (f : LsRegFields)
  | ldrbReg (f : LsRegFields)
  | stm (f : BtFields)
  | ldm (f : BtFields)
  | b (f : BrFields)
  | bl (f : BrFields)
  | swi (f : SwiFields)
  deriving DecidableEq, Repr

/-- An instruction by its format: the opcode and the B, L, A and link bits stand beside the format's fields. -/
inductive Form where
  | mrs (f : MrsFields)
  | msrr (f : MsrRegFields)
  | msri (f : MsrImmFields)
  | mul (accumulate : Bool) (f : MulFields)
  | dpr (op : DpOp) (f : Dpr)
  | dps (op : DpOp) (f : Dps)
  | dpi (op : DpOp) (f : Dpi)
  | lsi (byte load : Bool) (f : LsImmFields)
  | lsr (byte load : Bool) (f : LsRegFields)
  | bt (load : Bool) (f : BtFields)
  | br (link : Bool) (f : BrFields)
  | swi (f : SwiFields)
  deriving DecidableEq, Repr

/-- The format of an instruction, with its opcode bits. -/
def Instr.form : Instr → Form
  | .mrs f => .mrs f
  | .msrReg f => .msrr f
  | .msrImm f => .msri f
  | .mul f => .mul false f
  | .mla f => .mul true f
  | .andRsh f => .dpr .and f
  | .eorRsh f => .dpr .eor f
  | .subRsh f => .dpr .sub f
  | .rsbRsh f => .dpr .rsb f
  | .addRsh f => .dpr .add f
  | .adcRsh f => .dpr .adc f
  | .sbcRsh f => .dpr .sbc f
  | .rscRsh f => .dpr .rsc f
  | .tstRsh f => .dpr .tst f
  | .teqRsh f => .dpr .teq f
  | .cmpRsh f => .dpr .cmp f
  | .cmnRsh f => .dpr .cmn f
  | .orrRsh f => .dpr .orr f
  | .movRsh f => .dpr .mov f
  | .bicRsh f => .dpr .bic f
  | .mvnRsh f => .dpr .mvn f
  | .andSh f => .dps .and f
  | .eorSh f => .dps .eor f
  | .subSh f => .dps .sub f
  | .rsbSh f => .dps .rsb f
  | .addSh f => .dps .add f
  | .adcSh f => .dps .adc f
  | .sbcSh f => .dps .sbc f
  | .rscSh f => .dps .rsc f
  | .tstSh f => .dps .tst f
  | .teqSh f => .dps .teq f
  | .cmpSh f => .dps .cmp f
  | .cmnSh f => .dps .cmn f
  | .orrSh f => .dps .orr f
  | .movSh f => .dps .mov f
  | .bicSh f => .dps .bic f
  | .mvnSh f => .dps .mvn f
  | .andImm f => .dpi .and f
  | .eorImm f => .dpi .eor f
  | .subImm f => .dpi .sub f
  | .rsbImm f => .dpi .rsb f
  | .addImm f => .dpi .add f
  | .adcImm f => .dpi .adc f
  | .sbcImm f => .dpi .sbc f
  | .rscImm f => .dpi .rsc f
  | .tstImm f => .dpi .tst f
  | .teqImm f => .dpi .teq f
  | .cmpImm f => .dpi .cmp f
  | .cmnImm f => .dpi .cmn f
  | .orrImm f => .dpi .orr f
  | .movImm f => .dpi .mov f
  | .bicImm f => .dpi .bic f
  | .mvnImm f => .dpi .mvn f
  | .strImm f => .lsi false false f
  | .ldrImm f => .lsi false true f
  | .strbImm f => .lsi true false f
  | .ldrbImm f => .lsi true true f
  | .strReg f => .lsr false false f
  | .ldrReg f => .lsr false true f
  | .strbReg f => .lsr true false f
  | .ldrbReg f => .lsr true true f
  | .stm f => .bt false f
  | .ldm f => .bt true f
  | .b f => .br false f
  | .bl f => .br true f
  | .swi f => .swi f

/-- The instruction a format with its opcode bits stands for: the inverse of `Instr.form`. -/
def Form.instr : Form → Instr
  | .mrs f => .mrs f
  | .msrr f => .msrReg f
  | .msri f => .msrImm f
  | .mul false f => .mul f
  | .mul true f => .mla f
  | .dpr .and f => .andRsh f
  | .dpr .eor f => .eorRsh f
  | .dpr .sub f => .subRsh f
  | .dpr .rsb f => .rsbRsh f
  | .dpr .add f => .addRsh f
  | .dpr .adc f => .adcRsh f
  | .dpr .sbc f => .sbcRsh f
  | .dpr .rsc f => .rscRsh f
  | .dpr .tst f => .tstRsh f
  | .dpr .teq f => .teqRsh f
  | .dpr .cmp f => .cmpRsh f
  | .dpr .cmn f => .cmnRsh f
  | .dpr .orr f => .orrRsh f
  | .dpr .mov f => .movRsh f
  | .dpr .bic f => .bicRsh f
  | .dpr .mvn f => .mvnRsh f
  | .dps .and f => .andSh f
  | .dps .eor f => .eorSh f
  | .dps .sub f => .subSh f
  | .dps .rsb f => .rsbSh f
  | .dps .add f => .addSh f
  | .dps .adc f => .adcSh f
  | .dps .sbc f => .sbcSh f
  | .dps .rsc f => .rscSh f
  | .dps .tst f => .tstSh f
  | .dps .teq f => .teqSh f
  | .dps .cmp f => .cmpSh f
  | .dps .cmn f => .cmnSh f
  | .dps .orr f => .orrSh f
  | .dps .mov f => .movSh f
  | .dps .bic f => .bicSh f
  | .dps .mvn f => .mvnSh f
  | .dpi .and f => .andImm f
  | .dpi .eor f => .eorImm f
  | .dpi .sub f => .subImm f
  | .dpi .rsb f => .rsbImm f
  | .dpi .add f => .addImm f
  | .dpi .adc f => .adcImm f
  | .dpi .sbc f => .sbcImm f
  | .dpi .rsc f => .rscImm f
  | .dpi .tst f => .tstImm f
  | .dpi .teq f => .teqImm f
  | .dpi .cmp f => .cmpImm f
  | .dpi .cmn f => .cmnImm f
  | .dpi .orr f => .orrImm f
  | .dpi .mov f => .movImm f
  | .dpi .bic f => .bicImm f
  | .dpi .mvn f => .mvnImm f
  | .lsi false false f => .strImm f
  | .lsi false true f => .ldrImm f
  | .lsi true false f => .strbImm f
  | .lsi true true f => .ldrbImm f
  | .lsr false false f => .strReg f
  | .lsr false true f => .ldrReg f
  | .lsr true false f => .strbReg f
  | .lsr true true f => .ldrbReg f
  | .bt false f => .stm f
  | .bt true f => .ldm f
  | .br false f => .b f
  | .br true f => .bl f
  | .swi f => .swi f

/-- The condition field of an instruction (R111). -/
def Form.cond : Form → Cond
  | .mrs f => f.cond
  | .msrr f => f.cond
  | .msri f => f.cond
  | .mul _ f => f.cond
  | .dpr _ f => f.cond
  | .dps _ f => f.cond
  | .dpi _ f => f.cond
  | .lsi _ _ f => f.cond
  | .lsr _ _ f => f.cond
  | .bt _ f => f.cond
  | .br _ f => f.cond
  | .swi f => f.cond

/-- The condition field of an instruction (R111). -/
def Instr.cond (i : Instr) : Cond := i.form.cond

end Sys2Proof
end

