-- ==== Sys2Proof/WellFormed.lean ====
section
/-!
DEFINITION. Which instruction terms are instructions of the machine: those whose word is their own. The decode table is
ordered (30_encoding.md R133, R134), and a compare or TEQ opcode with S = 0 whose other fields happen to be the fixed
bits of MRS or MSR has a word that decodes as MRS or MSR. Such a term is ill-formed. Every other term is well-formed,
also where the spec makes its word a fault at decode (those checks are `Instr.checkWord`).
-/

namespace Sys2Proof

/-- The word of TST or CMP (DPS) with these fields is a word of MRS: mask 0x0FBF0FFF, value 0x010F0000 (R117, R133). -/
def Dps.isMrsWord (f : Dps) : Bool :=
  !f.s && f.rn == 15#4 && f.shiftImm == 0#5 && f.shift == .lsl && f.rm == 0#4

/-- The word of TEQ or CMN (DPS) with these fields is a word of MSR, register form: mask 0x0FB0FFF0, value 0x0120F000
(R118, R133). -/
def Dps.isMsrWord (f : Dps) : Bool :=
  !f.s && f.rd == 15#4 && f.shiftImm == 0#5 && f.shift == .lsl

/-- The word of TEQ or CMN (DPI) with these fields is a word of MSR, immediate form: mask 0x0FB0F000, value 0x0320F000
(R119, R133). -/
def Dpi.isMsrWord (f : Dpi) : Bool :=
  !f.s && f.rd == 15#4

/-- The opcodes whose S = 0 words hold the MRS words. -/
def DpOp.sharesMrs : DpOp → Bool
  | .tst | .cmp => true
  | .and | .eor | .sub | .rsb | .add | .adc | .sbc | .rsc | .teq | .cmn | .orr | .mov | .bic | .mvn => false

/-- The opcodes whose S = 0 words hold the MSR words. -/
def DpOp.sharesMsr : DpOp → Bool
  | .teq | .cmn => true
  | .and | .eor | .sub | .rsb | .add | .adc | .sbc | .rsc | .tst | .cmp | .orr | .mov | .bic | .mvn => false

/-- The term's word is not the word of an earlier entry of the decode table. -/
def Form.wellFormed : Form → Bool
  | .dps op f => !(op.sharesMrs && f.isMrsWord) && !(op.sharesMsr && f.isMsrWord)
  | .dpi op f => !(op.sharesMsr && f.isMsrWord)
  | .mrs _ | .msrr _ | .msri _ | .mul _ _ | .dpr _ _ | .lsi _ _ _ | .lsr _ _ _ | .bt _ _ | .br _ _ | .swi _ => true

/-- The term is an instruction: its word is its own. -/
def Instr.wellFormed (i : Instr) : Bool := i.form.wellFormed

end Sys2Proof
end

