-- ==== Sys2Proof/Decode.lean ====
section
/-!
DEFINITION. Decoding (30_encoding.md): the ordered decode table (R133), the fields of each format, the decoder from words
and from bytes, the word-only checks made at decode (R136), and the encoder, written from the same tables.
-/

namespace Sys2Proof

/-! ## Fields with names -/

/-- R111. -/
def Cond.ofBits (b : BitVec 4) : Cond :=
  match b.toNat with
  | 0 => .eq | 1 => .ne | 2 => .cs | 3 => .cc | 4 => .mi | 5 => .pl | 6 => .vs | 7 => .vc
  | 8 => .hi | 9 => .ls | 10 => .ge | 11 => .lt | 12 => .gt | 13 => .le | 14 => .al | _ => .nv

/-- R111. -/
def Cond.bits : Cond → BitVec 4
  | .eq => 0b0000#4 | .ne => 0b0001#4 | .cs => 0b0010#4 | .cc => 0b0011#4
  | .mi => 0b0100#4 | .pl => 0b0101#4 | .vs => 0b0110#4 | .vc => 0b0111#4
  | .hi => 0b1000#4 | .ls => 0b1001#4 | .ge => 0b1010#4 | .lt => 0b1011#4
  | .gt => 0b1100#4 | .le => 0b1101#4 | .al => 0b1110#4 | .nv => 0b1111#4

/-- R125. -/
def ShiftKind.ofBits (b : BitVec 2) : ShiftKind :=
  match b.toNat with
  | 0 => .lsl | 1 => .lsr | 2 => .asr | _ => .ror

/-- R125. -/
def ShiftKind.bits : ShiftKind → BitVec 2
  | .lsl => 0b00#2 | .lsr => 0b01#2 | .asr => 0b10#2 | .ror => 0b11#2

/-- R115. -/
def DpOp.ofBits (b : BitVec 4) : DpOp :=
  match b.toNat with
  | 0 => .and | 1 => .eor | 2 => .sub | 3 => .rsb | 4 => .add | 5 => .adc | 6 => .sbc | 7 => .rsc
  | 8 => .tst | 9 => .teq | 10 => .cmp | 11 => .cmn | 12 => .orr | 13 => .mov | 14 => .bic | _ => .mvn

/-- R115. -/
def DpOp.bits : DpOp → BitVec 4
  | .and => 0b0000#4 | .eor => 0b0001#4 | .sub => 0b0010#4 | .rsb => 0b0011#4
  | .add => 0b0100#4 | .adc => 0b0101#4 | .sbc => 0b0110#4 | .rsc => 0b0111#4
  | .tst => 0b1000#4 | .teq => 0b1001#4 | .cmp => 0b1010#4 | .cmn => 0b1011#4
  | .orr => 0b1100#4 | .mov => 0b1101#4 | .bic => 0b1110#4 | .mvn => 0b1111#4

/-! ## The decode table -/

/-- The twelve entries of the decode table, by format (R133). -/
inductive Entry where
  | mrs | msrr | msri | mul | dpr | dps | dpi | lsi | lsr | bt | br | swi
  deriving DecidableEq, Repr

/-- The entry's mask (R133). -/
def Entry.mask : Entry → Word
  | .mrs => 0x0FBF0FFF#32
  | .msrr => 0x0FB0FFF0#32
  | .msri => 0x0FB0F000#32
  | .mul => 0x0FC000F0#32
  | .dpr => 0x0E000090#32
  | .dps => 0x0E000010#32
  | .dpi => 0x0E000000#32
  | .lsi => 0x0E000000#32
  | .lsr => 0x0E000010#32
  | .bt => 0x0E000000#32
  | .br => 0x0E000000#32
  | .swi => 0x0F000000#32

/-- The entry's expected value after the mask (R133). -/
def Entry.value : Entry → Word
  | .mrs => 0x010F0000#32
  | .msrr => 0x0120F000#32
  | .msri => 0x0320F000#32
  | .mul => 0x00000090#32
  | .dpr => 0x00000010#32
  | .dps => 0x00000000#32
  | .dpi => 0x02000000#32
  | .lsi => 0x04000000#32
  | .lsr => 0x06000000#32
  | .bt => 0x08000000#32
  | .br => 0x0A000000#32
  | .swi => 0x0F000000#32

/-- The entry's place in the table, 0 for the entry R133 numbers 1. -/
def Entry.index : Entry → Fin 12
  | .mrs => 0 | .msrr => 1 | .msri => 2 | .mul => 3 | .dpr => 4 | .dps => 5
  | .dpi => 6 | .lsi => 7 | .lsr => 8 | .bt => 9 | .br => 10 | .swi => 11

/-- The word matches the entry. -/
def Entry.matchesWord (e : Entry) (w : Word) : Bool := w &&& e.mask == e.value

/-- The table in its order (R133, R134). -/
def decodeTable : List Entry :=
  [.mrs, .msrr, .msri, .mul, .dpr, .dps, .dpi, .lsi, .lsr, .bt, .br, .swi]

/-- First match wins (R133, R135). -/
def findEntry (w : Word) : Option Entry := decodeTable.find? (fun e => e.matchesWord w)

/-! ## Fields of a word -/

/-- The condition field (R111). -/
def condOf (w : Word) : Cond := Cond.ofBits (w.extractLsb' 28 4)

/-- Bits 6:5 (R125). -/
def shiftOf (w : Word) : ShiftKind := ShiftKind.ofBits (w.extractLsb' 5 2)

/-- Bits 24:21 (R115). -/
def opOf (w : Word) : DpOp := DpOp.ofBits (w.extractLsb' 21 4)

/-- The fields of a word of format MRS (R117). -/
def mrsOf (w : Word) : MrsFields where
  cond := condOf w
  spsr := w.getLsbD 22
  rd := w.extractLsb' 12 4

/-- The fields of a word of format MSRR (R118). -/
def msrRegOf (w : Word) : MsrRegFields where
  cond := condOf w
  spsr := w.getLsbD 22
  mask := w.extractLsb' 16 4
  rm := w.extractLsb' 0 4

/-- The fields of a word of format MSRI (R119). -/
def msrImmOf (w : Word) : MsrImmFields where
  cond := condOf w
  spsr := w.getLsbD 22
  mask := w.extractLsb' 16 4
  rotate := w.extractLsb' 8 4
  imm8 := w.extractLsb' 0 8

/-- The fields of a word of format MUL (R116). -/
def mulOf (w : Word) : MulFields where
  cond := condOf w
  s := w.getLsbD 20
  rd := w.extractLsb' 16 4
  rn := w.extractLsb' 12 4
  rs := w.extractLsb' 8 4
  rm := w.extractLsb' 0 4

/-- The fields of a word of format DPR (R114). -/
def dprOf (w : Word) : Dpr where
  cond := condOf w
  s := w.getLsbD 20
  rn := w.extractLsb' 16 4
  rd := w.extractLsb' 12 4
  rs := w.extractLsb' 8 4
  shift := shiftOf w
  rm := w.extractLsb' 0 4

/-- The fields of a word of format DPS (R113). -/
def dpsOf (w : Word) : Dps where
  cond := condOf w
  s := w.getLsbD 20
  rn := w.extractLsb' 16 4
  rd := w.extractLsb' 12 4
  shiftImm := w.extractLsb' 7 5
  shift := shiftOf w
  rm := w.extractLsb' 0 4

/-- The fields of a word of format DPI (R112). -/
def dpiOf (w : Word) : Dpi where
  cond := condOf w
  s := w.getLsbD 20
  rn := w.extractLsb' 16 4
  rd := w.extractLsb' 12 4
  rotate := w.extractLsb' 8 4
  imm8 := w.extractLsb' 0 8

/-- The fields of a word of format LSI (R120). -/
def lsImmOf (w : Word) : LsImmFields where
  cond := condOf w
  p := w.getLsbD 24
  u := w.getLsbD 23
  w := w.getLsbD 21
  rn := w.extractLsb' 16 4
  rd := w.extractLsb' 12 4
  offset12 := w.extractLsb' 0 12

/-- The fields of a word of format LSR (R121). -/
def lsRegOf (w : Word) : LsRegFields where
  cond := condOf w
  p := w.getLsbD 24
  u := w.getLsbD 23
  w := w.getLsbD 21
  rn := w.extractLsb' 16 4
  rd := w.extractLsb' 12 4
  shiftImm := w.extractLsb' 7 5
  shift := shiftOf w
  rm := w.extractLsb' 0 4

/-- The fields of a word of format BT (R122). -/
def btOf (w : Word) : BtFields where
  cond := condOf w
  p := w.getLsbD 24
  u := w.getLsbD 23
  s := w.getLsbD 22
  w := w.getLsbD 21
  rn := w.extractLsb' 16 4
  list := w.extractLsb' 0 16

/-- The fields of a word of format BR (R123). -/
def brOf (w : Word) : BrFields where
  cond := condOf w
  offset24 := w.extractLsb' 0 24

/-- The fields of a word of format SWI (R124). -/
def swiOf (w : Word) : SwiFields where
  cond := condOf w
  comment24 := w.extractLsb' 0 24

/-- The instruction a word of the entry's format holds. -/
def Entry.formOf (w : Word) : Entry → Form
  | .mrs => .mrs (mrsOf w)
  | .msrr => .msrr (msrRegOf w)
  | .msri => .msri (msrImmOf w)
  | .mul => .mul (w.getLsbD 21) (mulOf w)
  | .dpr => .dpr (opOf w) (dprOf w)
  | .dps => .dps (opOf w) (dpsOf w)
  | .dpi => .dpi (opOf w) (dpiOf w)
  | .lsi => .lsi (w.getLsbD 22) (w.getLsbD 20) (lsImmOf w)
  | .lsr => .lsr (w.getLsbD 22) (w.getLsbD 20) (lsRegOf w)
  | .bt => .bt (w.getLsbD 20) (btOf w)
  | .br => .br (w.getLsbD 24) (brOf w)
  | .swi => .swi (swiOf w)

/-! ## The decoder -/

/-- Why bytes are no instruction. -/
inductive DecodeError where
  /-- The word matches no entry (R137, R138). -/
  | noEntry (word : Word)
  /-- Fewer than four bytes. -/
  | tooShort (bytes : Nat)
  deriving DecidableEq, Repr

/-- The table lookup and field extraction of R135; the word-only checks are `Instr.checkWord`. -/
def decodeWord (w : Word) : Except DecodeError Instr :=
  match findEntry w with
  | some e => .ok (e.formOf w).instr
  | none => .error (.noEntry w)

/-- Four bytes as a little-endian word (R110, 20_memory.md R84). -/
def wordOfBytes (b0 b1 b2 b3 : Byte) : Word := b3 ++ b2 ++ b1 ++ b0

/-- Byte `k` (0 to 3) of a word in its little-endian order. -/
def byteOfWord (w : Word) (k : Nat) : Byte := w.extractLsb' (8 * k) 8

/-- The instruction at the head of the bytes, and the bytes after it (R110). -/
def decode : List Byte → Except DecodeError (Instr × List Byte)
  | b0 :: b1 :: b2 :: b3 :: rest =>
    match decodeWord (wordOfBytes b0 b1 b2 b3) with
    | .ok i => .ok (i, rest)
    | .error e => .error e
  | bs => .error (.tooShort bs.length)

/-- A word as its four bytes, the lowest address first. -/
def bytesOfWord (w : Word) : List Byte :=
  [byteOfWord w 0, byteOfWord w 1, byteOfWord w 2, byteOfWord w 3]

/-- The word with the low `nbits` bits of `w`. -/
def tableWord (nbits w : Nat) : Word := BitVec.ofNat 32 (w % 2 ^ nbits)

/-- What the decoder reads from the bytes of an opcode-table word. -/
def decodeTableWord (nbits w : Nat) : Option Instr :=
  match decode (bytesOfWord (tableWord nbits w)) with
  | .ok (i, _) => some i
  | .error _ => none

/-! ## The encoder -/

/-- The word of an instruction (R112 to R124). -/
def Form.encode : Form → Word
  | .mrs f => f.cond.bits ++ 0b00010#5 ++ BitVec.ofBool f.spsr ++ 0b001111#6 ++ f.rd ++ 0#12
  | .msrr f => f.cond.bits ++ 0b00010#5 ++ BitVec.ofBool f.spsr ++ 0b10#2 ++ f.mask ++ 0b1111#4 ++ 0#8 ++ f.rm
  | .msri f =>
    f.cond.bits ++ 0b00110#5 ++ BitVec.ofBool f.spsr ++ 0b10#2 ++ f.mask ++ 0b1111#4 ++ f.rotate ++ f.imm8
  | .mul a f =>
    f.cond.bits ++ 0#6 ++ BitVec.ofBool a ++ BitVec.ofBool f.s ++ f.rd ++ f.rn ++ f.rs ++ 0b1001#4 ++ f.rm
  | .dpr op f =>
    f.cond.bits ++ 0b000#3 ++ op.bits ++ BitVec.ofBool f.s ++ f.rn ++ f.rd ++ f.rs ++ 0b0#1 ++ f.shift.bits ++
      0b1#1 ++ f.rm
  | .dps op f =>
    f.cond.bits ++ 0b000#3 ++ op.bits ++ BitVec.ofBool f.s ++ f.rn ++ f.rd ++ f.shiftImm ++ f.shift.bits ++
      0b0#1 ++ f.rm
  | .dpi op f =>
    f.cond.bits ++ 0b001#3 ++ op.bits ++ BitVec.ofBool f.s ++ f.rn ++ f.rd ++ f.rotate ++ f.imm8
  | .lsi b l f =>
    f.cond.bits ++ 0b010#3 ++ BitVec.ofBool f.p ++ BitVec.ofBool f.u ++ BitVec.ofBool b ++ BitVec.ofBool f.w ++
      BitVec.ofBool l ++ f.rn ++ f.rd ++ f.offset12
  | .lsr b l f =>
    f.cond.bits ++ 0b011#3 ++ BitVec.ofBool f.p ++ BitVec.ofBool f.u ++ BitVec.ofBool b ++ BitVec.ofBool f.w ++
      BitVec.ofBool l ++ f.rn ++ f.rd ++ f.shiftImm ++ f.shift.bits ++ 0b0#1 ++ f.rm
  | .bt l f =>
    f.cond.bits ++ 0b100#3 ++ BitVec.ofBool f.p ++ BitVec.ofBool f.u ++ BitVec.ofBool f.s ++ BitVec.ofBool f.w ++
      BitVec.ofBool l ++ f.rn ++ f.list
  | .br k f => f.cond.bits ++ 0b101#3 ++ BitVec.ofBool k ++ f.offset24
  | .swi f => f.cond.bits ++ 0b1111#4 ++ f.comment24

/-- The word of an instruction. -/
def encode (i : Instr) : Word := i.form.encode

/-- The entry a well-formed instruction's word matches first; its base cost is the instruction's (R133, R213). -/
def Form.entry : Form → Entry
  | .mrs _ => .mrs
  | .msrr _ => .msrr
  | .msri _ => .msri
  | .mul _ _ => .mul
  | .dpr _ _ => .dpr
  | .dps _ _ => .dps
  | .dpi _ _ => .dpi
  | .lsi _ _ _ => .lsi
  | .lsr _ _ _ => .lsr
  | .bt _ _ => .bt
  | .br _ _ => .br
  | .swi _ => .swi

/-- The decode-table entry of an instruction. -/
def Instr.entry (i : Instr) : Entry := i.form.entry

/-! ## The word-only checks made at decode -/

/-- The fatal faults raised at decode for a word that matches an entry (60_exceptions.md R440). -/
inductive DecodeFault where
  /-- `UNIMP_DP_OPCODE`: ADC, SBC, RSC, TEQ (R263). -/
  | unimpDpOpcode
  /-- `INT_COMPARE_NO_S`: TST, CMP, CMN with S = 0 (R249). -/
  | intCompareNoS
  /-- `UNIMP_PC_FLAGS`: Rd = 15 with S = 1 (R249). -/
  | unimpPcFlags
  /-- `UNIMP_SHIFT32`: an immediate LSR, ASR or ROR by 0 (R244, R302). -/
  | unimpShift32
  /-- `UNIMP_REG_SHIFT_PC`: Rs = 15 (R245). -/
  | unimpRegShiftPc
  /-- `UNIMP_LS_USER`: post-indexed with W = 1 (R303). -/
  | unimpLsUser
  /-- `UNIMP_LS_PC`: Rd = 15 (R303). -/
  | unimpLsPc
  /-- `UNIMP_LS_WB_PC`: writeback with Rn = 15 (R303). -/
  | unimpLsWbPc
  /-- `UNIMP_LS_WB_RD`: writeback with Rn = Rd (R303). -/
  | unimpLsWbRd
  /-- `UNIMP_LS_RM_PC`: register offset Rm = 15 (R303). -/
  | unimpLsRmPc
  /-- `UNIMP_BT_USER`: the S bit (R342). -/
  | unimpBtUser
  /-- `UNIMP_BT_EMPTY`: the empty list (R342). -/
  | unimpBtEmpty
  /-- `UNIMP_BT_PC_BASE`: Rn = 15 (R342). -/
  | unimpBtPcBase
  /-- `UNIMP_BT_WB_IN_LIST`: writeback with the base listed (R342). -/
  | unimpBtWbInList
  /-- `UNIMP_MUL_PC`: an operand or Rd = 15 (R371). -/
  | unimpMulPc
  /-- `UNIMP_MUL_RD_RM`: Rd = Rm (R371). -/
  | unimpMulRdRm
  /-- `UNIMP_MRS_PC`: MRS with Rd = 15 (R392). -/
  | unimpMrsPc
  /-- `UNIMP_MSR_PC`: MSR with Rm = 15 (R394). -/
  | unimpMsrPc
  deriving DecidableEq, Repr

/-- The opcodes this core does not implement (R263). -/
def DpOp.unimplemented : DpOp → Bool
  | .adc | .sbc | .rsc | .teq => true
  | .and | .eor | .sub | .rsb | .add | .tst | .cmp | .cmn | .orr | .mov | .bic | .mvn => false

/-- The compare-only opcodes that execute (R260 to R262). -/
def DpOp.compareOnly : DpOp → Bool
  | .tst | .cmp | .cmn => true
  | .and | .eor | .sub | .rsb | .add | .adc | .sbc | .rsc | .teq | .orr | .mov | .bic | .mvn => false

/-- R249 items 1 to 3, shared by the three data-processing formats; `rest` is what items 4 and 5 give. -/
def checkDp (op : DpOp) (s : Bool) (rd : RegNum) (rest : Option DecodeFault) : Option DecodeFault :=
  if op.unimplemented then some .unimpDpOpcode
  else if op.compareOnly && !s then some .intCompareNoS
  else if !op.compareOnly && rd == 15#4 && s then some .unimpPcFlags
  else rest

/-- An immediate shift amount that encodes shift-by-32 (R244). -/
def isShift32 (shift : ShiftKind) (shiftImm : BitVec 5) : Bool := shift != .lsl && shiftImm == 0#5

/-- R303 items 1 to 4, shared by the two load/store formats; `rest` is what items 5 and 6 give. -/
def checkLs (p w : Bool) (rn rd : RegNum) (rest : Option DecodeFault) : Option DecodeFault :=
  if !p && w then some .unimpLsUser
  else if rd == 15#4 then some .unimpLsPc
  else if (!p || w) && rn == 15#4 then some .unimpLsWbPc
  else if (!p || w) && rn == rd then some .unimpLsWbRd
  else rest

/-- Register `r` is in the register list (R131). -/
def BtFields.listed (f : BtFields) (r : RegNum) : Bool := f.list.getLsbD r.toNat

/-- The word-only checks, each list in its rule's order: R249, R303, R342, R371, R392, R394 (R136). -/
def Form.checkWord : Form → Option DecodeFault
  | .mrs f => if f.rd == 15#4 then some .unimpMrsPc else none
  | .msrr f => if f.rm == 15#4 then some .unimpMsrPc else none
  | .msri _ => none
  | .mul a f =>
    if f.rd == 15#4 || f.rm == 15#4 || f.rs == 15#4 || (a && f.rn == 15#4) then some .unimpMulPc
    else if f.rd == f.rm then some .unimpMulRdRm
    else none
  | .dpr op f => checkDp op f.s f.rd (if f.rs == 15#4 then some .unimpRegShiftPc else none)
  | .dps op f => checkDp op f.s f.rd (if isShift32 f.shift f.shiftImm then some .unimpShift32 else none)
  | .dpi op f => checkDp op f.s f.rd none
  | .lsi _ _ f => checkLs f.p f.w f.rn f.rd none
  | .lsr _ _ f =>
    checkLs f.p f.w f.rn f.rd
      (if f.rm == 15#4 then some .unimpLsRmPc
       else if isShift32 f.shift f.shiftImm then some .unimpShift32 else none)
  | .bt _ f =>
    if f.s then some .unimpBtUser
    else if f.list == 0#16 then some .unimpBtEmpty
    else if f.rn == 15#4 then some .unimpBtPcBase
    else if f.w && f.listed f.rn then some .unimpBtWbInList
    else none
  | .br _ _ => none
  | .swi _ => none

/-- The fault a word raises at decode, whatever its condition (R135, R136). -/
def Instr.checkWord (i : Instr) : Option DecodeFault := i.form.checkWord

/-! ## The rows of opcode_table.json -/

/-- A row's mask in opcode_table.json. -/
def Form.rowMask : Form → Word
  | .mrs _ => 0x0FBF0FFF#32
  | .msrr _ => 0x0FB0FFF0#32
  | .msri _ => 0x0FB0F000#32
  | .mul _ _ => 0x0FE000F0#32
  | .dpr _ _ => 0x0FE00090#32
  | .dps _ _ => 0x0FE00010#32
  | .dpi _ _ => 0x0FE00000#32
  | .lsi _ _ _ => 0x0E500000#32
  | .lsr _ _ _ => 0x0E500010#32
  | .bt _ _ => 0x0E100000#32
  | .br _ _ => 0x0F000000#32
  | .swi _ => 0x0F000000#32

/-- A row's match value in opcode_table.json. -/
def Form.rowMatch : Form → Word
  | .mrs _ => 0x010F0000#32
  | .msrr _ => 0x0120F000#32
  | .msri _ => 0x0320F000#32
  | .mul a _ => if a then 0x00200090#32 else 0x00000090#32
  | .dpr op _ => op.bits.setWidth 32 <<< 21 ||| 0x00000010#32
  | .dps op _ => op.bits.setWidth 32 <<< 21
  | .dpi op _ => op.bits.setWidth 32 <<< 21 ||| 0x02000000#32
  | .lsi b l _ => 0x04000000#32 ||| (if b then 0x00400000#32 else 0#32) ||| (if l then 0x00100000#32 else 0#32)
  | .lsr b l _ => 0x06000000#32 ||| (if b then 0x00400000#32 else 0#32) ||| (if l then 0x00100000#32 else 0#32)
  | .bt l _ => if l then 0x08100000#32 else 0x08000000#32
  | .br k _ => if k then 0x0B000000#32 else 0x0A000000#32
  | .swi _ => 0x0F000000#32

end Sys2Proof
end

