-- ==== Sys2Proof/Machine/State.lean ====
section
/-!
DEFINITION. The machine's state as plain data (10_state.md), the reasons a step can stop, and the power-on state. The
engine's registers stand in `Cpu`, the scheduler's in `Sched`, what the host supplies in `HostEnv`.
-/

namespace Sys2Proof.Machine

open Sys2Proof

/-! ## Modes and banks -/

/-- The seven valid modes (R42). -/
inductive Mode where
  | usr | fiq | irq | svc | abt | und | sys
  deriving DecidableEq, Repr

/-- The banks of R13 and R14 (R32): USR and SYS share one. -/
inductive Bank where
  | usr | fiq | irq | svc | abt | und
  deriving DecidableEq, Repr

/-- One word for each bank. -/
structure Banked where
  usr : Word
  fiq : Word
  irq : Word
  svc : Word
  abt : Word
  und : Word
  deriving DecidableEq, Repr

/-- The physical general registers but R15 (R32): 30 of the 31. -/
structure RegFile where
  /-- R0..R7, shared by all modes. -/
  low : Vector Word 8
  /-- R8_usr..R12_usr, of every mode but FIQ. -/
  midUsr : Vector Word 5
  /-- R8_fiq..R12_fiq. -/
  midFiq : Vector Word 5
  /-- R13 of each bank. -/
  sp : Banked
  /-- R14 of each bank. -/
  lr : Banked
  deriving DecidableEq, Repr

/-- The name of one physical general register but R15. -/
inductive PhysReg where
  | low (i : Fin 8)
  | midUsr (i : Fin 5)
  | midFiq (i : Fin 5)
  | sp (b : Bank)
  | lr (b : Bank)
  deriving DecidableEq, Repr

/-! ## Status registers -/

/-- The stored bits of CPSR or an SPSR (R40, R45); bits 27:8 and 5 have no storage and read 0 (R44, log 11). -/
structure Psr where
  n : Bool
  z : Bool
  c : Bool
  v : Bool
  /-- 1 masks the normal interrupt. -/
  i : Bool
  /-- 1 masks the fast interrupt. -/
  f : Bool
  /-- The mode field `M`, any five bits: 00000 at power-on, any value in an SPSR (R42, R45). -/
  m : BitVec 5
  deriving DecidableEq, Repr

/-- The five saved status registers (R45). -/
structure Spsrs where
  fiq : Psr
  irq : Psr
  svc : Psr
  abt : Psr
  und : Psr
  deriving DecidableEq, Repr

/-! ## Queue, pending mask, engine -/

/-- An entry of the prefetch queue: the word and the address it was fetched from (R47). -/
structure Fetched where
  word : Word
  addr : Word
  deriving DecidableEq, Repr

/-- The prefetch queue, `qlen` 0, 1 or 2 (R47). -/
inductive Queue where
  | empty
  | one (q0 : Fetched)
  | two (q0 q1 : Fetched)
  deriving DecidableEq, Repr

/-- The pending-exception mask (R46). -/
structure Pending where
  reset : Bool
  dabt : Bool
  fiq : Bool
  irq : Bool
  pabt : Bool
  swi : Bool
  deriving DecidableEq, Repr

/-- The CPU engine (R30). -/
structure Cpu where
  regs : RegFile
  /-- R15 (R36). -/
  pc : Word
  cpsr : Psr
  spsr : Spsrs
  queue : Queue
  pending : Pending
  /-- `cpu_cycles` (R53). -/
  cycles : Stamp
  deriving DecidableEq, Repr

/-! ## Scheduler -/

/-- The link state of an event record (R49). -/
inductive Link where
  | unscheduled
  | inDomain (d : Nat)
  deriving DecidableEq, Repr

/-- An event slot (R49). -/
structure EventSlot where
  when : Stamp
  /-- An opaque handler id (R161). -/
  handler : Nat
  link : Link
  deriving DecidableEq, Repr

/-- A clock domain (R48): `list` holds event ids. -/
structure Clock where
  stamp : Stamp
  target : Stamp
  list : List Nat
  deriving DecidableEq, Repr

/-- The clock domains and the arena of event slots, each indexed by its id. -/
structure Sched where
  clocks : List Clock
  events : List EventSlot
  deriving DecidableEq, Repr

/-! ## The host -/

/-- The widths of the bus contract's integer accesses (20_memory.md R81); no instruction issues `half`. -/
inductive Width where
  | byte | half | word
  deriving DecidableEq, Repr

/-- What a host agent may call: a scheduler operation but `advance_stamp`, which is the driver's alone (41_pipeline.md R218;
log 23), an interrupt line, a bus access (40_scheduler.md R161, 60_exceptions.md R453). -/
inductive HostCall where
  | schedule (d e : Nat) (w : Stamp)
  | cancel (d e : Nat)
  | popEarliest (d : Nat)
  | peekEarliest (d : Nat)
  | targetStamp (d : Nat)
  | initEvent (e handler : Nat)
  | setIrqLine (level : Bool)
  | setFiqLine (level : Bool)
  | busRead (addr : Word) (width : Width)
  | busWrite (addr : Word) (width : Width) (value : Word)
  deriving DecidableEq, Repr

/-- What answers at an address other than plain memory. -/
inductive RegionKind where
  /-- A device: `HostEnv.deviceScript` answers. -/
  | device
  /-- Nothing: the bus answers failure. -/
  | fails
  deriving DecidableEq, Repr

/-- Addresses `base` to `base + size - 1`. -/
structure Region where
  base : Nat
  size : Nat
  kind : RegionKind
  deriving DecidableEq, Repr

/-- A device's answer to one access: success and its value (ignored for a write), and what it does besides, success or
not. -/
structure DeviceReply where
  ok : Bool
  value : Word
  calls : List HostCall
  deriving DecidableEq, Repr

/-- The levels the host sets the two lines to before one poll (R453). -/
structure Lines where
  irq : Bool
  fiq : Bool
  deriving DecidableEq, Repr

/-- A step of the host before the first driver iteration (70_reset_and_hazards.md R494). -/
inductive BootStep where
  /-- A subsystem's call. -/
  | call (c : HostCall)
  /-- The driver's `run_cpu` of the engine. -/
  | runCpu
  deriving DecidableEq, Repr

/-- The host's inputs (R9, R453). They are the model's own fields, not the core's state (R57). -/
structure HostEnv where
  /-- What `irq_line` and `fiq_line` answer at the next poll (41_pipeline.md R202). -/
  lines : Lines
  /-- New levels for the coming polls, one each; when it is empty the lines keep their levels (log 4). -/
  lineScript : List Lines
  /-- What lies behind the bus other than plain memory (log 2). -/
  regions : List Region
  /-- Answers to the coming device accesses, one each (log 3). -/
  deviceScript : List DeviceReply
  /-- What the coming invocations of each handler id do, the first of an id first (log 5). -/
  handlerScript : List (Nat × List HostCall)
  /-- What the host does before the first driver iteration (R494; log 6). -/
  boot : List BootStep
  /-- Calls the host makes before the next driver iteration (log 6). -/
  inbox : List HostCall
  /-- The domains of the coming driver iterations; the engine's domain when it is empty (log 7). -/
  order : List Nat
  deriving DecidableEq, Repr

/-- Which agent moves next (log 6). -/
inductive Turn where
  /-- The host takes the steps of `HostEnv.boot`, one a step, before the first iteration (R494). -/
  | boot
  /-- `run_cpu` is running: a fetch cycle; of an iteration, or, `boot` being true, before the first one. -/
  | run (boot : Bool)
  /-- `run_cpu` has ended: the driver advances domain `d`'s stamp. -/
  | advance (d : Nat)
  /-- The driver drains domain `d`'s due events, one a step. -/
  | drain (d : Nat)
  /-- The host makes the calls of its inbox, one a step, before the next iteration. -/
  | host
  deriving DecidableEq, Repr

/-- A log record of an unaligned access (20_memory.md R87). -/
structure LogRecord where
  addr : Word
  width : Nat
  isStore : Bool
  /-- The address `A` of the instruction. -/
  pc : Word
  word : Word
  deriving DecidableEq, Repr

/-- Memory: address and byte pairs, addresses strictly rising, no byte equal to what an unlisted address reads as. -/
abbrev Memory := List Host.Cell

/-! ## Why a step stops -/

/-- `Fatal(kind, info)` (60_exceptions.md R440), each kind with the info its rule names (R441); `word` and `pc` are the
instruction's encoding and its address `A`. Each ends the session where the spec does, which is safe. -/
inductive Fatal where
  /-- `BUS`: a fetch, load or store the bus answers with failure (20_memory.md R82); `word` is absent for a fetch.
  Raised by the bus accesses of Ops; safe. -/
  | bus (addr : Word) (len : Nat) (word : Option Word) (pc : Word)
  /-- `UNIMP_NO_DECODE`: the word matches no entry (30_encoding.md R137). Raised by the fetch cycle; safe. -/
  | unimpNoDecode (word pc : Word)
  /-- A word-only check made at decode (30_encoding.md R136); the kind is R440's. Raised by every meaning; safe. -/
  | atDecode (kind : DecodeFault) (word pc : Word)
  /-- `UNIMP_REG_SHIFT32`: a register amount of 32 or more (R245). Raised by the DPR meanings; safe. -/
  | unimpRegShift32 (word pc : Word) (amount : Nat)
  /-- `UNIMP_PC_UNALIGNED`: a value written to R15 with bits 1:0 not 0 (R15). Raised by data processing with Rd = 15
  and by LDM; safe. -/
  | unimpPcUnaligned (word pc value : Word)
  /-- `UNIMP_UNALIGNED`: an unaligned LDR or STR with `UNALIGNED_WORD = FAULT` (R88), after its log record (R309).
  Raised by LDR and STR; safe. -/
  | unimpUnaligned (word pc : Word)
  /-- `UNIMP_BT_UNALIGNED`: a block transfer's base is no multiple of 4 (R340). Raised by LDM and STM; safe. -/
  | unimpBtUnaligned (word pc base : Word)
  /-- `UNIMP_SPSR_NONE`: SPSR access in USR or SYS (R392, R393). Raised by MRS and MSR; safe. -/
  | unimpSpsrNone (word pc : Word)
  /-- `UNIMP_MSR_MODE`: MSR would put an invalid mode in CPSR (R393). Raised by MSR; safe. -/
  | unimpMsrMode (word pc value : Word)
  /-- `INT_DECODE_REVALIDATE`: unreachable in a single-pass decode (R442). Raised by nothing; safe. -/
  | intDecodeRevalidate (word pc : Word)
  /-- `INT_SCHEDULE_LINKED` (40_scheduler.md R152). Raised by schedule; safe. -/
  | intScheduleLinked (e d : Nat) (stamp : Stamp)
  /-- `INT_SCHEDULE_PAST` (R152). Raised by schedule; safe. -/
  | intSchedulePast (e : Nat) (when stamp : Stamp)
  /-- `INT_CANCEL_UNLINKED` (R154). Raised by cancel; safe. -/
  | intCancelUnlinked (e d : Nat) (stamp : Stamp)
  /-- `INT_CANCEL_PAST` (R154). Raised by cancel; safe. -/
  | intCancelPast (e : Nat) (when stamp : Stamp)
  /-- `INT_POP_PAST` (R155). Raised by pop_earliest; safe. -/
  | intPopPast (e : Nat) (when stamp : Stamp)
  /-- `INT_STAMP_ROLLBACK` (R158). Raised by advance_stamp; safe. -/
  | intStampRollback (new stamp : Stamp)
  /-- `INT_STAMP_OVERRUN` (R158). Raised by advance_stamp; safe. -/
  | intStampOverrun (new when : Stamp)
  /-- `INT_STAMP_OVERFLOW` of a stamp (R151, R446): the stamp and the ticks that overflow it. Raised by recompute_target, and
  at construction (R56); safe. -/
  | intStampOverflow (stamp : Stamp) (add : Nat)
  /-- `INT_STAMP_OVERFLOW` of the engine's counter (R213, R446): the counter and the cycles that overflow it, with the word
  and `A` of the instruction (R441); a fill step has no word, and its `A` is the fetch address (log 20). Raised by the
  cycle accounting; safe. -/
  | intCounterOverflow (cycles : Stamp) (n : Nat) (word : Option Word) (pc : Word)
  /-- `INT_EVENT_MUTATE_LINKED` (R159). Raised by init_event; safe. -/
  | intEventMutateLinked (e : Nat)
  /-- An instruction's condition passed in a mode that is none of R42's seven, which no run reaches (R33, R492; log
  12). The model's own; raised by every meaning; safe. -/
  | invalidMode (word pc : Word)
  deriving DecidableEq, Repr

/-- What lies outside the engine: the scheduler, what is behind the bus, the host's inputs, the log, the free values taken.
What a step has done there when it raises a fault has happened (20_memory.md R87, 44_block_transfer.md R346). -/
structure World where
  sched : Sched
  mem : Memory
  host : HostEnv
  log : List LogRecord
  draws : Nat
  deriving DecidableEq, Repr

/-- Why a step stops with a fault. -/
inductive Fault where
  /-- `raise Fatal(kind, info)` (R440), with the world as the step has left it when it raises (log 15). Raised by `raise`
  only, which every operation and meaning that a rule lets fault calls (`Fatal` says which), and by a step of a session
  that has faulted (10_state.md R54); safe. -/
  | fatal (why : Fatal) (world : World)
  deriving DecidableEq, Repr

/-- The kind and info of a fault. -/
def Fault.why : Fault → Fatal
  | .fatal why _ => why

/-- The world a fault leaves. -/
def Fault.world : Fault → World
  | .fatal _ world => world

/-- What the model does not run. -/
inductive Refusal where
  /-- An instruction with no meaning yet. Raised by `exec`'s refused arms only; safe. -/
  | notModelled (mnemonic : String)
  /-- `CLOCK_SCALE = 0`, which 93_implementation_defined.md U13 refuses, or an engine attached to no domain. Raised by
  `step`; safe. -/
  | badConfiguration
  /-- A host call or driver iteration names a domain that does not exist (log 17). Raised by the scheduler operations;
  safe. -/
  | noSuchDomain (d : Nat)
  /-- A host call names an event slot that does not exist (log 17). Raised by the scheduler operations; safe. -/
  | noSuchEvent (e : Nat)
  deriving DecidableEq, Repr

/-! ## The whole machine -/

/-- Everything the spec gives the machine, and the host's inputs. -/
structure State where
  cpu : Cpu
  sched : Sched
  mem : Memory
  host : HostEnv
  /-- The records emitted to the host, oldest first (R55). -/
  log : List LogRecord
  /-- The session fault (R54). -/
  fault : Option Fatal
  turn : Turn
  /-- How many free values have been taken (logs 3, 9). -/
  draws : Nat
  config : Config
  deriving DecidableEq, Repr

/-- A computation that may stop the machine. -/
abbrev Result (α : Type) := Host.Outcome α Fault Refusal

/-- Go on with `f` where `o` answers a next value; stop as `o` stops. -/
def andThen {α β : Type} (o : Result α) (f : α → Result β) : Result β :=
  match o with
  | .next a => f a
  | .fault r => .fault r
  | .refused r => .refused r

/-- The world of a state. -/
def State.world (s : State) : World := ⟨s.sched, s.mem, s.host, s.log, s.draws⟩

/-- `raise Fatal(kind, info)` in state `s` (00_scope.md R14). -/
def raise {α : Type} (why : Fatal) (s : State) : Result α := .fault (.fatal why s.world)

/-! ## Power-on (R56) -/

def Banked.zero : Banked := ⟨0, 0, 0, 0, 0, 0⟩

def RegFile.zero : RegFile where
  low := Vector.replicate 8 0
  midUsr := Vector.replicate 5 0
  midFiq := Vector.replicate 5 0
  sp := Banked.zero
  lr := Banked.zero

/-- 0x00000000: every flag and mask clear, M = 00000. -/
def Psr.zero : Psr := ⟨false, false, false, false, false, false, 0⟩

def Spsrs.zero : Spsrs := ⟨Psr.zero, Psr.zero, Psr.zero, Psr.zero, Psr.zero⟩

/-- "all-zero state except the reset exception pending". -/
def Cpu.powerOn : Cpu where
  regs := RegFile.zero
  pc := 0
  cpsr := Psr.zero
  spsr := Spsrs.zero
  queue := .empty
  pending := ⟨true, false, false, false, false, false⟩
  cycles := 0

/-- `0 + LOOKAHEAD`, with `LOOKAHEAD = 16 * CLOCK_SCALE`, is a stamp (40_scheduler.md R151). -/
def lookaheadFits (config : Config) : Bool := decide (16 * config.clockScale ≤ 2 ^ 64 - 1)

/-- A domain at power-on: stamp 0, no event, target `0 + LOOKAHEAD`, or the 0 it has before R151 raises (log 22). -/
def Clock.powerOn (config : Config) : Clock where
  stamp := 0
  target := if lookaheadFits config then BitVec.ofNat 64 (16 * config.clockScale) else 0
  list := []

/-- What R151, applied at construction, raises: INT_STAMP_OVERFLOW for a LOOKAHEAD that is no stamp (60_exceptions.md R446),
else nothing (log 22). -/
def constructionFault (config : Config) : Option Fatal :=
  if lookaheadFits config || config.nDomains == 0 then none else some (.intStampOverflow 0 (16 * config.clockScale))

/-- A slot at power-on: unscheduled; `when` and `handler` are the client's, DESIGN CHOICE 0 (log 10). -/
def EventSlot.powerOn : EventSlot := ⟨0, 0, .unscheduled⟩

def Sched.powerOn (config : Config) : Sched where
  clocks := List.replicate config.nDomains (Clock.powerOn config)
  events := List.replicate config.nEvents EventSlot.powerOn

/-- No input: both lines low, the whole space plain memory, nothing scripted (logs 2 to 7). -/
def HostEnv.quiet : HostEnv where
  lines := ⟨false, false⟩
  lineScript := []
  regions := []
  deviceScript := []
  handlerScript := []
  boot := []
  inbox := []
  order := []

/-- The machine at power-on with the given parameters (R56). -/
def State.powerOn (config : Config) : State where
  cpu := Cpu.powerOn
  sched := Sched.powerOn config
  mem := []
  host := HostEnv.quiet
  log := []
  fault := constructionFault config
  turn := .boot
  draws := 0
  config := config

/-- The machine at power-on with the default parameters (R10, R11, R56). -/
def State.reset : State := State.powerOn Config.default

end Sys2Proof.Machine
end

