-- ==== Sys2Proof/Machine/Memory.lean ====
section
/-!
DEFINITION. Plain memory as a canonical list of bytes (20_memory.md R80, R83 to R85), and what answers an access on the
bus: plain memory, a device, or nothing (R80, R81).
-/

namespace Sys2Proof.Machine

open Sys2Proof

/-- What an address that is not listed reads as: DESIGN CHOICE 0x00 (log 1). -/
def Memory.unlisted : Byte := 0#8

/-- The canonical form: addresses strictly rising and below 2^32, no byte equal to what an unlisted address reads as. -/
abbrev Memory.wf (m : Memory) : Prop :=
  m.Pairwise (fun p q => p.1 < q.1) ∧ ∀ p ∈ m, p.2 ≠ Memory.unlisted ∧ p.1 < 2 ^ 32

/-- The byte at an address. -/
def Memory.read : Memory → Nat → Byte
  | [], _ => Memory.unlisted
  | (a, b) :: m, x => if x = a then b else Memory.read m x

/-- Put a byte in front, unless it is what an unlisted address reads as. -/
def Memory.cons (x : Nat) (v : Byte) (m : Memory) : Memory :=
  if v = Memory.unlisted then m else (x, v) :: m

/-- Write one byte, keeping the canonical form. -/
def Memory.write : Memory → Nat → Byte → Memory
  | [], x, v => Memory.cons x v []
  | (a, b) :: m, x, v =>
    if x < a then Memory.cons x v ((a, b) :: m)
    else if x = a then Memory.cons x v m
    else (a, b) :: Memory.write m x v

/-- The byte at an address of the 32-bit space. -/
def Memory.readByte (m : Memory) (a : Word) : Byte := m.read a.toNat

/-- Write a byte at an address of the 32-bit space. -/
def Memory.writeByte (m : Memory) (a : Word) (v : Byte) : Memory := m.write a.toNat v

/-- The two bytes at `a`, little-endian, addresses modulo 2^32. -/
def Memory.readHalf (m : Memory) (a : Word) : BitVec 16 := m.readByte (a + 1) ++ m.readByte a

/-- The four bytes at `a`, little-endian (R84), addresses modulo 2^32 (log 16). -/
def Memory.readWord (m : Memory) (a : Word) : Word :=
  wordOfBytes (m.readByte a) (m.readByte (a + 1)) (m.readByte (a + 2)) (m.readByte (a + 3))

/-- Write the four bytes of a word at `a`, little-endian (R84), addresses modulo 2^32 (log 16). -/
def Memory.writeWord (m : Memory) (a : Word) (v : Word) : Memory :=
  (((m.writeByte a (byteOfWord v 0)).writeByte (a + 1) (byteOfWord v 1)).writeByte (a + 2)
    (byteOfWord v 2)).writeByte (a + 3) (byteOfWord v 3)

/-- How many bytes an access of this width moves (R81). -/
def Width.bytes : Width → Nat
  | .byte => 1
  | .half => 2
  | .word => 4

/-- The low bytes of a value, as many as the width has, zero-extended. -/
def Width.clip : Width → Word → Word
  | .byte, v => (v.setWidth 8).setWidth 32
  | .half, v => (v.setWidth 16).setWidth 32
  | .word, v => v

/-- A read of plain memory, zero-extended to a word. -/
def Memory.load (m : Memory) (width : Width) (a : Word) : Word :=
  match width with
  | .byte => (m.readByte a).setWidth 32
  | .half => (m.readHalf a).setWidth 32
  | .word => m.readWord a

/-- A write of a value's low bytes to plain memory. -/
def Memory.store (m : Memory) (width : Width) (a : Word) (v : Word) : Memory :=
  match width with
  | .byte => m.writeByte a (byteOfWord v 0)
  | .half => (m.writeByte a (byteOfWord v 0)).writeByte (a + 1) (byteOfWord v 1)
  | .word => m.writeWord a v

/-- The addresses of the bytes an access of `n` bytes at `a` moves, modulo 2^32. -/
def accessAddrs (a : Word) (n : Nat) : List Nat :=
  (List.range n).map (fun k => (a + BitVec.ofNat 32 k).toNat)

/-- The region holds the address. -/
def Region.covers (r : Region) (x : Nat) : Bool := decide (r.base ≤ x) && decide (x < r.base + r.size)

/-- Some byte of the access lies in a region of this kind. -/
def touches (regions : List Region) (kind : RegionKind) (a : Word) (n : Nat) : Bool :=
  regions.any (fun r => r.kind == kind && (accessAddrs a n).any r.covers)

/-- What answers an access. -/
inductive BusKind where
  | plain
  | device
  | fails
  deriving DecidableEq, Repr

/-- What answers an access of `n` bytes at `a` (R80, R81, R92; log 2): nothing, if one of its bytes lies where nothing
answers; else a device, if one lies in a device; else plain memory. -/
def busKind (regions : List Region) (a : Word) (n : Nat) : BusKind :=
  if touches regions .fails a n then .fails
  else if touches regions .device a n then .device
  else .plain

/-- The access goes to plain memory alone (R83). -/
def State.plainAccess (s : State) (width : Width) (a : Word) : Bool :=
  busKind s.host.regions a width.bytes == .plain

end Sys2Proof.Machine
end

