-- ==== Sys2Proof/Machine/Scheduler.lean ====
section
/-!
DEFINITION. The operations of the Clock/Scheduler (40_scheduler.md), each one atomic step that completes or stops, and the
calls a host agent makes of them (60_exceptions.md R453).
-/

namespace Sys2Proof.Machine

open Sys2Proof

/-- `LOOKAHEAD = 16 * CLOCK_SCALE` (R151, 00_scope.md R10). -/
def lookahead (config : Config) : Nat := 16 * config.clockScale

/-- Domain `d`'s Clock. -/
def State.clock (s : State) (d : Nat) : Option Clock := s.sched.clocks[d]?

/-- Event slot `e`. -/
def State.event (s : State) (e : Nat) : Option EventSlot := s.sched.events[e]?

/-- Replace domain `d`'s Clock. -/
def State.setClock (s : State) (d : Nat) (c : Clock) : State :=
  { s with sched.clocks := s.sched.clocks.set d c }

/-- Replace event slot `e`. -/
def State.setEvent (s : State) (e : Nat) (x : EventSlot) : State :=
  { s with sched.events := s.sched.events.set e x }

/-- The `when` of event `e`; 0 for a slot that does not exist, which no list names. -/
def whenOf (events : List EventSlot) (e : Nat) : Stamp :=
  match events[e]? with
  | some x => x.when
  | none => 0

/-- R151: the target of a domain with this stamp and list; none where it overflows. -/
def targetFor (config : Config) (events : List EventSlot) (stamp : Stamp) (list : List Nat) : Option Stamp :=
  match list with
  | h :: _ => some (whenOf events h)
  | [] =>
    if stamp.toNat + lookahead config > 2 ^ 64 - 1 then none
    else some (stamp + BitVec.ofNat 64 (lookahead config))

/-- R151: recompute the cached target of domain `d`. -/
def recomputeTarget (d : Nat) (s : State) : Result State :=
  match s.clock d with
  | none => .refused (.noSuchDomain d)
  | some c =>
    match targetFor s.config s.sched.events c.stamp c.list with
    | none => raise (.intStampOverflow c.stamp (lookahead s.config)) s
    | some t => .next (s.setClock d { c with target := t })

/-- R153 with `TIE_ORDER = FIFO`: after the last event whose `when` is at most `w`, or at the head. -/
def insertFifo (events : List EventSlot) (w : Stamp) (e : Nat) : List Nat → List Nat
  | [] => [e]
  | f :: fs =>
    if (f :: fs).any (fun g => decide (whenOf events g ≤ w)) then f :: insertFifo events w e fs
    else e :: f :: fs

/-- R153 with any order among equals (U1, log 9): after the events earlier than `w` and after at most `k` of those at
`w`. -/
def insertAny (events : List EventSlot) (w : Stamp) (e : Nat) : Nat → List Nat → List Nat
  | _, [] => [e]
  | 0, f :: fs => if whenOf events f < w then f :: insertAny events w e 0 fs else e :: f :: fs
  | k + 1, f :: fs =>
    if whenOf events f < w then f :: insertAny events w e (k + 1) fs
    else if whenOf events f = w then f :: insertAny events w e k fs
    else e :: f :: fs

/-- R153: the list with `e` at its place. -/
def insertSorted (s : State) (events : List EventSlot) (w : Stamp) (e : Nat) (list : List Nat) : List Nat :=
  match s.config.tieOrder with
  | .fifo => insertFifo events w e list
  | .anyOrder => insertAny events w e (Config.tieChoice s.draws) list

/-- A free value is taken by `insertSorted` unless the order is FIFO. -/
def State.afterInsert (s : State) : State :=
  match s.config.tieOrder with
  | .fifo => s
  | .anyOrder => { s with draws := s.draws + 1 }

/-- R152: schedule event `e` in domain `d` at stamp `w`. -/
def schedule (d e : Nat) (w : Stamp) (s : State) : Result State :=
  match s.clock d, s.event e with
  | none, _ => .refused (.noSuchDomain d)
  | some _, none => .refused (.noSuchEvent e)
  | some c, some x =>
    if x.link ≠ .unscheduled then raise (.intScheduleLinked e d c.stamp) s
    else if s.config.integrityChecks ∧ w < c.stamp then raise (.intSchedulePast e w c.stamp) s
    else
      let s1 := s.setEvent e { x with when := w, link := .inDomain d }
      recomputeTarget d
        (s1.afterInsert.setClock d { c with list := insertSorted s s1.sched.events w e c.list })

/-- R154: remove event `e` from domain `d` before it fires. -/
def cancel (d e : Nat) (s : State) : Result State :=
  match s.clock d, s.event e with
  | none, _ => .refused (.noSuchDomain d)
  | some _, none => .refused (.noSuchEvent e)
  | some c, some x =>
    if x.link ≠ .inDomain d then raise (.intCancelUnlinked e d c.stamp) s
    else if s.config.integrityChecks ∧ x.when < c.stamp then raise (.intCancelPast e x.when c.stamp) s
    else
      recomputeTarget d
        ((s.setEvent e { x with link := .unscheduled }).setClock d { c with list := c.list.filter (· ≠ e) })

/-- R155: remove and return the earliest event of domain `d`. -/
def popEarliest (d : Nat) (s : State) : Result (Option Nat × State) :=
  match s.clock d with
  | none => .refused (.noSuchDomain d)
  | some c =>
    match c.list with
    | [] => .next (none, s)
    | h :: rest =>
      match s.event h with
      | none => .refused (.noSuchEvent h)
      | some x =>
        if s.config.integrityChecks ∧ x.when < c.stamp then raise (.intPopPast h x.when c.stamp) s
        else
          andThen
            (recomputeTarget d ((s.setEvent h { x with link := .unscheduled }).setClock d { c with list := rest }))
            fun s1 => .next (some h, s1)

/-- R156: the earliest event of domain `d`, not removed. -/
def peekEarliest (d : Nat) (s : State) : Option Nat :=
  match s.clock d with
  | none => none
  | some c => c.list.head?

/-- R157: the cached target of domain `d`. -/
def targetStamp (d : Nat) (s : State) : Option Stamp := (s.clock d).map (fun c => c.target)

/-- R158: move domain `d`'s stamp forward to `w`. The driver alone calls it (41_pipeline.md R218). -/
def advanceStamp (d : Nat) (w : Stamp) (s : State) : Result State :=
  match s.clock d with
  | none => .refused (.noSuchDomain d)
  | some c =>
    if w < c.stamp then raise (.intStampRollback w c.stamp) s
    else
      match c.list with
      | [] => recomputeTarget d (s.setClock d { c with stamp := w })
      | h :: _ =>
        if s.config.integrityChecks ∧ whenOf s.sched.events h < w then
          raise (.intStampOverrun w (whenOf s.sched.events h)) s
        else recomputeTarget d (s.setClock d { c with stamp := w })

/-- R159: set the handler of event `e`. -/
def initEvent (e handler : Nat) (s : State) : Result State :=
  match s.event e with
  | none => .refused (.noSuchEvent e)
  | some x =>
    if x.link ≠ .unscheduled then raise (.intEventMutateLinked e) s
    else .next (s.setEvent e { x with handler := handler })

/-! ## Host calls -/

/-- One call of a host agent (R161, 60_exceptions.md R453). A query changes no state; a bus read by the host leaves no
trace in the model, and a bus write changes plain memory only (log 19). -/
def hostCall (call : HostCall) (s : State) : Result State :=
  match call with
  | .schedule d e w => schedule d e w s
  | .cancel d e => cancel d e s
  | .popEarliest d => andThen (popEarliest d s) fun p => .next p.2
  | .peekEarliest d => if (s.clock d).isSome then .next s else .refused (.noSuchDomain d)
  | .targetStamp d => if (s.clock d).isSome then .next s else .refused (.noSuchDomain d)
  | .initEvent e h => initEvent e h s
  | .setIrqLine level => .next { s with host.lines.irq := level }
  | .setFiqLine level => .next { s with host.lines.fiq := level }
  | .busRead _ _ => .next s
  | .busWrite a width v => .next (if s.plainAccess width a then { s with mem := s.mem.store width a v } else s)

/-- The calls of one host agent, in order. -/
def hostCalls : List HostCall → State → Result State
  | [], s => .next s
  | c :: cs, s => andThen (hostCall c s) (hostCalls cs)

end Sys2Proof.Machine
end

