-- ==== Sys2Proof/Machine/Ops.lean ====
section
/-!
DEFINITION. The named operations over registers, status registers, bus, queue and program counter; taking an exception, as
one shared operation (60_exceptions.md R434); and `retire`, what every instruction shares (41_pipeline.md R201).
There is no return from an exception beside it: R438 gives a software sequence of MRS, MSR and a PC write, no operation.
-/

namespace Sys2Proof.Machine

open Sys2Proof

/-! ## Modes and status registers -/

/-- The mode numbers (10_state.md R42). -/
def Mode.bits : Mode → BitVec 5
  | .usr => 0b10000#5
  | .fiq => 0b10001#5
  | .irq => 0b10010#5
  | .svc => 0b10011#5
  | .abt => 0b10111#5
  | .und => 0b11011#5
  | .sys => 0b11111#5

/-- The mode a mode field names, none for an invalid value (R42). -/
def Mode.ofBits (b : BitVec 5) : Option Mode :=
  match b.toNat with
  | 16 => some .usr
  | 17 => some .fiq
  | 18 => some .irq
  | 19 => some .svc
  | 23 => some .abt
  | 27 => some .und
  | 31 => some .sys
  | _ => none

/-- The current mode. -/
def State.mode (s : State) : Option Mode := Mode.ofBits s.cpu.cpsr.m

/-- A status register as the 32-bit word MRS reads: reserved bits 0 (R40, R44). -/
def Psr.toWord (p : Psr) : Word :=
  BitVec.ofBool p.n ++ BitVec.ofBool p.z ++ BitVec.ofBool p.c ++ BitVec.ofBool p.v ++ 0#20 ++ BitVec.ofBool p.i ++
    BitVec.ofBool p.f ++ 0#1 ++ p.m

/-- The flags field of a word written into a status register (46_branch_system.md R393). -/
def Psr.withFlagsOf (p : Psr) (v : Word) : Psr :=
  { p with n := v.getLsbD 31, z := v.getLsbD 30, c := v.getLsbD 29, v := v.getLsbD 28 }

/-- The control field of a word written into a status register: bits 7, 6 and 4:0 (R393). -/
def Psr.withControlOf (p : Psr) (v : Word) : Psr :=
  { p with i := v.getLsbD 7, f := v.getLsbD 6, m := v.extractLsb' 0 5 }

/-- The SPSR of a mode; USR and SYS have none (R45). -/
def Spsrs.get (x : Spsrs) : Mode → Option Psr
  | .usr => none
  | .fiq => some x.fiq
  | .irq => some x.irq
  | .svc => some x.svc
  | .abt => some x.abt
  | .und => some x.und
  | .sys => none

/-- Write the SPSR of a mode; USR and SYS have none (R45). -/
def Spsrs.set (x : Spsrs) (m : Mode) (p : Psr) : Spsrs :=
  match m with
  | .usr => x
  | .fiq => { x with fiq := p }
  | .irq => { x with irq := p }
  | .svc => { x with svc := p }
  | .abt => { x with abt := p }
  | .und => { x with und := p }
  | .sys => x

/-- Replace the CPSR. -/
def State.setCpsr (s : State) (p : Psr) : State := { s with cpu.cpsr := p }

/-- Replace the SPSR of a mode. -/
def State.setSpsr (s : State) (m : Mode) (p : Psr) : State := { s with cpu.spsr := s.cpu.spsr.set m p }

/-! ## General registers -/

/-- The bank of R13 and R14 in a mode (R33). -/
def Mode.bank : Mode → Bank
  | .usr => .usr
  | .fiq => .fiq
  | .irq => .irq
  | .svc => .svc
  | .abt => .abt
  | .und => .und
  | .sys => .usr

def Banked.get (x : Banked) : Bank → Word
  | .usr => x.usr
  | .fiq => x.fiq
  | .irq => x.irq
  | .svc => x.svc
  | .abt => x.abt
  | .und => x.und

def Banked.set (x : Banked) (b : Bank) (v : Word) : Banked :=
  match b with
  | .usr => { x with usr := v }
  | .fiq => { x with fiq := v }
  | .irq => { x with irq := v }
  | .svc => { x with svc := v }
  | .abt => { x with abt := v }
  | .und => { x with und := v }

/-- The content of a physical register. -/
def RegFile.get (x : RegFile) : PhysReg → Word
  | .low i => x.low[i]
  | .midUsr i => x.midUsr[i]
  | .midFiq i => x.midFiq[i]
  | .sp b => x.sp.get b
  | .lr b => x.lr.get b

/-- Write a physical register. -/
def RegFile.set (x : RegFile) (p : PhysReg) (v : Word) : RegFile :=
  match p with
  | .low i => { x with low := x.low.set i v }
  | .midUsr i => { x with midUsr := x.midUsr.set i v }
  | .midFiq i => { x with midFiq := x.midFiq.set i v }
  | .sp b => { x with sp := x.sp.set b v }
  | .lr b => { x with lr := x.lr.set b v }

/-- Bank selection (R33): the physical register of `x[r]` in mode `m`, none for R15. -/
def phys (m : Mode) (r : RegNum) : Option PhysReg :=
  if h8 : r.toNat < 8 then some (.low ⟨r.toNat, h8⟩)
  else if h13 : r.toNat < 13 then
    if m = .fiq then some (.midFiq ⟨r.toNat - 8, by omega⟩) else some (.midUsr ⟨r.toNat - 8, by omega⟩)
  else if r.toNat = 13 then some (.sp m.bank)
  else if r.toNat = 14 then some (.lr m.bank)
  else none

/-- `x[r]` in mode `m` (00_scope.md R14); R15 reads `pc`, which is `A + 8` (R36). -/
def readReg (m : Mode) (r : RegNum) (s : State) : Word :=
  match phys m r with
  | some p => s.cpu.regs.get p
  | none => s.cpu.pc

/-- `x[r] <- v` in mode `m` for R0..R14; R15 is written by `pcWrite` only (00_scope.md R15). -/
def writeReg (m : Mode) (r : RegNum) (v : Word) (s : State) : State :=
  match phys m r with
  | some p => { s with cpu.regs := s.cpu.regs.set p v }
  | none => s

/-! ## Program counter and queue -/

/-- The address `A` of the executing instruction: `pc = A + 8` (00_scope.md R17, 41_pipeline.md R207; log 13). -/
def State.instrAddr (s : State) : Word := s.cpu.pc - 8

/-- A multiple of 4: bits 1:0 are 0. -/
def isAligned (a : Word) : Bool := a.toNat % 4 == 0

/-- The sequential advance (41_pipeline.md R212). -/
def advance (s : State) : State := { s with cpu.pc := s.cpu.pc + 4 }

/-- `flush()` (41_pipeline.md R204). -/
def flush (s : State) : State := { s with cpu.queue := .empty }

/-- A PC write (00_scope.md R15). -/
def pcWrite (i : Instr) (v : Word) (s : State) : Result State :=
  if isAligned v then .next (flush { s with cpu.pc := v })
  else raise (.unimpPcUnaligned (encode i) s.instrAddr v) s

/-- `qlen` (10_state.md R47). -/
def Queue.len : Queue → Nat
  | .empty => 0
  | .one _ => 1
  | .two _ _ => 2

/-! ## Bus -/

/-- Emit a log record (20_memory.md R87). -/
def State.emit (s : State) (r : LogRecord) : State := { s with log := s.log ++ [r] }

/-- `MemRead` (20_memory.md R82): the value, zero-extended to a word. A device's answer is the host's, or a free value
(R83, R453; log 3); what the device does besides happens whether it answers success or failure. -/
def busRead (width : Width) (a : Word) (word : Option Word) (pc : Word) (s : State) : Result (Word × State) :=
  match busKind s.host.regions a width.bytes with
  | .fails => raise (.bus a width.bytes word pc) s
  | .plain => .next (s.mem.load width a, s)
  | .device =>
    match s.host.deviceScript with
    | [] => .next (width.clip (Config.deviceValue s.draws), { s with draws := s.draws + 1 })
    | r :: rs =>
      andThen (hostCalls r.calls { s with host.deviceScript := rs }) fun s1 =>
        if r.ok then .next (width.clip r.value, s1) else raise (.bus a width.bytes word pc) s1

/-- `MemWrite` (20_memory.md R82): the low bytes of `v`. A device stores nothing in plain memory. -/
def busWrite (width : Width) (a : Word) (v : Word) (word : Option Word) (pc : Word) (s : State) : Result State :=
  match busKind s.host.regions a width.bytes with
  | .fails => raise (.bus a width.bytes word pc) s
  | .plain => .next { s with mem := s.mem.store width a v }
  | .device =>
    match s.host.deviceScript with
    | [] => .next s
    | r :: rs =>
      andThen (hostCalls r.calls { s with host.deviceScript := rs }) fun s1 =>
        if r.ok then .next s1 else raise (.bus a width.bytes word pc) s1

/-- A load made by instruction `i`. -/
def load (i : Instr) (width : Width) (a : Word) (s : State) : Result (Word × State) :=
  busRead width a (some (encode i)) s.instrAddr s

/-- A store made by instruction `i`. -/
def store (i : Instr) (width : Width) (a : Word) (v : Word) (s : State) : Result State :=
  busWrite width a v (some (encode i)) s.instrAddr s

/-- The log record of an unaligned LDR or STR (20_memory.md R87). -/
def unalignedRecord (i : Instr) (isStore : Bool) (a : Word) (s : State) : LogRecord :=
  ⟨a, 4, isStore, s.instrAddr, encode i⟩

/-- The address with bits 1:0 cleared. -/
def alignDown (a : Word) : Word := a &&& 0xFFFFFFFC#32

/-- `load_word` of LDR (43_load_store.md R304): an unaligned address is logged, then loaded by `UNALIGNED_WORD`
(20_memory.md R87, R88). -/
def loadWord (i : Instr) (a : Word) (s : State) : Result (Word × State) :=
  if isAligned a then load i .word a s
  else
    match s.config.unalignedWord with
    | .busBytes => load i .word a (s.emit (unalignedRecord i false a s))
    | .rotate =>
      andThen (load i .word (alignDown a) (s.emit (unalignedRecord i false a s))) fun p =>
        .next (p.1.rotateRight (8 * (a.toNat % 4)), p.2)
    | .fault => raise (.unimpUnaligned (encode i) s.instrAddr) (s.emit (unalignedRecord i false a s))

/-- `store_word` of STR (43_load_store.md R305, 20_memory.md R87, R88). -/
def storeWord (i : Instr) (a : Word) (v : Word) (s : State) : Result State :=
  if isAligned a then store i .word a v s
  else
    match s.config.unalignedWord with
    | .busBytes => store i .word a v (s.emit (unalignedRecord i true a s))
    | .rotate => store i .word (alignDown a) v (s.emit (unalignedRecord i true a s))
    | .fault => raise (.unimpUnaligned (encode i) s.instrAddr) (s.emit (unalignedRecord i true a s))

/-! ## Cycle accounting -/

/-- `account(n)` (41_pipeline.md R213, 60_exceptions.md R446) in the fetch cycle of the instruction `word` at `pc` (R441), or of a
fill step, which has no word (log 20). -/
def account (n : Nat) (word : Option Word) (pc : Word) (s : State) : Result State :=
  if s.cpu.cycles.toNat + n * s.config.cpuClockScale > 2 ^ 64 - 1 then
    raise (.intCounterOverflow s.cpu.cycles n word pc) s
  else .next { s with cpu.cycles := s.cpu.cycles + BitVec.ofNat 64 (n * s.config.cpuClockScale) }

/-- `BASE_COST` of an instruction's decode-table entry (30_encoding.md R133). -/
def baseCost (config : Config) (i : Instr) : Nat := config.baseCost[i.entry.index]

/-- `account(d.cost)` for instruction `i` executing in state `s`: its `BASE_COST`, its word and its address `A` (R201, R213). -/
def accountInstr (i : Instr) (s : State) : State → Result State :=
  account (baseCost s.config i) (some (encode i)) s.instrAddr

/-! ## Exceptions -/

/-- The exception classes in priority order (60_exceptions.md R430). -/
inductive ExcClass where
  | reset | dabt | fiq | irq | pabt | swi
  deriving DecidableEq, Repr

/-- R430, vector. -/
def ExcClass.vector : ExcClass → Word
  | .reset => 0x00000000#32
  | .dabt => 0x00000010#32
  | .fiq => 0x0000001C#32
  | .irq => 0x00000018#32
  | .pabt => 0x0000000C#32
  | .swi => 0x00000008#32

/-- R430, mode entered. -/
def ExcClass.mode : ExcClass → Mode
  | .reset => .svc
  | .dabt => .abt
  | .fiq => .fiq
  | .irq => .irq
  | .pabt => .abt
  | .swi => .svc

/-- R430, whether F is set. -/
def ExcClass.setsF : ExcClass → Bool
  | .reset => true
  | .dabt => false
  | .fiq => true
  | .irq => false
  | .pabt => false
  | .swi => false

/-- R430, the offset K of the return address. -/
def ExcClass.offset : ExcClass → Word
  | .reset => 0#32
  | .dabt => 4#32
  | .fiq => 4#32
  | .irq => 4#32
  | .pabt => 4#32
  | .swi => 0#32

/-- `set_pending(c)` and `clear_pending(c)` (10_state.md R46). -/
def Pending.set (p : Pending) (c : ExcClass) (b : Bool) : Pending :=
  match c with
  | .reset => { p with reset := b }
  | .dabt => { p with dabt := b }
  | .fiq => { p with fiq := b }
  | .irq => { p with irq := b }
  | .pabt => { p with pabt := b }
  | .swi => { p with swi := b }

/-- The bit of a class. -/
def Pending.get (p : Pending) : ExcClass → Bool
  | .reset => p.reset
  | .dabt => p.dabt
  | .fiq => p.fiq
  | .irq => p.irq
  | .pabt => p.pabt
  | .swi => p.swi

/-- Set or clear a class's bit of the machine's mask. -/
def State.setPending (s : State) (c : ExcClass) (b : Bool) : State :=
  { s with cpu.pending := s.cpu.pending.set c b }

/-- `poll_interrupt_lines()` (41_pipeline.md R202), after the host has set the levels for this poll (R453, log 4). -/
def pollLines (s : State) : State :=
  match s.host.lineScript with
  | [] => { s with cpu.pending := { s.cpu.pending with irq := s.host.lines.irq, fiq := s.host.lines.fiq } }
  | l :: ls =>
    { s with
      host := { s.host with lines := l, lineScript := ls }
      cpu.pending := { s.cpu.pending with irq := l.irq, fiq := l.fiq } }

/-- `select_exception()` (60_exceptions.md R432). -/
def selectException (s : State) : Option ExcClass :=
  if s.cpu.pending.reset then some .reset
  else if s.cpu.pending.dabt then some .dabt
  else if s.cpu.pending.fiq && !s.cpu.cpsr.f then some .fiq
  else if s.cpu.pending.irq && !s.cpu.cpsr.i then some .irq
  else if s.cpu.pending.pabt then some .pabt
  else if s.cpu.pending.swi then some .swi
  else none

/-- The return address of a class taken now (R435): `(pc - 4*qlen) + K(c)`. -/
def returnAddr (c : ExcClass) (s : State) : Word :=
  s.cpu.pc - BitVec.ofNat 32 (4 * s.cpu.queue.len) + c.offset

/-- CPSR after entry (R434): the mode entered, I set, F set by RESET and FIQ, the flags kept. -/
def entryCpsr (c : ExcClass) (p : Psr) : Psr := { p with i := true, f := p.f || c.setsF, m := c.mode.bits }

/-- `service(c)`: take exception class `c` (R434). -/
def service (c : ExcClass) (s : State) : State :=
  { s with
    cpu := { s.cpu with
      regs := s.cpu.regs.set (.lr c.mode.bank) (returnAddr c s)
      pc := c.vector
      cpsr := entryCpsr c s.cpu.cpsr
      spsr := s.cpu.spsr.set c.mode s.cpu.cpsr
      queue := .empty
      pending := s.cpu.pending.set c false } }

/-! ## Condition predicates -/

/-- The predicates of 41_pipeline.md R209. -/
def condHolds (p : Psr) : Cond → Bool
  | .eq => p.z
  | .ne => !p.z
  | .cs => p.c
  | .cc => !p.c
  | .mi => p.n
  | .pl => !p.n
  | .vs => p.v
  | .vc => !p.v
  | .hi => !p.z && p.c
  | .ls => !(!p.z && p.c)
  | .ge => p.n == p.v
  | .lt => !(p.n == p.v)
  | .gt => !p.z && p.n == p.v
  | .le => !(!p.z && p.n == p.v)
  | .al => true
  | .nv => false

/-! ## What every instruction shares -/

/-- The rest of a fetch cycle from decode on, for instruction `i` whose effect in mode `m` is `body m` (41_pipeline.md
R201): the word-only checks, whatever the condition (30_encoding.md R135, R136); then, if the condition passes, the
effect, which leaves R15 advanced or written, else the advance alone (R210, R212); then the accounting (R213). -/
def retire (i : Instr) (s : State) (body : Mode → Result State) : Result State :=
  match i.checkWord with
  | some k => raise (.atDecode k (encode i) s.instrAddr) s
  | none =>
    if condHolds s.cpu.cpsr i.cond then
      match s.mode with
      | some m => andThen (body m) (accountInstr i s)
      | none => raise (.invalidMode (encode i) s.instrAddr) s
    else accountInstr i s (advance s)

end Sys2Proof.Machine
end

