-- ==== Sys2Proof/Machine/Flags.lean ====
section
/-!
DEFINITION. Every flag computation (42_data_processing.md R247, R248, 45_multiply.md R374) and the functions of the twelve
data-processing operations on their operands (R251 to R262).
-/

namespace Sys2Proof.Machine

open Sys2Proof

/-- A result with the C and V a flag-setting form writes beside it; N and Z are the result's own. -/
structure AluOut where
  res : Word
  c : Bool
  v : Bool
  deriving DecidableEq, Repr

/-- `add_flags` (R248). -/
def addFlags (x y : Word) : AluOut where
  res := x + y
  c := decide (x.toNat + y.toNat ≥ 2 ^ 32)
  v := x.msb == y.msb && (x + y).msb != x.msb

/-- `sub_flags` (R248): `x - y`, C is NOT borrow. -/
def subFlags (x y : Word) : AluOut where
  res := x - y
  c := decide (x.toNat ≥ y.toNat)
  v := x.msb != y.msb && (x - y).msb != x.msb

/-- The flags a flag-setting form writes (R247, R248, R374). -/
def Psr.withResult (p : Psr) (o : AluOut) : Psr :=
  { p with n := o.res.msb, z := o.res == 0#32, c := o.c, v := o.v }

/-- Write the flags when `S = 1`. -/
def setFlags (s : Bool) (o : AluOut) (st : State) : State :=
  if s then st.setCpsr (st.cpu.cpsr.withResult o) else st

/-- A data-processing operation: from the left operand `a`, the right operand `b` and the shifter carry `sc`, in a
state that gives the flags it keeps and `CMP_ORDER`. -/
abbrev AluOp := State → Word → Word → Bool → AluOut

/-- Logic class (R247): C is the shifter carry, V is kept. -/
def logicOp (g : Word → Word → Word) : AluOp := fun s a b sc => ⟨g a b, sc, s.cpu.cpsr.v⟩

/-- R251. -/
def aluAnd : AluOp := logicOp (fun a b => a &&& b)

/-- R252. -/
def aluEor : AluOp := logicOp (fun a b => a ^^^ b)

/-- R253: the right operand minus Rn. -/
def aluSub : AluOp := fun _ a b _ => subFlags b a

/-- R254: Rn minus the right operand. -/
def aluRsb : AluOp := fun _ a b _ => subFlags a b

/-- R255. -/
def aluAdd : AluOp := fun _ a b _ => addFlags a b

/-- R256. -/
def aluOrr : AluOp := logicOp (fun a b => a ||| b)

/-- R257. -/
def aluMov : AluOp := logicOp (fun _ b => b)

/-- R258. -/
def aluBic : AluOp := logicOp (fun a b => a &&& ~~~b)

/-- R259. -/
def aluMvn : AluOp := logicOp (fun _ b => ~~~b)

/-- R260. -/
def aluTst : AluOp := logicOp (fun a b => a &&& b)

/-- R261: `CMP_ORDER` says which operand is subtracted. -/
def aluCmp : AluOp := fun s a b _ =>
  match s.config.cmpOrder with
  | .rnMinusOp2 => subFlags a b
  | .op2MinusRn => subFlags b a

/-- R262. -/
def aluCmn : AluOp := fun _ a b _ => addFlags a b

/-- R374: N and Z of the product, C cleared, V kept. -/
def mulFlags (p : Psr) (res : Word) : AluOut := ⟨res, false, p.v⟩

end Sys2Proof.Machine
end

