-- ==== Sys2Proof/Machine/Operands.lean ====
section
/-!
DEFINITION. Every operand form: the rotated immediate (30_encoding.md R126), the barrel shifter (42_data_processing.md R242
to R246), the load/store offsets (43_load_store.md R301, R302) and the block-transfer walk (44_block_transfer.md R341).
-/

namespace Sys2Proof.Machine

open Sys2Proof

/-- A right operand and the shifter carry (R242). -/
structure ShiftOut where
  b : Word
  sc : Bool
  deriving DecidableEq, Repr

/-- R126: `ROR(zext_32(imm8), 2 * uint(rotate))`. -/
def rotatedImm (rotate : BitVec 4) (imm8 : BitVec 8) : Word := (imm8.setWidth 32).rotateRight (2 * rotate.toNat)

/-- DPI's right operand, its carry by R246; `c` is `cpsr.C`. -/
def immOperand (f : Dpi) (c : Bool) : ShiftOut :=
  ⟨rotatedImm f.rotate f.imm8, if f.rotate = 0#4 then c else (rotatedImm f.rotate f.imm8).msb⟩

/-- R243: a shift by `k`, 1 to 31. -/
def shiftBy (kind : ShiftKind) (v : Word) (k : Nat) : ShiftOut :=
  match kind with
  | .lsl => ⟨v <<< k, v.getLsbD (32 - k)⟩
  | .lsr => ⟨v >>> k, v.getLsbD (k - 1)⟩
  | .asr => ⟨v.sshiftRight k, v.getLsbD (k - 1)⟩
  | .ror => ⟨v.rotateRight k, v.getLsbD (k - 1)⟩

/-- An immediate amount (R243): 0 is LSL #0, the plain operand, since the other kinds fault at decode (R244). -/
def immShift (kind : ShiftKind) (v : Word) (amount : BitVec 5) (c : Bool) : ShiftOut :=
  if amount = 0#5 then ⟨v, c⟩ else shiftBy kind v amount.toNat

/-- R245, `REG_SHIFT_GE32 = ARM_SEMANTICS`: a register amount of 32 or more. -/
def armShift (kind : ShiftKind) (v : Word) (k : Nat) : ShiftOut :=
  match kind with
  | .lsl => ⟨0#32, k == 32 && v.getLsbD 0⟩
  | .lsr => ⟨0#32, k == 32 && v.msb⟩
  | .asr => ⟨if v.msb then BitVec.allOnes 32 else 0#32, v.msb⟩
  | .ror => if k % 32 = 0 then ⟨v, v.msb⟩ else shiftBy .ror v (k % 32)

/-- R245: a register amount `k`; none where it is fatal. -/
def regShift (config : Config) (kind : ShiftKind) (v : Word) (k : Nat) (c : Bool) : Option ShiftOut :=
  if k = 0 then some ⟨v, c⟩
  else if k < 32 then some (shiftBy kind v k)
  else
    match config.regShiftGe32 with
    | .fault => none
    | .armSemantics => some (armShift kind v k)

/-- R128: the low byte of Rs. -/
def regAmount (m : Mode) (rs : RegNum) (s : State) : Nat := ((readReg m rs s).extractLsb' 0 8).toNat

/-- A register read where the shift amount comes from a register: R15 reads `A + 12` (R241, R242). -/
def readRegLate (m : Mode) (r : RegNum) (s : State) : Word :=
  if r = 15#4 then s.cpu.pc + 4 else readReg m r s

/-- R301. -/
def lsImmOffset (f : LsImmFields) : Word := f.offset12.setWidth 32

/-- R302: the shifter carry is discarded. -/
def lsRegOffset (f : LsRegFields) (m : Mode) (s : State) : Word :=
  (immShift f.shift (readReg m f.rm s) f.shiftImm s.cpu.cpsr.c).b

/-- R300: base plus or minus the offset. -/
def offsetAddr (u : Bool) (base off : Word) : Word := if u then base + off else base - off

/-- R300: the address accessed. -/
def accessAddr (p u : Bool) (base off : Word) : Word := if p then offsetAddr u base off else base

/-! ## Block transfer -/

/-- R0..R15 in rising order. -/
def allRegs : List RegNum :=
  [0#4, 1#4, 2#4, 3#4, 4#4, 5#4, 6#4, 7#4, 8#4, 9#4, 10#4, 11#4, 12#4, 13#4, 14#4, 15#4]

/-- The listed registers in the order of the walk (R341): rising when upward, falling when downward. -/
def walkRegs (f : BtFields) : List RegNum :=
  (if f.u then allRegs else allRegs.reverse).filter (fun r => f.listed r)

/-- One step of the walk's address, upward or downward (R341). -/
def walkStep (u : Bool) (a : Word) : Word := if u then a + 4 else a - 4

/-- R341: the slots of the registers `rs` walked from `a`. -/
def walkSlots (p u : Bool) : List RegNum → Word → List (RegNum × Word)
  | [], _ => []
  | r :: rs, a => (r, if p then walkStep u a else a) :: walkSlots p u rs (walkStep u a)

/-- R341: the address after the walk. -/
def walkFinal (u : Bool) : List RegNum → Word → Word
  | [], a => a
  | _ :: rs, a => walkFinal u rs (walkStep u a)

/-- R341: the slots of a block transfer from `base`. -/
def btSlots (f : BtFields) (base : Word) : List (RegNum × Word) := walkSlots f.p f.u (walkRegs f) base

/-- R341: the written-back address. -/
def btFinal (f : BtFields) (base : Word) : Word := walkFinal f.u (walkRegs f) base

end Sys2Proof.Machine
end

