-- ==== Sys2Proof/Machine/BlockTransfer.lean ====
section
/-!
DEFINITION. Block transfer (44_block_transfer.md): LDM and STM.
-/

namespace Sys2Proof.Machine

open Sys2Proof

/-- R343: `t[i] <- MemRead(addr, 4)` for each slot, in order. -/
def loadSlots (i : Instr) : List (RegNum × Word) → State → Result (List (RegNum × Word) × State)
  | [], s => .next ([], s)
  | (r, a) :: rest, s =>
    andThen (load i .word a s) fun p =>
      andThen (loadSlots i rest p.2) fun q => .next ((r, p.1) :: q.1, q.2)

/-- R343: `x[i] <- t[i]` for every loaded register but R15. -/
def writeRegs (m : Mode) : List (RegNum × Word) → State → State
  | [], s => s
  | (r, v) :: rest, s => writeRegs m rest (writeReg m r v s)

/-- The value loaded for R15, if it is listed. -/
def loadedPc : List (RegNum × Word) → Option Word
  | [] => none
  | (r, v) :: rest => if r = 15#4 then some v else loadedPc rest

/-- R344: `val(i)`; R15 stores `A + 12` (R345). -/
def storedValue (m : Mode) (r : RegNum) (s : State) : Word :=
  if r = 15#4 then s.cpu.pc + 4 else readReg m r s

/-- R344: each slot with the value stored there, all read before the first write. -/
def storedSlots (m : Mode) (slots : List (RegNum × Word)) (s : State) : List (Word × Word) :=
  slots.map (fun p => (p.2, storedValue m p.1 s))

/-- R344: `MemWrite(addr, 4, val(i))` for each slot, in order. -/
def storeSlots (i : Instr) : List (Word × Word) → State → Result State
  | [], s => .next s
  | (a, v) :: rest, s => andThen (store i .word a v s) (storeSlots i rest)

/-- The writeback of R340. -/
def btWriteback (f : BtFields) (base : Word) (m : Mode) (s : State) : State :=
  if f.w then writeReg m f.rn (btFinal f base) s else s

/-- The end of LDM (R343): the registers, the writeback, then R15 as a PC write or the advance. The PC write's check
comes before every write, since a fault leaves the engine as it was. -/
def ldmFinish (i : Instr) (f : BtFields) (base : Word) (m : Mode) (loaded : List (RegNum × Word)) (s : State) :
    Result State :=
  match loadedPc loaded with
  | some v => pcWrite i v (btWriteback f base m (writeRegs m loaded s))
  | none => .next (advance (btWriteback f base m (writeRegs m loaded s)))

/-- STM (R340, R344). -/
def execStm (f : BtFields) (s : State) : Result State :=
  retire (.stm f) s fun m =>
    let base := readReg m f.rn s
    if !isAligned base then raise (.unimpBtUnaligned (encode (.stm f)) s.instrAddr base) s
    else
      andThen (storeSlots (.stm f) (storedSlots m (btSlots f base) s) s) fun s1 =>
        .next (advance (btWriteback f base m s1))

/-- LDM (R340, R343). -/
def execLdm (f : BtFields) (s : State) : Result State :=
  retire (.ldm f) s fun m =>
    let base := readReg m f.rn s
    if !isAligned base then raise (.unimpBtUnaligned (encode (.ldm f)) s.instrAddr base) s
    else
      andThen (loadSlots (.ldm f) (btSlots f base) s) fun p => ldmFinish (.ldm f) f base m p.1 p.2

end Sys2Proof.Machine
end

