-- ==== Sys2Proof/Machine/BranchSystem.lean ====
section
/-!
DEFINITION. Branch, status-register moves and software interrupt (46_branch_system.md).
-/

namespace Sys2Proof.Machine

open Sys2Proof

/-- The byte displacement of a branch (30_encoding.md R130). -/
def branchDelta (offset24 : BitVec 24) : Word := offset24.signExtend 32 * 4

/-- B (R390). -/
def execB (f : BrFields) (s : State) : Result State :=
  retire (.b f) s fun _ => pcWrite (.b f) (s.cpu.pc + branchDelta f.offset24) s

/-- BL (R391): R14 receives `P - 4 = A + 4`. -/
def execBl (f : BrFields) (s : State) : Result State :=
  retire (.bl f) s fun m =>
    pcWrite (.bl f) (s.cpu.pc + branchDelta f.offset24) (writeReg m 14#4 (s.cpu.pc - 4) s)

/-- MRS (R392). -/
def execMrs (f : MrsFields) (s : State) : Result State :=
  retire (.mrs f) s fun m =>
    if f.spsr then
      match s.cpu.spsr.get m with
      | some p => .next (advance (writeReg m f.rd p.toWord s))
      | none => raise (.unimpSpsrNone (encode (.mrs f)) s.instrAddr) s
    else .next (advance (writeReg m f.rd s.cpu.cpsr.toWord s))

/-- The field-mask bit `c` (30_encoding.md R132). -/
def maskC (mask : BitVec 4) : Bool := mask.getLsbD 0

/-- The field-mask bit `f` (30_encoding.md R132). -/
def maskF (mask : BitVec 4) : Bool := mask.getLsbD 3

/-- A status register after an MSR of value `v` that writes the flags field if `flags` and the control field if
`control` (R393). -/
def msrMerge (p : Psr) (flags control : Bool) (v : Word) : Psr :=
  let q := if flags then p.withFlagsOf v else p
  if control then q.withControlOf v else q

/-- MSR, the common part (R393): in USR the control field of CPSR is not written. -/
def msrWrite (i : Instr) (spsr : Bool) (mask : BitVec 4) (v : Word) (m : Mode) (s : State) : Result State :=
  if spsr then
    match s.cpu.spsr.get m with
    | some p => .next (advance (s.setSpsr m (msrMerge p (maskF mask) (maskC mask) v)))
    | none => raise (.unimpSpsrNone (encode i) s.instrAddr) s
  else
    let new := msrMerge s.cpu.cpsr (maskF mask) (maskC mask && m != .usr) v
    if (Mode.ofBits new.m).isSome then .next (advance (s.setCpsr new))
    else raise (.unimpMsrMode (encode i) s.instrAddr v) s

/-- MSR, register form (R394). -/
def execMsrReg (f : MsrRegFields) (s : State) : Result State :=
  retire (.msrReg f) s fun m => msrWrite (.msrReg f) f.spsr f.mask (readReg m f.rm s) m s

/-- MSR, immediate form (R395). -/
def execMsrImm (f : MsrImmFields) (s : State) : Result State :=
  retire (.msrImm f) s fun m => msrWrite (.msrImm f) f.spsr f.mask (rotatedImm f.rotate f.imm8) m s

/-- SWI (R396): the class becomes pending; it is serviced at the start of the next fetch cycle (60_exceptions.md R434). -/
def execSwi (f : SwiFields) (s : State) : Result State :=
  retire (.swi f) s fun _ => .next (advance (s.setPending .swi true))

end Sys2Proof.Machine
end

