-- ==== Sys2Proof/Machine/DataProcessing.lean ====
section
/-!
DEFINITION. The data-processing family (42_data_processing.md): the common handler R240 for each of the three formats, and
the 48 meanings, one line each over it.
-/

namespace Sys2Proof.Machine

open Sys2Proof

/-- The end of the common handler (R240): Rd, the flags, the advance; Rd = 15 is a PC write (R250), and has S = 0
(R249). -/
def dpFinish (i : Instr) (writes s : Bool) (rd : RegNum) (m : Mode) (o : AluOut) (st : State) : Result State :=
  if writes && rd == 15#4 then pcWrite i o.res st
  else .next (advance (setFlags s o (if writes then writeReg m rd o.res st else st)))

/-- R240 for format DPI. -/
def dpImm (i : Instr) (op : AluOp) (writes : Bool) (f : Dpi) (s : State) : Result State :=
  retire i s fun m =>
    let x := immOperand f s.cpu.cpsr.c
    dpFinish i writes f.s f.rd m (op s (readReg m f.rn s) x.b x.sc) s

/-- R240 for format DPS. -/
def dpSh (i : Instr) (op : AluOp) (writes : Bool) (f : Dps) (s : State) : Result State :=
  retire i s fun m =>
    let x := immShift f.shift (readReg m f.rm s) f.shiftImm s.cpu.cpsr.c
    dpFinish i writes f.s f.rd m (op s (readReg m f.rn s) x.b x.sc) s

/-- R240 for format DPR: Rn = 15 and Rm = 15 read `A + 12` (R241, R242), and an amount of 32 or more may be fatal
(R245). -/
def dpRsh (i : Instr) (op : AluOp) (writes : Bool) (f : Dpr) (s : State) : Result State :=
  retire i s fun m =>
    match regShift s.config f.shift (readRegLate m f.rm s) (regAmount m f.rs s) s.cpu.cpsr.c with
    | none => raise (.unimpRegShift32 (encode i) s.instrAddr (regAmount m f.rs s)) s
    | some x => dpFinish i writes f.s f.rd m (op s (readRegLate m f.rn s) x.b x.sc) s

/-- ADC, SBC, RSC and TEQ, in every format and whatever the condition and the S bit (R263): `UNIMP_DP_OPCODE`. -/
def unimplementedOpcode (i : Instr) (s : State) : Result State :=
  raise (.atDecode .unimpDpOpcode (encode i) s.instrAddr) s

/-! ## Format DPR -/

/-- AND (R251). -/
def execAndRsh (f : Dpr) (s : State) : Result State := dpRsh (.andRsh f) aluAnd true f s

/-- EOR (R252). -/
def execEorRsh (f : Dpr) (s : State) : Result State := dpRsh (.eorRsh f) aluEor true f s

/-- SUB (R253). -/
def execSubRsh (f : Dpr) (s : State) : Result State := dpRsh (.subRsh f) aluSub true f s

/-- RSB (R254). -/
def execRsbRsh (f : Dpr) (s : State) : Result State := dpRsh (.rsbRsh f) aluRsb true f s

/-- ADD (R255). -/
def execAddRsh (f : Dpr) (s : State) : Result State := dpRsh (.addRsh f) aluAdd true f s

/-- ADC (R263). -/
def execAdcRsh (f : Dpr) (s : State) : Result State := unimplementedOpcode (.adcRsh f) s

/-- SBC (R263). -/
def execSbcRsh (f : Dpr) (s : State) : Result State := unimplementedOpcode (.sbcRsh f) s

/-- RSC (R263). -/
def execRscRsh (f : Dpr) (s : State) : Result State := unimplementedOpcode (.rscRsh f) s

/-- TST (R260). -/
def execTstRsh (f : Dpr) (s : State) : Result State := dpRsh (.tstRsh f) aluTst false f s

/-- TEQ (R263). -/
def execTeqRsh (f : Dpr) (s : State) : Result State := unimplementedOpcode (.teqRsh f) s

/-- CMP (R261). -/
def execCmpRsh (f : Dpr) (s : State) : Result State := dpRsh (.cmpRsh f) aluCmp false f s

/-- CMN (R262). -/
def execCmnRsh (f : Dpr) (s : State) : Result State := dpRsh (.cmnRsh f) aluCmn false f s

/-- ORR (R256). -/
def execOrrRsh (f : Dpr) (s : State) : Result State := dpRsh (.orrRsh f) aluOrr true f s

/-- MOV (R257). -/
def execMovRsh (f : Dpr) (s : State) : Result State := dpRsh (.movRsh f) aluMov true f s

/-- BIC (R258). -/
def execBicRsh (f : Dpr) (s : State) : Result State := dpRsh (.bicRsh f) aluBic true f s

/-- MVN (R259). -/
def execMvnRsh (f : Dpr) (s : State) : Result State := dpRsh (.mvnRsh f) aluMvn true f s

/-! ## Format DPS -/

/-- AND (R251). -/
def execAndSh (f : Dps) (s : State) : Result State := dpSh (.andSh f) aluAnd true f s

/-- EOR (R252). -/
def execEorSh (f : Dps) (s : State) : Result State := dpSh (.eorSh f) aluEor true f s

/-- SUB (R253). -/
def execSubSh (f : Dps) (s : State) : Result State := dpSh (.subSh f) aluSub true f s

/-- RSB (R254). -/
def execRsbSh (f : Dps) (s : State) : Result State := dpSh (.rsbSh f) aluRsb true f s

/-- ADD (R255). -/
def execAddSh (f : Dps) (s : State) : Result State := dpSh (.addSh f) aluAdd true f s

/-- ADC (R263). -/
def execAdcSh (f : Dps) (s : State) : Result State := unimplementedOpcode (.adcSh f) s

/-- SBC (R263). -/
def execSbcSh (f : Dps) (s : State) : Result State := unimplementedOpcode (.sbcSh f) s

/-- RSC (R263). -/
def execRscSh (f : Dps) (s : State) : Result State := unimplementedOpcode (.rscSh f) s

/-- TST (R260). -/
def execTstSh (f : Dps) (s : State) : Result State := dpSh (.tstSh f) aluTst false f s

/-- TEQ (R263). -/
def execTeqSh (f : Dps) (s : State) : Result State := unimplementedOpcode (.teqSh f) s

/-- CMP (R261). -/
def execCmpSh (f : Dps) (s : State) : Result State := dpSh (.cmpSh f) aluCmp false f s

/-- CMN (R262). -/
def execCmnSh (f : Dps) (s : State) : Result State := dpSh (.cmnSh f) aluCmn false f s

/-- ORR (R256). -/
def execOrrSh (f : Dps) (s : State) : Result State := dpSh (.orrSh f) aluOrr true f s

/-- MOV (R257). -/
def execMovSh (f : Dps) (s : State) : Result State := dpSh (.movSh f) aluMov true f s

/-- BIC (R258). -/
def execBicSh (f : Dps) (s : State) : Result State := dpSh (.bicSh f) aluBic true f s

/-- MVN (R259). -/
def execMvnSh (f : Dps) (s : State) : Result State := dpSh (.mvnSh f) aluMvn true f s

/-! ## Format DPI -/

/-- AND (R251). -/
def execAndImm (f : Dpi) (s : State) : Result State := dpImm (.andImm f) aluAnd true f s

/-- EOR (R252). -/
def execEorImm (f : Dpi) (s : State) : Result State := dpImm (.eorImm f) aluEor true f s

/-- SUB (R253). -/
def execSubImm (f : Dpi) (s : State) : Result State := dpImm (.subImm f) aluSub true f s

/-- RSB (R254). -/
def execRsbImm (f : Dpi) (s : State) : Result State := dpImm (.rsbImm f) aluRsb true f s

/-- ADD (R255). -/
def execAddImm (f : Dpi) (s : State) : Result State := dpImm (.addImm f) aluAdd true f s

/-- ADC (R263). -/
def execAdcImm (f : Dpi) (s : State) : Result State := unimplementedOpcode (.adcImm f) s

/-- SBC (R263). -/
def execSbcImm (f : Dpi) (s : State) : Result State := unimplementedOpcode (.sbcImm f) s

/-- RSC (R263). -/
def execRscImm (f : Dpi) (s : State) : Result State := unimplementedOpcode (.rscImm f) s

/-- TST (R260). -/
def execTstImm (f : Dpi) (s : State) : Result State := dpImm (.tstImm f) aluTst false f s

/-- TEQ (R263). -/
def execTeqImm (f : Dpi) (s : State) : Result State := unimplementedOpcode (.teqImm f) s

/-- CMP (R261). -/
def execCmpImm (f : Dpi) (s : State) : Result State := dpImm (.cmpImm f) aluCmp false f s

/-- CMN (R262). -/
def execCmnImm (f : Dpi) (s : State) : Result State := dpImm (.cmnImm f) aluCmn false f s

/-- ORR (R256). -/
def execOrrImm (f : Dpi) (s : State) : Result State := dpImm (.orrImm f) aluOrr true f s

/-- MOV (R257). -/
def execMovImm (f : Dpi) (s : State) : Result State := dpImm (.movImm f) aluMov true f s

/-- BIC (R258). -/
def execBicImm (f : Dpi) (s : State) : Result State := dpImm (.bicImm f) aluBic true f s

/-- MVN (R259). -/
def execMvnImm (f : Dpi) (s : State) : Result State := dpImm (.mvnImm f) aluMvn true f s

end Sys2Proof.Machine
end

