-- ==== Sys2Proof/Machine/LoadStore.lean ====
section
/-!
DEFINITION. Single-register load and store (43_load_store.md): LDR, STR, LDRB, STRB with an immediate and a register offset.
-/

namespace Sys2Proof.Machine

open Sys2Proof

/-- R300: the access at its address, then the writeback, which a post-indexed access always makes. -/
def lsExecute (p u w : Bool) (rn : RegNum) (off : Word) (m : Mode) (access : Word → State → Result State)
    (s : State) : Result State :=
  andThen (access (accessAddr p u (readReg m rn s) off) s) fun s1 =>
    .next (advance (if !p || w then writeReg m rn (offsetAddr u (readReg m rn s) off) s1 else s1))

/-- LDR's access (R304). -/
def ldrAccess (i : Instr) (rd : RegNum) (m : Mode) (a : Word) (s : State) : Result State :=
  andThen (loadWord i a s) fun p => .next (writeReg m rd p.1 p.2)

/-- STR's access (R305). -/
def strAccess (i : Instr) (rd : RegNum) (m : Mode) (a : Word) (s : State) : Result State :=
  storeWord i a (readReg m rd s) s

/-- LDRB's access (R306): zero-extended. -/
def ldrbAccess (i : Instr) (rd : RegNum) (m : Mode) (a : Word) (s : State) : Result State :=
  andThen (load i .byte a s) fun p => .next (writeReg m rd p.1 p.2)

/-- STRB's access (R307): the low byte. -/
def strbAccess (i : Instr) (rd : RegNum) (m : Mode) (a : Word) (s : State) : Result State :=
  store i .byte a (readReg m rd s) s

/-- STR, immediate offset (R305). -/
def execStrImm (f : LsImmFields) (s : State) : Result State :=
  retire (.strImm f) s fun m =>
    lsExecute f.p f.u f.w f.rn (lsImmOffset f) m (strAccess (.strImm f) f.rd m) s

/-- LDR, immediate offset (R304). -/
def execLdrImm (f : LsImmFields) (s : State) : Result State :=
  retire (.ldrImm f) s fun m =>
    lsExecute f.p f.u f.w f.rn (lsImmOffset f) m (ldrAccess (.ldrImm f) f.rd m) s

/-- STRB, immediate offset (R307). -/
def execStrbImm (f : LsImmFields) (s : State) : Result State :=
  retire (.strbImm f) s fun m =>
    lsExecute f.p f.u f.w f.rn (lsImmOffset f) m (strbAccess (.strbImm f) f.rd m) s

/-- LDRB, immediate offset (R306). -/
def execLdrbImm (f : LsImmFields) (s : State) : Result State :=
  retire (.ldrbImm f) s fun m =>
    lsExecute f.p f.u f.w f.rn (lsImmOffset f) m (ldrbAccess (.ldrbImm f) f.rd m) s

/-- STR, register offset (R305). -/
def execStrReg (f : LsRegFields) (s : State) : Result State :=
  retire (.strReg f) s fun m =>
    lsExecute f.p f.u f.w f.rn (lsRegOffset f m s) m (strAccess (.strReg f) f.rd m) s

/-- LDR, register offset (R304). -/
def execLdrReg (f : LsRegFields) (s : State) : Result State :=
  retire (.ldrReg f) s fun m =>
    lsExecute f.p f.u f.w f.rn (lsRegOffset f m s) m (ldrAccess (.ldrReg f) f.rd m) s

/-- STRB, register offset (R307). -/
def execStrbReg (f : LsRegFields) (s : State) : Result State :=
  retire (.strbReg f) s fun m =>
    lsExecute f.p f.u f.w f.rn (lsRegOffset f m s) m (strbAccess (.strbReg f) f.rd m) s

/-- LDRB, register offset (R306). -/
def execLdrbReg (f : LsRegFields) (s : State) : Result State :=
  retire (.ldrbReg f) s fun m =>
    lsExecute f.p f.u f.w f.rn (lsRegOffset f m s) m (ldrbAccess (.ldrbReg f) f.rd m) s

end Sys2Proof.Machine
end

