-- ==== Sys2Proof/Machine/Multiply.lean ====
section
/-!
DEFINITION. Multiply (45_multiply.md): MUL and MLA.
-/

namespace Sys2Proof.Machine

open Sys2Proof

/-- The end of a multiply: Rd, the flags if S = 1 (R374), the advance. -/
def mulFinish (s : Bool) (rd : RegNum) (m : Mode) (res : Word) (st : State) : Result State :=
  .next (advance (setFlags s (mulFlags st.cpu.cpsr res) (writeReg m rd res st)))

/-- MUL (R372): `Rm * Rs` modulo 2^32. -/
def execMul (f : MulFields) (s : State) : Result State :=
  retire (.mul f) s fun m => mulFinish f.s f.rd m (readReg m f.rm s * readReg m f.rs s) s

/-- MLA (R373): `Rm * Rs + Rn` modulo 2^32. -/
def execMla (f : MulFields) (s : State) : Result State :=
  retire (.mla f) s fun m =>
    mulFinish f.s f.rd m (readReg m f.rm s * readReg m f.rs s + readReg m f.rn s) s

end Sys2Proof.Machine
end

