-- ==== Sys2Proof/Machine/Dispatch.lean ====
section
/-!
DEFINITION. The meaning of every instruction: one arm per constructor of `Instr`, in the order of opcode_table.json.
-/

namespace Sys2Proof.Machine

open Sys2Proof

def exec (i : Instr) (s : State) : Host.Outcome State Fault Refusal :=
  match i with
  | .mrs f => Sys2Proof.Machine.execMrs f s
  | .msrReg f => Sys2Proof.Machine.execMsrReg f s
  | .msrImm f => Sys2Proof.Machine.execMsrImm f s
  | .mul f => Sys2Proof.Machine.execMul f s
  | .mla f => Sys2Proof.Machine.execMla f s
  | .andRsh f => Sys2Proof.Machine.execAndRsh f s
  | .eorRsh f => Sys2Proof.Machine.execEorRsh f s
  | .subRsh f => Sys2Proof.Machine.execSubRsh f s
  | .rsbRsh f => Sys2Proof.Machine.execRsbRsh f s
  | .addRsh f => Sys2Proof.Machine.execAddRsh f s
  | .adcRsh f => Sys2Proof.Machine.execAdcRsh f s
  | .sbcRsh f => Sys2Proof.Machine.execSbcRsh f s
  | .rscRsh f => Sys2Proof.Machine.execRscRsh f s
  | .tstRsh f => Sys2Proof.Machine.execTstRsh f s
  | .teqRsh f => Sys2Proof.Machine.execTeqRsh f s
  | .cmpRsh f => Sys2Proof.Machine.execCmpRsh f s
  | .cmnRsh f => Sys2Proof.Machine.execCmnRsh f s
  | .orrRsh f => Sys2Proof.Machine.execOrrRsh f s
  | .movRsh f => Sys2Proof.Machine.execMovRsh f s
  | .bicRsh f => Sys2Proof.Machine.execBicRsh f s
  | .mvnRsh f => Sys2Proof.Machine.execMvnRsh f s
  | .andSh f => Sys2Proof.Machine.execAndSh f s
  | .eorSh f => Sys2Proof.Machine.execEorSh f s
  | .subSh f => Sys2Proof.Machine.execSubSh f s
  | .rsbSh f => Sys2Proof.Machine.execRsbSh f s
  | .addSh f => Sys2Proof.Machine.execAddSh f s
  | .adcSh f => Sys2Proof.Machine.execAdcSh f s
  | .sbcSh f => Sys2Proof.Machine.execSbcSh f s
  | .rscSh f => Sys2Proof.Machine.execRscSh f s
  | .tstSh f => Sys2Proof.Machine.execTstSh f s
  | .teqSh f => Sys2Proof.Machine.execTeqSh f s
  | .cmpSh f => Sys2Proof.Machine.execCmpSh f s
  | .cmnSh f => Sys2Proof.Machine.execCmnSh f s
  | .orrSh f => Sys2Proof.Machine.execOrrSh f s
  | .movSh f => Sys2Proof.Machine.execMovSh f s
  | .bicSh f => Sys2Proof.Machine.execBicSh f s
  | .mvnSh f => Sys2Proof.Machine.execMvnSh f s
  | .andImm f => Sys2Proof.Machine.execAndImm f s
  | .eorImm f => Sys2Proof.Machine.execEorImm f s
  | .subImm f => Sys2Proof.Machine.execSubImm f s
  | .rsbImm f => Sys2Proof.Machine.execRsbImm f s
  | .addImm f => Sys2Proof.Machine.execAddImm f s
  | .adcImm f => Sys2Proof.Machine.execAdcImm f s
  | .sbcImm f => Sys2Proof.Machine.execSbcImm f s
  | .rscImm f => Sys2Proof.Machine.execRscImm f s
  | .tstImm f => Sys2Proof.Machine.execTstImm f s
  | .teqImm f => Sys2Proof.Machine.execTeqImm f s
  | .cmpImm f => Sys2Proof.Machine.execCmpImm f s
  | .cmnImm f => Sys2Proof.Machine.execCmnImm f s
  | .orrImm f => Sys2Proof.Machine.execOrrImm f s
  | .movImm f => Sys2Proof.Machine.execMovImm f s
  | .bicImm f => Sys2Proof.Machine.execBicImm f s
  | .mvnImm f => Sys2Proof.Machine.execMvnImm f s
  | .strImm f => Sys2Proof.Machine.execStrImm f s
  | .ldrImm f => Sys2Proof.Machine.execLdrImm f s
  | .strbImm f => Sys2Proof.Machine.execStrbImm f s
  | .ldrbImm f => Sys2Proof.Machine.execLdrbImm f s
  | .strReg f => Sys2Proof.Machine.execStrReg f s
  | .ldrReg f => Sys2Proof.Machine.execLdrReg f s
  | .strbReg f => Sys2Proof.Machine.execStrbReg f s
  | .ldrbReg f => Sys2Proof.Machine.execLdrbReg f s
  | .stm f => Sys2Proof.Machine.execStm f s
  | .ldm f => Sys2Proof.Machine.execLdm f s
  | .b f => Sys2Proof.Machine.execB f s
  | .bl f => Sys2Proof.Machine.execBl f s
  | .swi f => Sys2Proof.Machine.execSwi f s

end Sys2Proof.Machine
end

