-- ==== Sys2Proof/Machine/Driver.lean ====
section
/-!
DEFINITION. The driver loop around the engine (41_pipeline.md R217, R218, R232), cut into the steps between which other
agents may act (20_memory.md R95), and the invocation of event handlers (40_scheduler.md R161). `State.turn` says which
step is next (log 6).
-/

namespace Sys2Proof.Machine

open Sys2Proof

/-- The engine may run another fetch cycle: `cpu_cycles < target_stamp[d]` for its domain (R217). -/
def belowTarget (s : State) : Bool :=
  match s.clock s.config.engineDomain with
  | some c => decide (s.cpu.cycles < c.target)
  | none => false

/-- Begin an iteration for domain `d`: `run_cpu` if the engine is attached to it and is below its target (R217, R218),
else the advance. -/
def enterIteration (d : Nat) (s : State) : State :=
  { s with turn := if d = s.config.engineDomain ∧ belowTarget s then .run false else .advance d }

/-- Begin the next iteration, for the domain the host has chosen or the engine's (log 7). -/
def startIteration (s : State) : State :=
  match s.host.order with
  | [] => enterIteration s.config.engineDomain s
  | d :: ds => enterIteration d { s with host.order := ds }

/-- An iteration has ended: the host's calls if it has any, else the next iteration. -/
def endIteration (s : State) : State :=
  match s.host.inbox with
  | [] => startIteration s
  | _ :: _ => { s with turn := .host }

/-- After a fetch cycle: `run_cpu` goes on while the bound holds, re-read every cycle (R217); then the iteration advances the
stamp, or, before the first iteration, the host goes on. -/
def afterCycle (boot : Bool) (s : State) : State :=
  { s with turn := if belowTarget s then .run boot else if boot then .boot else .advance s.config.engineDomain }

/-- `advance_stamp(d, max(target_stamp(d), cycle_stamp[d]))` (R232). -/
def driverAdvance (d : Nat) (s : State) : Result State :=
  match s.clock d with
  | none => .refused (.noSuchDomain d)
  | some c =>
    andThen (advanceStamp d (if c.stamp < c.target then c.target else c.stamp) s) fun s1 =>
      .next { s1 with turn := .drain d }

/-- The first scripted behaviour of handler `h`, and the script without it; a handler with none does nothing. -/
def takeScript (h : Nat) : List (Nat × List HostCall) → List HostCall × List (Nat × List HostCall)
  | [] => ([], [])
  | (k, cs) :: rest => if k = h then (cs, rest) else ((takeScript h rest).1, (k, cs) :: (takeScript h rest).2)

/-- Invoke `handler[e]` with no arguments (R161). -/
def invokeHandler (e : Nat) (s : State) : Result State :=
  match s.event e with
  | none => .refused (.noSuchEvent e)
  | some x =>
    hostCalls (takeScript x.handler s.host.handlerScript).1
      { s with host.handlerScript := (takeScript x.handler s.host.handlerScript).2 }

/-- One turn of the drain loop (R232): pop a due event and invoke its handler, or leave the loop. -/
def driverDrain (d : Nat) (s : State) : Result State :=
  match s.clock d with
  | none => .refused (.noSuchDomain d)
  | some c =>
    match c.list with
    | [] => .next (endIteration s)
    | h :: _ =>
      if c.stamp < whenOf s.sched.events h then .next (endIteration s)
      else
        andThen (popEarliest d s) fun p =>
          match p.1 with
          | some e => invokeHandler e p.2
          | none => .next p.2

/-- One of the host's steps before the first driver iteration, in the order the host has chosen, or that iteration
(70_reset_and_hazards.md R494). -/
def bootTurn (s : State) : Result State :=
  match s.host.boot with
  | [] => .next (startIteration s)
  | .call c :: rest => hostCall c { s with host.boot := rest }
  | .runCpu :: rest => .next { s with host.boot := rest, turn := if belowTarget s then .run true else .boot }

/-- One of the host's calls between iterations, or the next iteration (log 6). -/
def hostTurn (s : State) : Result State :=
  match s.host.inbox with
  | [] => .next (startIteration s)
  | c :: cs => hostCall c { s with host.inbox := cs }

/-- The parameters the model runs with: `CLOCK_SCALE >= 1` (R234, 93_implementation_defined.md U13) and an engine
attached to a domain that exists. -/
def configOk (s : State) : Bool :=
  decide (1 ≤ s.config.clockScale) && decide (s.config.engineDomain < s.sched.clocks.length)

end Sys2Proof.Machine
end

