-- ==== Sys2Proof/Machine/Cycle.lean ====
section
/-!
DEFINITION. The fetch cycle, the engine's single step (41_pipeline.md R201 to R216), and what ends a session (R54).
-/

namespace Sys2Proof.Machine

open Sys2Proof

/-- `IDLE_COST` (00_scope.md R10). -/
def idleCost : Nat := 1

/-- `q[qlen] <- x` while the queue is not full (R205). -/
def Queue.push (q : Queue) (x : Fetched) : Queue :=
  match q with
  | .empty => .one x
  | .one q0 => .two q0 x
  | .two q0 q1 => .two q0 q1

/-- An instruction fetch: the word at R15 (R205, R206). -/
def fetchWord (s : State) : Result (Word × State) := busRead .word s.cpu.pc none s.cpu.pc s

/-- The fill step (R205) and its cost. An overflow of the counter names the fetch address (log 20). -/
def fillStep (s : State) : Result State :=
  andThen (fetchWord s) fun p =>
    account idleCost none s.cpu.pc
      { p.2 with cpu := { p.2.cpu with queue := p.2.cpu.queue.push ⟨p.1, s.cpu.pc⟩, pc := p.2.cpu.pc + 4 } }

/-- The state in which the word `q0` shifted out executes: the next word `w` has been fetched into the queue (R206). -/
def shifted (q1 : Fetched) (w : Word) (s : State) : State :=
  { s with cpu.queue := .two q1 ⟨w, s.cpu.pc⟩ }

/-- Shift and fetch (R206), decode (R208, 30_encoding.md R135, R137), execute. -/
def decodeExecute (q0 q1 : Fetched) (s : State) : Result State :=
  andThen (fetchWord s) fun p =>
    match decodeWord q0.word with
    | .ok i => exec i (shifted q1 p.1 p.2)
    | .error _ => raise (.unimpNoDecode q0.word q0.addr) p.2

/-- Service the selected class, if any (R201). -/
def takeException (s : State) : State :=
  match selectException s with
  | some c => service c s
  | none => s

/-- The state after the poll and the exception service of a fetch cycle (R201). -/
def dispatched (s : State) : State := takeException (pollLines s)

/-- `fetch_cycle()` (R201). -/
def fetchCycle (s : State) : Result State :=
  match (dispatched s).cpu.queue with
  | .two q0 q1 => decodeExecute q0 q1 (dispatched s)
  | .empty => fillStep (dispatched s)
  | .one _ => fillStep (dispatched s)

/-- One step of the agent whose turn it is (log 6). -/
def turnStep (s : State) : Result State :=
  match s.turn with
  | .boot => bootTurn s
  | .run boot => andThen (fetchCycle s) fun s1 => .next (afterCycle boot s1)
  | .advance d => driverAdvance d s
  | .drain d => driverDrain d s
  | .host => hostTurn s

/-- The session after a step from `s` has raised `f` (10_state.md R54): the fault is set; the engine is as it was, since
nothing the step would have written is written (R216); the log records and the bus accesses made before the fault have
happened (20_memory.md R87, 44_block_transfer.md R346; log 15). -/
def recordFault (f : Fault) (s : State) : State :=
  { s with
    sched := f.world.sched
    mem := f.world.mem
    host := f.world.host
    log := f.world.log
    fault := some f.why
    draws := f.world.draws }

/-- The state whose next step shifts out and runs the word `w` (log 18): any pending reset is serviced first, the word
stands at the head of a full queue, no exception is pending or about to be, and it is the engine's turn. -/
def placeNext (w : Word) (s : State) : State :=
  let s0 := if s.cpu.pending.reset || s.mode.isNone then service .reset s else s
  let a := s0.cpu.pc - BitVec.ofNat 32 (4 * s0.cpu.queue.len)
  let q1 : Fetched := match s0.cpu.queue with
    | .two _ q => q
    | .one _ => ⟨s0.mem.readWord (a + 4), a + 4⟩
    | .empty => ⟨s0.mem.readWord (a + 4), a + 4⟩
  { s0 with
    fault := none
    turn := .run false
    cpu := { s0.cpu with
      queue := .two ⟨w, a⟩ q1
      pc := a + 8
      pending := ⟨false, false, false, false, false, false⟩ }
    host := { s0.host with lines := ⟨false, false⟩, lineScript := [] } }

end Sys2Proof.Machine
end

