-- ==== Sys2Proof/Machine/Step.lean ====
section
/-!
DEFINITION. One step of the whole machine: a fetch cycle of the engine, or one step of the driver or the host, as
`State.turn` says. A session that has faulted takes no step (10_state.md R54).
-/

namespace Sys2Proof.Machine

open Sys2Proof

/-- One step of the machine. -/
def step (s : State) : Host.Outcome State Fault Refusal :=
  match s.fault with
  | some f => raise f s
  | none => if configOk s then turnStep s else .refused .badConfiguration

/-- `s` with the opcode-table word `w` where the next step takes its instruction from (log 18). -/
def State.withFetchWord (s : State) (nbits w : Nat) : State := placeNext (tableWord nbits w) s

end Sys2Proof.Machine
end

