-- ==== Sys2Proof/Safety.lean ====
section
/-!
DEFINITION. The terms claims are stated in: the invariants of the spec, when an instruction executes, what it leaves
unchanged, what a status register holds as a word, and what a safe and a finished run are.
-/

namespace Sys2Proof.Machine

open Sys2Proof

/-! ## Safe runs -/

/-- The step ends in a next state: no fault, no refusal (60_exceptions.md R443). -/
def StepSafe (s : State) : Prop := ∃ t, step s = .next t

/-- RESET-PENDING (41_pipeline.md R200). -/
def ResetPending (s : State) : Prop := s.cpu.pending.reset = true

/-- FETCH/PIPELINE-FILL (R200). -/
def PipelineFill (s : State) : Prop := s.cpu.queue.len < 2

/-- DECODE-EXECUTE (R200). -/
def DecodeExecute (s : State) : Prop := s.cpu.queue.len = 2

/-- The word `B .` (70_reset_and_hazards.md R496). -/
def haltWord : Word := 0xEAFFFFFE#32

/-- A run with halt address `h` has ended (R496): the next fetch cycle shifts out the word `B .` at `h`, with no fault at its start.
DESIGN CHOICE, unsafe (log 24): it has ended too where that cycle itself then faults, as at its fetch of `h + 8`. -/
def RunEnded (h : Word) (s : State) : Prop :=
  s.fault = none ∧ (∃ boot, s.turn = .run boot) ∧ ∃ q1, (dispatched s).cpu.queue = .two ⟨haltWord, h⟩ q1

/-! ## The poll of the interrupt lines -/

/-- The levels the two predicates answer at the next poll (41_pipeline.md R202): those of the script's head, else the lines as
they stand (log 4). -/
def linesAtPoll (s : State) : Lines := s.host.lineScript.headD s.host.lines

/-- The pending mask after the poll (R202, 60_exceptions.md R439): IRQ and FIQ are the levels, whatever they were, and the
other four bits are kept. -/
def pendingAfterPoll (s : State) : Pending :=
  { s.cpu.pending with irq := (linesAtPoll s).irq, fiq := (linesAtPoll s).fiq }

/-- The host after the poll (log 4): the lines stand at the levels read, and the script has lost its head. -/
def hostAfterPoll (s : State) : HostEnv :=
  { s.host with lines := linesAtPoll s, lineScript := s.host.lineScript.tail }

/-! ## Invariants -/

/-- The queue's entries were fetched from the words before `pc` (10_state.md R47). -/
def Queue.agrees (q : Queue) (pc : Word) : Prop :=
  match q with
  | .empty => True
  | .one q0 => q0.addr = pc - 4
  | .two q0 q1 => q0.addr = pc - 8 ∧ q1.addr = pc - 4

/-- What holds of the engine between fetch cycles: the queue invariant (R47), an aligned R15 (R39), a valid mode unless the
reset exception is still pending (R42, 70_reset_and_hazards.md R492), and no abort pending (60_exceptions.md R431). -/
structure EngineInv (s : State) : Prop where
  queue : s.cpu.queue.agrees s.cpu.pc
  aligned : s.cpu.pc.toNat % 4 = 0
  mode : s.mode.isSome ∨ s.cpu.pending.reset = true
  dabt : s.cpu.pending.dabt = false
  pabt : s.cpu.pending.pabt = false

/-- The cached target is the head's `when`, or the stamp plus LOOKAHEAD (10_state.md R50 (3)). -/
def Clock.targetRight (config : Config) (events : List EventSlot) (c : Clock) : Prop :=
  match c.list with
  | [] => c.target.toNat = c.stamp.toNat + lookahead config
  | h :: _ => c.target = whenOf events h

/-- What holds of one domain's Clock (R50 (1) to (3), R49). -/
structure ClockInv (config : Config) (events : List EventSlot) (d : Nat) (c : Clock) : Prop where
  notPast : config.integrityChecks = true → ∀ e ∈ c.list, c.stamp ≤ whenOf events e
  sorted : c.list.Pairwise (fun e f => whenOf events e ≤ whenOf events f)
  target : c.targetRight config events
  once : c.list.Nodup
  linked : ∀ e ∈ c.list, ∃ x, events[e]? = some x ∧ x.link = .inDomain d

/-- The scheduler invariants (R50): every Clock's, and every linked event stands in its domain's list (R49). -/
structure SchedulerInv (s : State) : Prop where
  clocks : ∀ d c, s.clock d = some c → ClockInv s.config s.sched.events d c
  listed : ∀ e x d, s.event e = some x → x.link = .inDomain d → ∃ c, s.clock d = some c ∧ e ∈ c.list

/-- What holds of the engine's counter beside the stamp of its domain (41_pipeline.md R233): the counter is never behind the
stamp, and, where the driver is about to advance the stamp, never behind the target. -/
structure CounterInv (s : State) : Prop where
  stamp : ∀ c, s.clock s.config.engineDomain = some c → c.stamp ≤ s.cpu.cycles
  target : s.turn = .advance s.config.engineDomain →
    ∀ c, s.clock s.config.engineDomain = some c → c.target ≤ s.cpu.cycles

/-! ## When an instruction executes -/

/-- `n` cycles can be charged without overflow (41_pipeline.md R213). -/
def InTime (n : Nat) (s : State) : Prop := s.cpu.cycles.toNat + n * s.config.cpuClockScale ≤ 2 ^ 64 - 1

/-- Instruction `i` executes in mode `m`: its word raises no fault at decode (30_encoding.md R136), its condition passes
(41_pipeline.md R210), the mode field names `m`, and its cost can be charged (R213). -/
structure Ready (i : Instr) (m : Mode) (s : State) : Prop where
  word : i.checkWord = none
  cond : condHolds s.cpu.cpsr i.cond = true
  mode : s.mode = some m
  time : InTime (baseCost s.config i) s

/-! ## What an instruction leaves unchanged -/

/-- Every physical general register but those listed holds what it held. -/
def RegsBut (written : List PhysReg) (s t : State) : Prop :=
  ∀ p, p ∉ written → t.cpu.regs.get p = s.cpu.regs.get p

/-- N, Z, C and V hold what they held. -/
def FlagsSame (s t : State) : Prop :=
  t.cpu.cpsr.n = s.cpu.cpsr.n ∧ t.cpu.cpsr.z = s.cpu.cpsr.z ∧ t.cpu.cpsr.c = s.cpu.cpsr.c ∧
    t.cpu.cpsr.v = s.cpu.cpsr.v

/-- The flags after a form with S bit `set`: those of the result and the given C and V, or as before (42_data_processing.md
R247, R248). -/
def FlagsAfter (set : Bool) (res : Word) (c v : Bool) (s t : State) : Prop :=
  if set then
    t.cpu.cpsr.n = res.getLsbD 31 ∧ t.cpu.cpsr.z = decide (res = 0#32) ∧ t.cpu.cpsr.c = c ∧ t.cpu.cpsr.v = v
  else FlagsSame s t

/-- I, F and the mode hold what they held. -/
def ControlSame (s t : State) : Prop :=
  t.cpu.cpsr.i = s.cpu.cpsr.i ∧ t.cpu.cpsr.f = s.cpu.cpsr.f ∧ t.cpu.cpsr.m = s.cpu.cpsr.m

/-- Every byte of memory but those at the listed addresses holds what it held. -/
def MemBut (stored : List Nat) (s t : State) : Prop :=
  ∀ a : Word, a.toNat ∉ stored → t.mem.readByte a = s.mem.readByte a

/-- Everything outside the general registers, R15, CPSR, the SPSRs, the queue, the pending mask, the cycle counter, memory
and the log holds what it held. -/
structure OutsideSame (s t : State) : Prop where
  sched : t.sched = s.sched
  host : t.host = s.host
  fault : t.fault = s.fault
  turn : t.turn = s.turn
  draws : t.draws = s.draws
  config : t.config = s.config

/-- Everything a scheduler operation leaves alone: the engine, memory, the host's inputs, the session, the parameters. -/
structure HostSame (s t : State) : Prop where
  cpu : t.cpu = s.cpu
  mem : t.mem = s.mem
  host : t.host = s.host
  log : t.log = s.log
  fault : t.fault = s.fault
  turn : t.turn = s.turn
  config : t.config = s.config

/-- SPSRs, pending mask and log hold what they held, and so does everything `OutsideSame` names. -/
structure SystemSame (s t : State) : Prop where
  spsr : t.cpu.spsr = s.cpu.spsr
  pending : t.cpu.pending = s.cpu.pending
  log : t.log = s.log
  outside : OutsideSame s t

/-- The cost of the instruction has been charged (41_pipeline.md R213). -/
def Charged (i : Instr) (s t : State) : Prop :=
  t.cpu.cycles.toNat = s.cpu.cycles.toNat + s.config.baseCost[i.entry.index] * s.config.cpuClockScale

/-- The instruction has been charged and R15 has advanced over it, the queue as it was (R212). -/
structure Advanced (i : Instr) (s t : State) : Prop where
  pc : t.cpu.pc = s.cpu.pc + 4
  queue : t.cpu.queue = s.cpu.queue
  cycles : Charged i s t

/-- The instruction has been charged and has written `v` to R15, with the queue flushed and no advance (00_scope.md R15). -/
structure Jumped (i : Instr) (v : Word) (s t : State) : Prop where
  pc : t.cpu.pc = v
  queue : t.cpu.queue = .empty
  cycles : Charged i s t

/-- What a data-processing or multiply instruction with a destination other than R15 leaves: the result in Rd, the flags if
it sets them, everything else as before. -/
structure WritesRd (i : Instr) (m : Mode) (rd : RegNum) (set : Bool) (res : Word) (c v : Bool) (s t : State) : Prop where
  value : readReg m rd t = res
  regs : RegsBut (phys m rd).toList s t
  flags : FlagsAfter set res c v s t
  control : ControlSame s t
  advance : Advanced i s t
  mem : MemBut [] s t
  system : SystemSame s t

/-- What a compare-only instruction leaves: the flags of the result, everything else as before. -/
structure Compares (i : Instr) (res : Word) (c v : Bool) (s t : State) : Prop where
  regs : RegsBut [] s t
  flags : FlagsAfter true res c v s t
  control : ControlSame s t
  advance : Advanced i s t
  mem : MemBut [] s t
  system : SystemSame s t

/-- What an instruction leaves that writes no flag, and of the general registers, memory and the log at most what is
listed: `written` registers, `stored` bytes, `records` appended. -/
structure KeepsAllBut (written : List PhysReg) (stored : List Nat) (records : List LogRecord) (s t : State) : Prop where
  regs : RegsBut written s t
  flags : FlagsSame s t
  control : ControlSame s t
  spsr : t.cpu.spsr = s.cpu.spsr
  pending : t.cpu.pending = s.cpu.pending
  mem : MemBut stored s t
  log : t.log = s.log ++ records
  outside : OutsideSame s t

/-- What a data-processing instruction that is ready does with its result, for every destination: Rd and the flags; or, Rd
being R15, a PC write of an aligned result and a fault on another (42_data_processing.md R240, R250). -/
structure DpWrites (i : Instr) (m : Mode) (rd : RegNum) (set : Bool) (o : AluOut) (s : State) : Prop where
  register : rd ≠ 15#4 → ∃ t, exec i s = .next t ∧ WritesRd i m rd set o.res o.c o.v s t
  jump : rd = 15#4 → o.res.toNat % 4 = 0 → ∃ t, exec i s = .next t ∧ Jumped i o.res s t ∧ KeepsAllBut [] [] [] s t
  unaligned : rd = 15#4 → o.res.toNat % 4 ≠ 0 →
    exec i s = raise (.unimpPcUnaligned (encode i) (s.cpu.pc - 8) o.res) s

/-- What a compare-only instruction that is ready does with its result, whatever its Rd field. -/
def DpCompares (i : Instr) (o : AluOut) (s : State) : Prop :=
  ∃ t, exec i s = .next t ∧ Compares i o.res o.c o.v s t

/-- The left operand, the right operand and the shifter carry of each format (R241, R242). -/
def dpiIn (out : State → Word → Word → Bool → AluOut) (m : Mode) (f : Dpi) (s : State) : AluOut :=
  out s (readReg m f.rn s) (immOperand f s.cpu.cpsr.c).b (immOperand f s.cpu.cpsr.c).sc

def dpsIn (out : State → Word → Word → Bool → AluOut) (m : Mode) (f : Dps) (s : State) : AluOut :=
  out s (readReg m f.rn s) (immShift f.shift (readReg m f.rm s) f.shiftImm s.cpu.cpsr.c).b
    (immShift f.shift (readReg m f.rm s) f.shiftImm s.cpu.cpsr.c).sc

def dprIn (out : State → Word → Word → Bool → AluOut) (m : Mode) (f : Dpr) (x : ShiftOut) (s : State) : AluOut :=
  out s (readRegLate m f.rn s) x.b x.sc

/-- The right operand of a DPR instruction, none where the amount is fatal (R245). -/
def dprShift (m : Mode) (f : Dpr) (s : State) : Option ShiftOut :=
  regShift s.config f.shift (readRegLate m f.rm s) (regAmount m f.rs s) s.cpu.cpsr.c

/-- An operation that writes Rd does what `out` says, in the three formats, whenever it is ready. -/
structure WritesInAllForms (imm : Dpi → Instr) (sh : Dps → Instr) (rsh : Dpr → Instr)
    (out : State → Word → Word → Bool → AluOut) : Prop where
  imm : ∀ f m s, Ready (imm f) m s → DpWrites (imm f) m f.rd f.s (dpiIn out m f s) s
  sh : ∀ f m s, Ready (sh f) m s → DpWrites (sh f) m f.rd f.s (dpsIn out m f s) s
  rsh : ∀ f m s x, Ready (rsh f) m s → dprShift m f s = some x → DpWrites (rsh f) m f.rd f.s (dprIn out m f x s) s

/-- A compare-only operation does what `out` says, in the three formats, whenever it is ready; and its form with `S = 0`
stops with INT_COMPARE_NO_S, whatever the condition. -/
structure ComparesInAllForms (imm : Dpi → Instr) (sh : Dps → Instr) (rsh : Dpr → Instr)
    (out : State → Word → Word → Bool → AluOut) : Prop where
  immNoS : ∀ f s, f.s = false → exec (imm f) s = raise (.atDecode .intCompareNoS (encode (imm f)) (s.cpu.pc - 8)) s
  shNoS : ∀ f s, f.s = false → exec (sh f) s = raise (.atDecode .intCompareNoS (encode (sh f)) (s.cpu.pc - 8)) s
  rshNoS : ∀ f s, f.s = false → exec (rsh f) s = raise (.atDecode .intCompareNoS (encode (rsh f)) (s.cpu.pc - 8)) s
  imm : ∀ f m s, Ready (imm f) m s → DpCompares (imm f) (dpiIn out m f s) s
  sh : ∀ f m s, Ready (sh f) m s → DpCompares (sh f) (dpsIn out m f s) s
  rsh : ∀ f m s x, Ready (rsh f) m s → dprShift m f s = some x → DpCompares (rsh f) (dprIn out m f x s) s

/-! ## Single load and store -/

/-- The registers a writeback writes: Rn, or none (43_load_store.md R300). -/
def writtenBack (p w : Bool) (m : Mode) (rn : RegNum) : List PhysReg := if !p || w then (phys m rn).toList else []

/-- The word of an LDR or STR at `a` can be accessed: aligned, or `UNALIGNED_WORD` is not FAULT (20_memory.md R88). -/
def wordAllowed (policy : UnalignedWord) (a : Word) : Bool := isAligned a || policy != .fault

/-- The address an LDR or STR at `a` gives to the bus (R88). -/
def busAddr (policy : UnalignedWord) (a : Word) : Word :=
  if !isAligned a && policy == .rotate then alignDown a else a

/-- The value an LDR at `a` loads from the word `w` the bus answers (R88). -/
def loadedValue (policy : UnalignedWord) (a w : Word) : Word :=
  if !isAligned a && policy == .rotate then w.rotateRight (8 * (a.toNat % 4)) else w

/-- The log records of an LDR or STR at `a` (R87). -/
def recordsOf (i : Instr) (isStore : Bool) (a : Word) (s : State) : List LogRecord :=
  if isAligned a then [] else [⟨a, 4, isStore, s.cpu.pc - 8, encode i⟩]

/-- What an LDR of plain memory does (43_load_store.md R300, R304, 20_memory.md R87, R88). -/
def LoadsWord (i : Instr) (m : Mode) (p u w : Bool) (rn rd : RegNum) (off : Word) (s : State) : Prop :=
  let base := readReg m rn s
  let a := accessAddr p u base off
  let bus := busAddr s.config.unalignedWord a
  wordAllowed s.config.unalignedWord a = true → s.plainAccess .word bus = true →
    ∃ t, exec i s = .next t ∧ readReg m rd t = loadedValue s.config.unalignedWord a (s.mem.readWord bus) ∧
      ((!p || w) = true → readReg m rn t = offsetAddr u base off) ∧
      KeepsAllBut ((phys m rd).toList ++ writtenBack p w m rn) [] (recordsOf i false a s) s t ∧ Advanced i s t

/-- What an STR to plain memory does (R300, R305, 20_memory.md R87, R88). -/
def StoresWord (i : Instr) (m : Mode) (p u w : Bool) (rn rd : RegNum) (off : Word) (s : State) : Prop :=
  let base := readReg m rn s
  let a := accessAddr p u base off
  let bus := busAddr s.config.unalignedWord a
  wordAllowed s.config.unalignedWord a = true → s.plainAccess .word bus = true →
    ∃ t, exec i s = .next t ∧ (s.mem.wf → t.mem.readWord bus = readReg m rd s) ∧
      ((!p || w) = true → readReg m rn t = offsetAddr u base off) ∧
      KeepsAllBut (writtenBack p w m rn) (accessAddrs bus 4) (recordsOf i true a s) s t ∧ Advanced i s t

/-- What an LDRB of plain memory does (R306). -/
def LoadsByte (i : Instr) (m : Mode) (p u w : Bool) (rn rd : RegNum) (off : Word) (s : State) : Prop :=
  let base := readReg m rn s
  let a := accessAddr p u base off
  s.plainAccess .byte a = true →
    ∃ t, exec i s = .next t ∧ readReg m rd t = (s.mem.readByte a).setWidth 32 ∧
      ((!p || w) = true → readReg m rn t = offsetAddr u base off) ∧
      KeepsAllBut ((phys m rd).toList ++ writtenBack p w m rn) [] [] s t ∧ Advanced i s t

/-- What an STRB to plain memory does (R307). -/
def StoresByte (i : Instr) (m : Mode) (p u w : Bool) (rn rd : RegNum) (off : Word) (s : State) : Prop :=
  let base := readReg m rn s
  let a := accessAddr p u base off
  s.plainAccess .byte a = true →
    ∃ t, exec i s = .next t ∧ (s.mem.wf → t.mem.readByte a = (readReg m rd s).setWidth 8) ∧
      ((!p || w) = true → readReg m rn t = offsetAddr u base off) ∧
      KeepsAllBut (writtenBack p w m rn) (accessAddrs a 1) [] s t ∧ Advanced i s t

/-! ## Accesses to a device -/

/-- A read of a device in state `s` that succeeds: the value it answers and the state it leaves, by the host's next scripted
reply, clipped to the width, after the host calls the reply makes; or, with no script, by the free value (log 3). -/
def DeviceReads (width : Width) (s : State) (v : Word) (u : State) : Prop :=
  (s.host.deviceScript = [] ∧ v = width.clip (Config.deviceValue s.draws) ∧ u = { s with draws := s.draws + 1 }) ∨
  ∃ r rs, s.host.deviceScript = r :: rs ∧ r.ok = true ∧ v = width.clip r.value ∧
    hostCalls r.calls { s with host.deviceScript := rs } = .next u

/-- A write to a device in state `s` that succeeds, and the state it leaves (log 3). -/
def DeviceWrites (s u : State) : Prop :=
  (s.host.deviceScript = [] ∧ u = s) ∨
  ∃ r rs, s.host.deviceScript = r :: rs ∧ r.ok = true ∧ hostCalls r.calls { s with host.deviceScript := rs } = .next u

/-- An access to a device in state `s` that the next scripted reply answers with failure, and the state it leaves. -/
def DeviceFails (s u : State) : Prop :=
  ∃ r rs, s.host.deviceScript = r :: rs ∧ r.ok = false ∧ hostCalls r.calls { s with host.deviceScript := rs } = .next u

/-- A word read of plain memory or of a device: its value and the state it leaves. -/
def WordReads (a : Word) (s : State) (v : Word) (u : State) : Prop :=
  (s.plainAccess .word a = true ∧ v = s.mem.readWord a ∧ u = s) ∨
  (busKind s.host.regions a 4 = .device ∧ DeviceReads .word s v u)

/-- A word write to plain memory or to a device, and the state it leaves. -/
def WordWrites (a v : Word) (s u : State) : Prop :=
  (s.plainAccess .word a = true ∧ u = { s with mem := s.mem.writeWord a v }) ∨
  (busKind s.host.regions a 4 = .device ∧ DeviceWrites s u)

/-- The reads of an LDM's slots, one after the other: register, address, value (44_block_transfer.md R343). -/
def SlotsRead : List (RegNum × Word × Word) → State → State → Prop
  | [], s, u => u = s
  | (_, a, v) :: rest, s, u => ∃ w, WordReads a s v w ∧ SlotsRead rest w u

/-- The writes of an STM's slots, one after the other: address, value (R344). -/
def SlotsWritten : List (Word × Word) → State → State → Prop
  | [], s, u => u = s
  | (a, v) :: rest, s, u => ∃ w, WordWrites a v s w ∧ SlotsWritten rest w u

/-- What lies outside the engine is as the accesses have left it: the world of `u`, the parameters, the session. -/
structure LeftBy (u t : State) : Prop where
  world : t.world = u.world
  fault : t.fault = u.fault
  turn : t.turn = u.turn
  config : t.config = u.config

/-- What an instruction leaves of the engine that writes no flag and of the general registers at most those listed. -/
structure EngineKeeps (written : List PhysReg) (s t : State) : Prop where
  regs : RegsBut written s t
  cpsr : t.cpu.cpsr = s.cpu.cpsr
  spsr : t.cpu.spsr = s.cpu.spsr
  pending : t.cpu.pending = s.cpu.pending

/-- What an LDR (or, `byte` being true, an LDRB) of a device does: completion, and the fault of a reply that fails. -/
def DeviceLoads (i : Instr) (byte : Bool) (m : Mode) (p u w : Bool) (rn rd : RegNum) (off : Word) (s : State) : Prop :=
  let base := readReg m rn s
  let a := accessAddr p u base off
  let bus := if byte then a else busAddr s.config.unalignedWord a
  let width := if byte then Width.byte else .word
  let logged := if byte then s else { s with log := s.log ++ recordsOf i false a s }
  (byte || wordAllowed s.config.unalignedWord a) = true → busKind s.host.regions bus width.bytes = .device →
    (∀ v x, DeviceReads width logged v x →
      ∃ t, exec i s = .next t ∧ readReg m rd t = (if byte then v else loadedValue s.config.unalignedWord a v) ∧
        ((!p || w) = true → readReg m rn t = offsetAddr u base off) ∧
        EngineKeeps ((phys m rd).toList ++ writtenBack p w m rn) s t ∧ LeftBy x t ∧ Advanced i s t) ∧
    ∀ x, DeviceFails logged x → exec i s = raise (.bus bus width.bytes (some (encode i)) (s.cpu.pc - 8)) x

/-- What an STR (or STRB) to a device does. -/
def DeviceStores (i : Instr) (byte : Bool) (m : Mode) (p u w : Bool) (rn : RegNum) (off : Word) (s : State) : Prop :=
  let base := readReg m rn s
  let a := accessAddr p u base off
  let bus := if byte then a else busAddr s.config.unalignedWord a
  let width := if byte then Width.byte else .word
  let logged := if byte then s else { s with log := s.log ++ recordsOf i true a s }
  (byte || wordAllowed s.config.unalignedWord a) = true → busKind s.host.regions bus width.bytes = .device →
    (∀ x, DeviceWrites logged x →
      ∃ t, exec i s = .next t ∧ ((!p || w) = true → readReg m rn t = offsetAddr u base off) ∧
        EngineKeeps (writtenBack p w m rn) s t ∧ LeftBy x t ∧ Advanced i s t) ∧
    ∀ x, DeviceFails logged x → exec i s = raise (.bus bus width.bytes (some (encode i)) (s.cpu.pc - 8)) x

/-! ## The driver -/

/-- The first turn of an iteration for domain `d`: the engine runs if it is attached to `d` and below its target, else the
advance follows (41_pipeline.md R217, R218, R232). -/
def firstTurn (d : Nat) (s : State) : Turn :=
  match s.clock d with
  | some c => if d = s.config.engineDomain ∧ s.cpu.cycles < c.target then .run false else .advance d
  | none => .advance d

/-- The turn after a fetch cycle that has left `t` (41_pipeline.md R217): the engine goes on exactly while its counter is below
the target of its domain, both read after the cycle; else the iteration advances that domain's stamp (R232), or, where the
host ran the engine before the first iteration, the host goes on (log 6). -/
def turnAfterCycle (boot : Bool) (t : State) : Turn :=
  match t.clock t.config.engineDomain with
  | some c => if t.cpu.cycles < c.target then .run boot else if boot then .boot else .advance t.config.engineDomain
  | none => if boot then .boot else .advance t.config.engineDomain

/-- `t` is `s` at the first turn of the next iteration, of the domain the host has chosen or else the engine's (log 7). -/
def BeginsIteration (s t : State) : Prop :=
  (s.host.order = [] → t = { s with turn := firstTurn s.config.engineDomain s }) ∧
  ∀ d ds, s.host.order = d :: ds → t = { s with host.order := ds, turn := firstTurn d s }

/-! ## Block transfer -/

/-- How many registers are listed (30_encoding.md R131). -/
def btCount (f : BtFields) : Nat := (allRegs.filter (fun r => f.listed r)).length

/-- How many registers below `r` are listed. -/
def btRank (f : BtFields) (r : RegNum) : Nat :=
  (allRegs.filter (fun q => f.listed q && decide (q.toNat < r.toNat))).length

/-- The lowest address of the transfer (44_block_transfer.md R341, the table of the four modes). -/
def btLowest (f : BtFields) (base : Word) : Word :=
  match f.p, f.u with
  | false, true => base
  | true, true => base + 4
  | false, false => base - BitVec.ofNat 32 (4 * (btCount f - 1))
  | true, false => base - BitVec.ofNat 32 (4 * btCount f)

/-- The address of register `r`'s slot: the lowest register at the lowest address (R341). -/
def btSlotAddr (f : BtFields) (base : Word) (r : RegNum) : Word :=
  btLowest f base + BitVec.ofNat 32 (4 * btRank f r)

/-- The written-back address (R341, the table). -/
def btFinalAddr (f : BtFields) (base : Word) : Word :=
  if f.u then base + BitVec.ofNat 32 (4 * btCount f) else base - BitVec.ofNat 32 (4 * btCount f)

/-- Plain memory after the stores of these slots of an STM in mode `m`, in order (R344; `A + 12` for R15, R345). -/
def memStored (m : Mode) (slots : List (RegNum × Word)) (s : State) : Memory :=
  slots.foldl (fun mem q => mem.writeWord q.2 (if q.1 = 15#4 then s.cpu.pc + 4 else readReg m q.1 s)) s.mem

/-! ## Status words -/

/-- The layout of a status register as a word (10_state.md R40, R44): each field at its bits, the others 0. -/
def Psr.laidOut (p : Psr) (w : Word) : Prop :=
  w.getLsbD 31 = p.n ∧ w.getLsbD 30 = p.z ∧ w.getLsbD 29 = p.c ∧ w.getLsbD 28 = p.v ∧ w.extractLsb' 8 20 = 0#20 ∧
    w.getLsbD 7 = p.i ∧ w.getLsbD 6 = p.f ∧ w.getLsbD 5 = false ∧ w.extractLsb' 0 5 = p.m

/-- The bits of a status register an MSR writes (46_branch_system.md R393, 30_encoding.md R132): 31:28 if the field mask's
`f` is set, 7:6 and 4:0 if its `c` is and the control field may be written. -/
def psrMask (f c : Bool) : Word := (if f then 0xF0000000#32 else 0#32) ||| (if c then 0x000000DF#32 else 0#32)

/-- A status word with the bits of the mask replaced by those of `v`. -/
def mergeWord (old v mask : Word) : Word := (old &&& ~~~mask) ||| (v &&& mask)

/-- What an MSR of value `v` with field mask `mask` does, for `i` that is ready in mode `m`
(46_branch_system.md R393). -/
def MsrDoes (i : Instr) (spsr : Bool) (mask : BitVec 4) (v : Word) (m : Mode) (s : State) : Prop :=
  let new := mergeWord s.cpu.cpsr.toWord v (psrMask (mask.getLsbD 3) (mask.getLsbD 0 && m != .usr))
  (spsr = false → (Mode.ofBits (new.extractLsb' 0 5)).isSome = true →
    ∃ t, exec i s = .next t ∧ t.cpu.cpsr.toWord = new ∧ RegsBut [] s t ∧ MemBut [] s t ∧ SystemSame s t ∧
      Advanced i s t) ∧
  (spsr = false → Mode.ofBits (new.extractLsb' 0 5) = none →
    exec i s = raise (.unimpMsrMode (encode i) (s.cpu.pc - 8) v) s) ∧
  (spsr = true → ∀ p, s.cpu.spsr.get m = some p →
    ∃ t q, exec i s = .next t ∧ t.cpu.spsr.get m = some q ∧
      q.toWord = mergeWord p.toWord v (psrMask (mask.getLsbD 3) (mask.getLsbD 0)) ∧
      (∀ k, k ≠ m → t.cpu.spsr.get k = s.cpu.spsr.get k) ∧ t.cpu.cpsr = s.cpu.cpsr ∧ RegsBut [] s t ∧ MemBut [] s t ∧
      t.cpu.pending = s.cpu.pending ∧ t.log = s.log ∧ OutsideSame s t ∧ Advanced i s t) ∧
  (spsr = true → m = .usr ∨ m = .sys → exec i s = raise (.unimpSpsrNone (encode i) (s.cpu.pc - 8)) s)

/-! ## Word-only restrictions -/

/-- The fault of the first condition that holds. -/
def firstOf : List (Bool × DecodeFault) → Option DecodeFault
  | [] => none
  | (c, k) :: rest => if c then some k else firstOf rest

/-- 42_data_processing.md R249, items 1 to 3. -/
def dpRestrictions (op : DpOp) (s : Bool) (rd : RegNum) : List (Bool × DecodeFault) :=
  [(decide (op ∈ [.adc, .sbc, .rsc, .teq]), .unimpDpOpcode),
   (decide (op ∈ [.tst, .cmp, .cmn]) && !s, .intCompareNoS),
   (decide (op ∉ [.tst, .cmp, .cmn]) && rd == 15#4 && s, .unimpPcFlags)]

/-- 43_load_store.md R303, items 1 to 4. -/
def lsRestrictions (p w : Bool) (rn rd : RegNum) : List (Bool × DecodeFault) :=
  [(!p && w, .unimpLsUser), (rd == 15#4, .unimpLsPc), ((!p || w) && rn == 15#4, .unimpLsWbPc),
   ((!p || w) && rn == rd, .unimpLsWbRd)]

/-- Each instruction's restrictions in its rule's order (30_encoding.md R136; R249, R303, 44_block_transfer.md R342,
45_multiply.md R371, 46_branch_system.md R392, R394). -/
def restrictions : Form → List (Bool × DecodeFault)
  | .mrs f => [(f.rd == 15#4, .unimpMrsPc)]
  | .msrr f => [(f.rm == 15#4, .unimpMsrPc)]
  | .msri _ => []
  | .mul a f =>
    [(f.rd == 15#4 || f.rm == 15#4 || f.rs == 15#4 || (a && f.rn == 15#4), .unimpMulPc), (f.rd == f.rm, .unimpMulRdRm)]
  | .dpr op f => dpRestrictions op f.s f.rd ++ [(f.rs == 15#4, .unimpRegShiftPc)]
  | .dps op f => dpRestrictions op f.s f.rd ++ [(f.shift != .lsl && f.shiftImm == 0#5, .unimpShift32)]
  | .dpi op f => dpRestrictions op f.s f.rd
  | .lsi _ _ f => lsRestrictions f.p f.w f.rn f.rd
  | .lsr _ _ f =>
    lsRestrictions f.p f.w f.rn f.rd ++
      [(f.rm == 15#4, .unimpLsRmPc), (f.shift != .lsl && f.shiftImm == 0#5, .unimpShift32)]
  | .bt _ f =>
    [(f.s, .unimpBtUser), (f.list == 0#16, .unimpBtEmpty), (f.rn == 15#4, .unimpBtPcBase),
     (f.w && f.list.getLsbD f.rn.toNat, .unimpBtWbInList)]
  | .br _ _ => []
  | .swi _ => []

end Sys2Proof.Machine
end

