-- ==== Sys2Proof/Certificates/Slice0/Obligations.lean ====
section
/-!
DEFINITION. The statements for the provers, in the order of OBLIGATIONS.json: data processing, multiply, load and store,
block transfer, branch and system, what every instruction shares, exceptions, the fetch cycle, the scheduler and driver,
memory and registers, decoding, and the rules of the whole machine. Each docstring names the rule it formalises.
-/

open Sys2Proof Sys2Proof.Machine

/-! ## Data processing (42_data_processing.md) -/

/-- R251: AND, in DPI, DPS and DPR, with its flags, its frame, and R15 as destination (R250). -/
def Obligations.AndResult : Prop :=
  WritesInAllForms .andImm .andSh .andRsh fun s a b sc => ⟨a &&& b, sc, s.cpu.cpsr.v⟩

/-- R252: EOR. -/
def Obligations.EorResult : Prop :=
  WritesInAllForms .eorImm .eorSh .eorRsh fun s a b sc => ⟨a ^^^ b, sc, s.cpu.cpsr.v⟩

/-- R253: SUB is the right operand minus Rn; C is NOT borrow. -/
def Obligations.SubIsReversed : Prop :=
  WritesInAllForms .subImm .subSh .subRsh fun _ a b _ =>
    ⟨b - a, decide (a.toNat ≤ b.toNat), (b.getLsbD 31 != a.getLsbD 31) && ((b - a).getLsbD 31 != b.getLsbD 31)⟩

/-- R254: RSB is Rn minus the right operand. -/
def Obligations.RsbIsReversed : Prop :=
  WritesInAllForms .rsbImm .rsbSh .rsbRsh fun _ a b _ =>
    ⟨a - b, decide (b.toNat ≤ a.toNat), (a.getLsbD 31 != b.getLsbD 31) && ((a - b).getLsbD 31 != a.getLsbD 31)⟩

/-- R255: ADD. -/
def Obligations.AddResult : Prop :=
  WritesInAllForms .addImm .addSh .addRsh fun _ a b _ =>
    ⟨a + b, decide (2 ^ 32 ≤ a.toNat + b.toNat), (a.getLsbD 31 == b.getLsbD 31) && ((a + b).getLsbD 31 != a.getLsbD 31)⟩

/-- R256: ORR. -/
def Obligations.OrrResult : Prop :=
  WritesInAllForms .orrImm .orrSh .orrRsh fun s a b sc => ⟨a ||| b, sc, s.cpu.cpsr.v⟩

/-- R257: MOV reads no left operand. -/
def Obligations.MovResult : Prop :=
  WritesInAllForms .movImm .movSh .movRsh fun s _ b sc => ⟨b, sc, s.cpu.cpsr.v⟩

/-- R258: BIC. -/
def Obligations.BicResult : Prop :=
  WritesInAllForms .bicImm .bicSh .bicRsh fun s a b sc => ⟨a &&& ~~~b, sc, s.cpu.cpsr.v⟩

/-- R259: MVN reads no left operand. -/
def Obligations.MvnResult : Prop :=
  WritesInAllForms .mvnImm .mvnSh .mvnRsh fun s _ b sc => ⟨~~~b, sc, s.cpu.cpsr.v⟩

/-- R260 to R262: TST, CMP for each value of `CMP_ORDER`, and CMN write the flags and no register, whatever their Rd field;
with `S = 0` they stop with INT_COMPARE_NO_S. -/
def Obligations.CompareResults : Prop :=
  (ComparesInAllForms .tstImm .tstSh .tstRsh fun s a b sc => ⟨a &&& b, sc, s.cpu.cpsr.v⟩) ∧
  (ComparesInAllForms .cmpImm .cmpSh .cmpRsh fun s a b _ =>
    match s.config.cmpOrder with
    | .rnMinusOp2 =>
      ⟨a - b, decide (b.toNat ≤ a.toNat), (a.getLsbD 31 != b.getLsbD 31) && ((a - b).getLsbD 31 != a.getLsbD 31)⟩
    | .op2MinusRn =>
      ⟨b - a, decide (a.toNat ≤ b.toNat), (b.getLsbD 31 != a.getLsbD 31) && ((b - a).getLsbD 31 != b.getLsbD 31)⟩) ∧
  (ComparesInAllForms .cmnImm .cmnSh .cmnRsh fun _ a b _ =>
    ⟨a + b, decide (2 ^ 32 ≤ a.toNat + b.toNat), (a.getLsbD 31 == b.getLsbD 31) && ((a + b).getLsbD 31 != a.getLsbD 31)⟩)

/-- R263: ADC, SBC, RSC and TEQ stop with UNIMP_DP_OPCODE in the three formats, whatever the condition and the S bit; `BX lr` of the
general architecture is such a word. -/
def Obligations.UnimplementedOpcodesStop : Prop :=
  (∀ i : Instr, (∃ f, i ∈ [Instr.adcImm f, .sbcImm f, .rscImm f, .teqImm f]) ∨
      (∃ f, i ∈ [Instr.adcSh f, .sbcSh f, .rscSh f, .teqSh f]) ∨ (∃ f, i ∈ [Instr.adcRsh f, .sbcRsh f, .rscRsh f, .teqRsh f]) →
    ∀ s, exec i s = raise (.atDecode .unimpDpOpcode (encode i) (s.cpu.pc - 8)) s) ∧
  ∃ f, decodeWord 0xE12FFF1E#32 = .ok (.teqRsh f)

/-- R248 (derived): the carry and overflow of the two primitives are those of exact arithmetic: an addition carries when the
unsigned sum does not fit, a subtraction when it does not borrow, and either overflows when the signed result does not fit. -/
def Obligations.FlagsAreExact : Prop :=
  ∀ x y : Word,
    ((addFlags x y).c = true ↔ (addFlags x y).res.toNat ≠ x.toNat + y.toNat) ∧
    ((addFlags x y).v = true ↔ (addFlags x y).res.toInt ≠ x.toInt + y.toInt) ∧
    ((subFlags x y).c = true ↔ ((subFlags x y).res.toNat : Int) = x.toNat - y.toNat) ∧
    ((subFlags x y).v = true ↔ (subFlags x y).res.toInt ≠ x.toInt - y.toInt)

/-- R126, R246, R243: every bit of the rotated immediate and its carry; every bit of a value shifted by an immediate amount,
and the carry; an amount of 0 (LSL, since the others fault) changes nothing. -/
def Obligations.OperandBits : Prop :=
  (∀ (f : Dpi) (c : Bool),
    (∀ k < 32, (immOperand f c).b.getLsbD k =
      (decide ((k + 2 * f.rotate.toNat) % 32 < 8) && f.imm8.getLsbD ((k + 2 * f.rotate.toNat) % 32))) ∧
    (immOperand f c).sc = if f.rotate = 0#4 then c else (immOperand f c).b.getLsbD 31) ∧
  (∀ (v : Word) (c : Bool), immShift .lsl v 0#5 c = ⟨v, c⟩) ∧
  ∀ (v : Word) (c : Bool) (n : BitVec 5), n ≠ 0#5 → ∀ k < 32,
    (immShift .lsl v n c).b.getLsbD k = (decide (n.toNat ≤ k) && v.getLsbD (k - n.toNat)) ∧
    (immShift .lsl v n c).sc = v.getLsbD (32 - n.toNat) ∧
    (immShift .lsr v n c).b.getLsbD k = v.getLsbD (k + n.toNat) ∧
    (immShift .lsr v n c).sc = v.getLsbD (n.toNat - 1) ∧
    (immShift .asr v n c).b.getLsbD k = (if k + n.toNat < 32 then v.getLsbD (k + n.toNat) else v.getLsbD 31) ∧
    (immShift .asr v n c).sc = v.getLsbD (n.toNat - 1) ∧
    (immShift .ror v n c).b.getLsbD k = v.getLsbD ((k + n.toNat) % 32) ∧
    (immShift .ror v n c).sc = v.getLsbD (n.toNat - 1)

/-- R245: a register amount of 0 changes nothing, 1 to 31 shifts as R243, and 32 or more, with `REG_SHIFT_GE32 = FAULT`,
stops every DPR instruction that executes; `Rs = 15` stops it at decode. -/
def Obligations.RegisterShiftAmounts : Prop :=
  (∀ (cfg : Config) (kind : ShiftKind) (v : Word) (c : Bool), regShift cfg kind v 0 c = some ⟨v, c⟩) ∧
  (∀ (cfg : Config) (kind : ShiftKind) (v : Word) (c : Bool) (n : BitVec 5), n ≠ 0#5 →
    regShift cfg kind v n.toNat c = some (immShift kind v n c)) ∧
  (∀ (cfg : Config) (v : Word) (c : Bool) (k : Nat), cfg.regShiftGe32 = .armSemantics → 32 ≤ k →
    regShift cfg .lsl v k c = some ⟨0#32, decide (k = 32) && v.getLsbD 0⟩ ∧
    regShift cfg .lsr v k c = some ⟨0#32, decide (k = 32) && v.getLsbD 31⟩ ∧
    regShift cfg .asr v k c = some ⟨if v.getLsbD 31 then 0xFFFFFFFF#32 else 0#32, v.getLsbD 31⟩ ∧
    (k % 32 = 0 → regShift cfg .ror v k c = some ⟨v, v.getLsbD 31⟩) ∧
    (k % 32 ≠ 0 → regShift cfg .ror v k c = some (immShift .ror v (BitVec.ofNat 5 k) c))) ∧
  (∀ (op : DpOp) (f : Dpr) (m : Mode) (s : State), Ready (Form.instr (.dpr op f)) m s →
    s.config.regShiftGe32 = .fault → 32 ≤ ((readReg m f.rs s).extractLsb' 0 8).toNat →
    exec (Form.instr (.dpr op f)) s =
      raise (.unimpRegShift32 (encode (Form.instr (.dpr op f))) (s.cpu.pc - 8)
        ((readReg m f.rs s).extractLsb' 0 8).toNat) s) ∧
  ∀ (op : DpOp) (f : Dpr) (s : State), firstOf (dpRestrictions op f.s f.rd) = none → f.rs = 15#4 →
    exec (Form.instr (.dpr op f)) s =
      raise (.atDecode .unimpRegShiftPc (encode (Form.instr (.dpr op f))) (s.cpu.pc - 8)) s

/-! ## Multiply (45_multiply.md) -/

/-- R370, R372 to R374: MUL and MLA, their flags (C cleared, V kept) and their frame. -/
def Obligations.MultiplyResults : Prop :=
  (∀ (f : MulFields) (m : Mode) (s : State), Ready (.mul f) m s →
    ∃ t, exec (.mul f) s = .next t ∧
      WritesRd (.mul f) m f.rd f.s (BitVec.ofNat 32 ((readReg m f.rm s).toNat * (readReg m f.rs s).toNat)) false
        s.cpu.cpsr.v s t) ∧
  ∀ (f : MulFields) (m : Mode) (s : State), Ready (.mla f) m s →
    ∃ t, exec (.mla f) s = .next t ∧
      WritesRd (.mla f) m f.rd f.s
        (BitVec.ofNat 32 ((readReg m f.rm s).toNat * (readReg m f.rs s).toNat + (readReg m f.rn s).toNat)) false
        s.cpu.cpsr.v s t

/-! ## Load and store (43_load_store.md) -/

/-- R304: LDR of plain memory in both formats: value, writeback, unaligned policy and log, frame. -/
def Obligations.LdrLoadsWord : Prop :=
  (∀ (f : LsImmFields) (m : Mode) (s : State), Ready (.ldrImm f) m s →
    LoadsWord (.ldrImm f) m f.p f.u f.w f.rn f.rd (BitVec.ofNat 32 f.offset12.toNat) s) ∧
  ∀ (f : LsRegFields) (m : Mode) (s : State), Ready (.ldrReg f) m s →
    LoadsWord (.ldrReg f) m f.p f.u f.w f.rn f.rd
      (immShift f.shift (readReg m f.rm s) f.shiftImm s.cpu.cpsr.c).b s

/-- R305: STR to plain memory in both formats. -/
def Obligations.StrStoresWord : Prop :=
  (∀ (f : LsImmFields) (m : Mode) (s : State), Ready (.strImm f) m s →
    StoresWord (.strImm f) m f.p f.u f.w f.rn f.rd (BitVec.ofNat 32 f.offset12.toNat) s) ∧
  ∀ (f : LsRegFields) (m : Mode) (s : State), Ready (.strReg f) m s →
    StoresWord (.strReg f) m f.p f.u f.w f.rn f.rd
      (immShift f.shift (readReg m f.rm s) f.shiftImm s.cpu.cpsr.c).b s

/-- R306, R307: LDRB and STRB of plain memory in both formats. -/
def Obligations.ByteAccesses : Prop :=
  (∀ (f : LsImmFields) (m : Mode) (s : State), Ready (.ldrbImm f) m s →
    LoadsByte (.ldrbImm f) m f.p f.u f.w f.rn f.rd (BitVec.ofNat 32 f.offset12.toNat) s) ∧
  (∀ (f : LsRegFields) (m : Mode) (s : State), Ready (.ldrbReg f) m s →
    LoadsByte (.ldrbReg f) m f.p f.u f.w f.rn f.rd
      (immShift f.shift (readReg m f.rm s) f.shiftImm s.cpu.cpsr.c).b s) ∧
  (∀ (f : LsImmFields) (m : Mode) (s : State), Ready (.strbImm f) m s →
    StoresByte (.strbImm f) m f.p f.u f.w f.rn f.rd (BitVec.ofNat 32 f.offset12.toNat) s) ∧
  ∀ (f : LsRegFields) (m : Mode) (s : State), Ready (.strbReg f) m s →
    StoresByte (.strbReg f) m f.p f.u f.w f.rn f.rd
      (immShift f.shift (readReg m f.rm s) f.shiftImm s.cpu.cpsr.c).b s

/-- 20_memory.md R87, R88, R309, R340 (derived): with `UNALIGNED_WORD = FAULT` an unaligned LDR or STR stops, after its log
record; an unaligned base is fatal for LDM and STM. That the fault leaves the record in the log is log 15, that the fault of a
block transfer carries the base is R340's info, taken by log 20 before R89's. -/
def Obligations.UnalignedAccessesFault : Prop :=
  (∀ (load : Bool) (f : LsImmFields) (m : Mode) (s : State),
    let i := Form.instr (.lsi false load f)
    let a := accessAddr f.p f.u (readReg m f.rn s) (BitVec.ofNat 32 f.offset12.toNat)
    Ready i m s → s.config.unalignedWord = .fault → a.toNat % 4 ≠ 0 →
    exec i s = raise (.unimpUnaligned (encode i) (s.cpu.pc - 8)) (s.emit ⟨a, 4, !load, s.cpu.pc - 8, encode i⟩)) ∧
  (∀ (load : Bool) (f : LsRegFields) (m : Mode) (s : State),
    let i := Form.instr (.lsr false load f)
    let a := accessAddr f.p f.u (readReg m f.rn s) (immShift f.shift (readReg m f.rm s) f.shiftImm s.cpu.cpsr.c).b
    Ready i m s → s.config.unalignedWord = .fault → a.toNat % 4 ≠ 0 →
    exec i s = raise (.unimpUnaligned (encode i) (s.cpu.pc - 8)) (s.emit ⟨a, 4, !load, s.cpu.pc - 8, encode i⟩)) ∧
  ∀ (load : Bool) (f : BtFields) (m : Mode) (s : State), Ready (Form.instr (.bt load f)) m s →
    (readReg m f.rn s).toNat % 4 ≠ 0 →
    exec (Form.instr (.bt load f)) s =
      raise (.unimpBtUnaligned (encode (Form.instr (.bt load f))) (s.cpu.pc - 8) (readReg m f.rn s)) s

/-- 20_memory.md R82, R100, R346: an access the bus answers with failure is fatal, with the address and length of the access,
for the fetch (no word, the fetch address as `A`), for the loads and stores of both formats, and for LDM and STM at the first
slot where the bus fails. The log record of an unaligned access has been emitted (43_load_store.md R308), and the stores of the
slots before the failing one have happened (R346; log 15). -/
def Obligations.BusFailureIsFatal : Prop :=
  (∀ s : State, busKind s.host.regions s.cpu.pc 4 = .fails →
    fetchWord s = raise (.bus s.cpu.pc 4 none s.cpu.pc) s) ∧
  (∀ (byte load : Bool) (f : LsImmFields) (m : Mode) (s : State),
    let i := Form.instr (.lsi byte load f)
    let a := accessAddr f.p f.u (readReg m f.rn s) (BitVec.ofNat 32 f.offset12.toNat)
    let bus := if byte then a else busAddr s.config.unalignedWord a
    let n := if byte then 1 else 4
    Ready i m s → (byte || wordAllowed s.config.unalignedWord a) = true → busKind s.host.regions bus n = .fails →
    exec i s = raise (.bus bus n (some (encode i)) (s.cpu.pc - 8))
      (if byte then s else { s with log := s.log ++ recordsOf i (!load) a s })) ∧
  (∀ (byte load : Bool) (f : LsRegFields) (m : Mode) (s : State),
    let i := Form.instr (.lsr byte load f)
    let a := accessAddr f.p f.u (readReg m f.rn s) (immShift f.shift (readReg m f.rm s) f.shiftImm s.cpu.cpsr.c).b
    let bus := if byte then a else busAddr s.config.unalignedWord a
    let n := if byte then 1 else 4
    Ready i m s → (byte || wordAllowed s.config.unalignedWord a) = true → busKind s.host.regions bus n = .fails →
    exec i s = raise (.bus bus n (some (encode i)) (s.cpu.pc - 8))
      (if byte then s else { s with log := s.log ++ recordsOf i (!load) a s })) ∧
  ∀ (load : Bool) (f : BtFields) (m : Mode) (s : State) (before after : List (RegNum × Word)) (r : RegNum) (a : Word),
    let i := Form.instr (.bt load f)
    Ready i m s → (readReg m f.rn s).toNat % 4 = 0 → btSlots f (readReg m f.rn s) = before ++ (r, a) :: after →
    (∀ q ∈ before, s.plainAccess .word q.2 = true) → busKind s.host.regions a 4 = .fails →
    exec i s = raise (.bus a 4 (some (encode i)) (s.cpu.pc - 8))
      (if load then s else { s with mem := memStored m before s })

/-- The model's choice (log 3) of what a device read answers: the host's scripted reply, clipped to the width of the access,
after the host calls the reply makes, or the free value when none is scripted; a reply that fails is the fault BUS, after its
calls, and a call that faults is the fault of the access. It is so of every read of the bus, and so of the fetch, of LDR and
LDRB in both formats (with the unaligned policy of R88), and of LDM, whose slots may lie in plain memory or in devices. -/
def Obligations.DeviceAnswersLoad : Prop :=
  (∀ (width : Width) (a : Word) (word : Option Word) (pc : Word) (s : State),
    busKind s.host.regions a width.bytes = .device →
    (∀ v u, DeviceReads width s v u → busRead width a word pc s = .next (v, u)) ∧
    (∀ u, DeviceFails s u → busRead width a word pc s = raise (.bus a width.bytes word pc) u) ∧
    ∀ r rs why, s.host.deviceScript = r :: rs → hostCalls r.calls { s with host.deviceScript := rs } = .fault why →
      busRead width a word pc s = .fault why) ∧
  (∀ (s : State) (v : Word) (u : State), busKind s.host.regions s.cpu.pc 4 = .device →
    (DeviceReads .word s v u → fetchWord s = .next (v, u)) ∧
    (DeviceFails s u → fetchWord s = raise (.bus s.cpu.pc 4 none s.cpu.pc) u)) ∧
  (∀ (byte : Bool) (f : LsImmFields) (m : Mode) (s : State),
    let i := Form.instr (.lsi byte true f)
    Ready i m s → DeviceLoads i byte m f.p f.u f.w f.rn f.rd (BitVec.ofNat 32 f.offset12.toNat) s) ∧
  (∀ (byte : Bool) (f : LsRegFields) (m : Mode) (s : State),
    let i := Form.instr (.lsr byte true f)
    Ready i m s → DeviceLoads i byte m f.p f.u f.w f.rn f.rd
      (immShift f.shift (readReg m f.rm s) f.shiftImm s.cpu.cpsr.c).b s) ∧
  ∀ (f : BtFields) (m : Mode) (s u : State) (slots : List (RegNum × Word × Word)), Ready (.ldm f) m s →
    let base := readReg m f.rn s
    base.toNat % 4 = 0 → slots.map (fun q => (q.1, q.2.1)) = btSlots f base → SlotsRead slots s u →
    (∀ q ∈ slots, q.1 = 15#4 → q.2.2.toNat % 4 = 0) →
    ∃ t, exec (.ldm f) s = .next t ∧ (∀ q ∈ slots, q.1 ≠ 15#4 → readReg m q.1 t = q.2.2) ∧
      (f.w = true → readReg m f.rn t = btFinal f base) ∧
      EngineKeeps (slots.filterMap (fun q => phys m q.1) ++ (if f.w then (phys m f.rn).toList else [])) s t ∧
      LeftBy u t ∧ (∀ q ∈ slots, q.1 = 15#4 → Jumped (.ldm f) q.2.2 s t) ∧
      (f.listed 15#4 = false → Advanced (.ldm f) s t)

/-! ## Block transfer (44_block_transfer.md) -/

/-- R341: the walk: the registers of the list in rising order upward and falling order downward, each at its slot of the
table of the four modes (the lowest register at the lowest address), and the written-back address. -/
def Obligations.WalkFollowsTable : Prop :=
  ∀ (f : BtFields) (base : Word),
    (btSlots f base).map Prod.fst =
      (if f.u then allRegs.filter (fun r => f.list.getLsbD r.toNat)
       else (allRegs.filter (fun r => f.list.getLsbD r.toNat)).reverse) ∧
    (∀ q ∈ btSlots f base, q.2 = btSlotAddr f base q.1) ∧ btFinal f base = btFinalAddr f base

/-- R343: LDM of plain memory: every listed register below R15, the writeback, R15 as a PC write with its alignment check,
and the frame. -/
def Obligations.LdmLoadsRegisters : Prop :=
  ∀ (f : BtFields) (m : Mode) (s : State), Ready (.ldm f) m s →
    let base := readReg m f.rn s
    base.toNat % 4 = 0 → (∀ q ∈ btSlots f base, s.plainAccess .word q.2 = true) →
    ((∀ q ∈ btSlots f base, q.1 = 15#4 → (s.mem.readWord q.2).toNat % 4 = 0) →
      ∃ t, exec (.ldm f) s = .next t ∧
        (∀ q ∈ btSlots f base, q.1 ≠ 15#4 → readReg m q.1 t = s.mem.readWord q.2) ∧
        (f.w = true → readReg m f.rn t = btFinal f base) ∧
        KeepsAllBut ((btSlots f base).filterMap (fun q => phys m q.1) ++ (if f.w then (phys m f.rn).toList else [])) [] []
          s t ∧
        (∀ q ∈ btSlots f base, q.1 = 15#4 → Jumped (.ldm f) (s.mem.readWord q.2) s t) ∧
        (f.listed 15#4 = false → Advanced (.ldm f) s t)) ∧
    ∀ q ∈ btSlots f base, q.1 = 15#4 → (s.mem.readWord q.2).toNat % 4 ≠ 0 →
      exec (.ldm f) s = raise (.unimpPcUnaligned (encode (.ldm f)) (s.cpu.pc - 8) (s.mem.readWord q.2)) s

/-- R344, R345: STM to plain memory: each slot holds its register's value from before the instruction (`A + 12` for R15), the
writeback, and the frame. -/
def Obligations.StmStoresRegisters : Prop :=
  ∀ (f : BtFields) (m : Mode) (s : State), Ready (.stm f) m s →
    let base := readReg m f.rn s
    base.toNat % 4 = 0 → (∀ q ∈ btSlots f base, s.plainAccess .word q.2 = true) →
    ∃ t, exec (.stm f) s = .next t ∧
      (s.mem.wf → ∀ q ∈ btSlots f base,
        t.mem.readWord q.2 = if q.1 = 15#4 then s.cpu.pc + 4 else readReg m q.1 s) ∧
      (f.w = true → readReg m f.rn t = btFinal f base) ∧
      KeepsAllBut (if f.w then (phys m f.rn).toList else [])
        ((btSlots f base).flatMap (fun q => accessAddrs q.2 4)) [] s t ∧
      Advanced (.stm f) s t

/-! ## Branch and system (46_branch_system.md) -/

/-- R390, R391: B and BL from an aligned `pc`; with BL the link register of the current mode receives `P - 4`. -/
def Obligations.BranchTargets : Prop :=
  (∀ (f : BrFields) (m : Mode) (s : State), Ready (.b f) m s → s.cpu.pc.toNat % 4 = 0 →
    ∃ t, exec (.b f) s = .next t ∧ Jumped (.b f) (s.cpu.pc + BitVec.ofInt 32 (f.offset24.toInt * 4)) s t ∧
      KeepsAllBut [] [] [] s t) ∧
  ∀ (f : BrFields) (m : Mode) (s : State), Ready (.bl f) m s → s.cpu.pc.toNat % 4 = 0 →
    ∃ t, exec (.bl f) s = .next t ∧ readReg m 14#4 t = s.cpu.pc - 4 ∧
      Jumped (.bl f) (s.cpu.pc + BitVec.ofInt 32 (f.offset24.toInt * 4)) s t ∧
      KeepsAllBut [.lr m.bank] [] [] s t

/-- R392: MRS reads CPSR, or the SPSR of the current mode, as a word with the reserved bits 0; a mode without SPSR faults, and
so does `Rd = 15`, at decode. -/
def Obligations.MrsReadsStatus : Prop :=
  (∀ p : Psr, p.laidOut p.toWord) ∧
  (∀ (f : MrsFields) (s : State), f.rd = 15#4 →
    exec (.mrs f) s = raise (.atDecode .unimpMrsPc (encode (.mrs f)) (s.cpu.pc - 8)) s) ∧
  ∀ (f : MrsFields) (m : Mode) (s : State), Ready (.mrs f) m s →
    (f.spsr = false → ∃ t, exec (.mrs f) s = .next t ∧ readReg m f.rd t = s.cpu.cpsr.toWord ∧
      KeepsAllBut (phys m f.rd).toList [] [] s t ∧ Advanced (.mrs f) s t) ∧
    (f.spsr = true → ∀ p, s.cpu.spsr.get m = some p →
      ∃ t, exec (.mrs f) s = .next t ∧ readReg m f.rd t = p.toWord ∧
        KeepsAllBut (phys m f.rd).toList [] [] s t ∧ Advanced (.mrs f) s t) ∧
    (f.spsr = true → m = .usr ∨ m = .sys →
      exec (.mrs f) s = raise (.unimpSpsrNone (encode (.mrs f)) (s.cpu.pc - 8)) s)

/-- R393 to R395: MSR, register and immediate form; `Rm = 15` faults at decode. -/
def Obligations.MsrWritesStatus : Prop :=
  (∀ (f : MsrRegFields) (s : State), f.rm = 15#4 →
    exec (.msrReg f) s = raise (.atDecode .unimpMsrPc (encode (.msrReg f)) (s.cpu.pc - 8)) s) ∧
  (∀ (f : MsrRegFields) (m : Mode) (s : State), Ready (.msrReg f) m s →
    MsrDoes (.msrReg f) f.spsr f.mask (readReg m f.rm s) m s) ∧
  ∀ (f : MsrImmFields) (m : Mode) (s : State), Ready (.msrImm f) m s →
    MsrDoes (.msrImm f) f.spsr f.mask ((f.imm8.setWidth 32).rotateRight (2 * f.rotate.toNat)) m s

/-- R396: SWI sets the pending bit of its class and advances; nothing else changes, whatever the comment field. If nothing
else is selected, the next fetch cycle selects SWI, whose service enters SVC at `0x08` with the address of the instruction
after the SWI in `R14_svc` and the CPSR of the SWI in `spsr[SVC]`. -/
def Obligations.SwiBecomesPending : Prop :=
  ∀ (f : SwiFields) (m : Mode) (s : State), Ready (.swi f) m s →
    ∃ t, exec (.swi f) s = .next t ∧ t.cpu.pending = { s.cpu.pending with swi := true } ∧
      t.cpu.regs = s.cpu.regs ∧ t.cpu.cpsr = s.cpu.cpsr ∧ t.cpu.spsr = s.cpu.spsr ∧ t.mem = s.mem ∧ t.log = s.log ∧
      OutsideSame s t ∧ Advanced (.swi f) s t ∧
      (selectException (pollLines s) = none → selectException (pollLines t) = some .swi) ∧
      (service .swi (pollLines t)).cpu.pc = 0x08#32 ∧ (service .swi (pollLines t)).mode = some .svc ∧
      (service .swi (pollLines t)).cpu.spsr.svc = s.cpu.cpsr ∧
      (s.cpu.queue.len = 2 → (service .swi (pollLines t)).cpu.regs.get (.lr .svc) = s.cpu.pc - 4)

/-! ## What every instruction shares (41_pipeline.md, 30_encoding.md) -/

/-- R210: an instruction whose condition fails advances, is charged, and does nothing else. -/
def Obligations.ConditionFailedOnlyAdvances : Prop :=
  ∀ (i : Instr) (s : State), i.checkWord = none → condHolds s.cpu.cpsr i.cond = false →
    InTime (baseCost s.config i) s →
    ∃ t, exec i s = .next t ∧ Advanced i s t ∧ t.cpu.regs = s.cpu.regs ∧ t.cpu.cpsr = s.cpu.cpsr ∧
      t.cpu.spsr = s.cpu.spsr ∧ t.cpu.pending = s.cpu.pending ∧ t.mem = s.mem ∧ t.log = s.log ∧ OutsideSame s t

/-- R209: each predicate as the rule's table gives it from the four flags. -/
def Obligations.ConditionPredicates : Prop :=
  ∀ p : Psr,
    (condHolds p .eq ↔ p.z) ∧ (condHolds p .ne ↔ ¬condHolds p .eq) ∧ (condHolds p .cs ↔ p.c) ∧
    (condHolds p .cc ↔ ¬condHolds p .cs) ∧ (condHolds p .mi ↔ p.n) ∧ (condHolds p .pl ↔ ¬condHolds p .mi) ∧
    (condHolds p .vs ↔ p.v) ∧ (condHolds p .vc ↔ ¬condHolds p .vs) ∧
    (condHolds p .hi ↔ condHolds p .ne ∧ condHolds p .cs) ∧ (condHolds p .ls ↔ ¬condHolds p .hi) ∧
    (condHolds p .ge ↔ (condHolds p .mi ↔ condHolds p .vs)) ∧ (condHolds p .lt ↔ ¬condHolds p .ge) ∧
    (condHolds p .gt ↔ condHolds p .ne ∧ condHolds p .ge) ∧ (condHolds p .le ↔ ¬condHolds p .gt) ∧
    condHolds p .al ∧ ¬condHolds p .nv

/-- R135, R136 and the restriction lists R249, R303, R342, R371, R392, R394: a word that breaks a word-only restriction stops
with the first fault of its list, whatever the condition, the mode and the rest of the state; no other word does. -/
def Obligations.RestrictedWordsFault : Prop :=
  (∀ i : Instr, i.checkWord = firstOf (restrictions i.form)) ∧
  ∀ (i : Instr) (s : State), (∀ k, firstOf (restrictions i.form) = some k →
      exec i s = raise (.atDecode k (encode i) (s.cpu.pc - 8)) s) ∧
    (firstOf (restrictions i.form) = none → ∀ k w a u, exec i s ≠ .fault (.fatal (.atDecode k w a) u))

/-- R213, R441, R446: an instruction that completes has consumed its entry's base cost, exactly; one whose cost would overflow
the counter stops with INT_STAMP_OVERFLOW, the counter, the cycles, its word and its address `A` (shown on a failed condition,
where the cost is the only effect, and on a branch, which has written R15 before the charge); and so does a fill step, whose
info, the fetch address and no word, is the model's choice (log 20). -/
def Obligations.InstructionsAreCharged : Prop :=
  (∀ (i : Instr) (s t : State), exec i s = .next t → Charged i s t) ∧
  (∀ (i : Instr) (s : State), i.checkWord = none → condHolds s.cpu.cpsr i.cond = false →
    ¬InTime (baseCost s.config i) s →
    exec i s = raise (.intCounterOverflow s.cpu.cycles (baseCost s.config i) (some (encode i)) (s.cpu.pc - 8)) s) ∧
  (∀ (f : BrFields) (m : Mode) (s : State), condHolds s.cpu.cpsr f.cond = true → s.mode = some m →
    s.cpu.pc.toNat % 4 = 0 → ∀ i ∈ [Instr.b f, .bl f], ¬InTime (baseCost s.config i) s →
    exec i s = raise (.intCounterOverflow s.cpu.cycles (baseCost s.config i) (some (encode i)) (s.cpu.pc - 8)) s) ∧
  ∀ (s : State) (boot : Bool), s.fault = none → configOk s = true → s.turn = .run boot →
    selectException (pollLines s) = none → s.cpu.queue.len < 2 → s.plainAccess .word s.cpu.pc = true → ¬InTime 1 s →
    step s = raise (.intCounterOverflow s.cpu.cycles 1 none s.cpu.pc) (pollLines s)

/-! ## Exceptions (60_exceptions.md) -/

/-- R432: the selection, in priority order, with the masks. -/
def Obligations.SelectionOrder : Prop :=
  ∀ s : State,
    selectException s =
      [(ExcClass.reset, s.cpu.pending.reset), (.dabt, s.cpu.pending.dabt), (.fiq, s.cpu.pending.fiq && !s.cpu.cpsr.f),
       (.irq, s.cpu.pending.irq && !s.cpu.cpsr.i), (.pabt, s.cpu.pending.pabt), (.swi, s.cpu.pending.swi)].findSome?
        (fun p => if p.2 then some p.1 else none)

/-- R430, R434, R435: service of each class with the parameters of R430's table: the saved status, the return address, the
new status, the vector, the flush, the cleared pending bit, and everything else as before. -/
def Obligations.ServiceEntersHandler : Prop :=
  ∀ (s : State), ∀ row ∈ [(ExcClass.reset, 0x00#32, Mode.svc, true, 0#32), (.dabt, 0x10#32, .abt, false, 4#32),
      (.fiq, 0x1C#32, .fiq, true, 4#32), (.irq, 0x18#32, .irq, false, 4#32), (.pabt, 0x0C#32, .abt, false, 4#32),
      (.swi, 0x08#32, .svc, false, 0#32)],
    let c := row.1
    let m := row.2.2.1
    let t := service c s
    t.cpu.pc = row.2.1 ∧ t.cpu.queue = .empty ∧
    t.cpu.regs.get (.lr m.bank) = s.cpu.pc - BitVec.ofNat 32 (4 * s.cpu.queue.len) + row.2.2.2.2 ∧
    RegsBut [.lr m.bank] s t ∧
    t.cpu.spsr.get m = some s.cpu.cpsr ∧ (∀ k, k ≠ m → t.cpu.spsr.get k = s.cpu.spsr.get k) ∧
    FlagsSame s t ∧ t.mode = some m ∧ t.cpu.cpsr.i = true ∧
    t.cpu.cpsr.f = (s.cpu.cpsr.f || row.2.2.2.1) ∧
    t.cpu.pending.get c = false ∧ (∀ k, k ≠ c → t.cpu.pending.get k = s.cpu.pending.get k) ∧
    t.cpu.cycles = s.cpu.cycles ∧ t.mem = s.mem ∧ t.log = s.log ∧ OutsideSame s t

/-- R201, R205, R214 with R434 and R435: a fetch cycle that selects class `c` enters its handler and fills the first word at
the vector in the same cycle, for one idle cycle; with the engine's invariant and a full queue the saved return address is
that of the next instruction plus the class's offset. The pending mask is that of the poll (R202) without the class's bit, and
the next turn is R217's. -/
def Obligations.ExceptionCycle : Prop :=
  ∀ (s : State) (c : ExcClass) (boot : Bool), s.fault = none → configOk s = true → s.turn = .run boot →
    selectException (pollLines s) = some c → s.plainAccess .word c.vector = true → InTime 1 s →
    ∃ t, step s = .next t ∧ t.cpu.pc = c.vector + 4 ∧
      t.cpu.queue = .one ⟨s.mem.readWord c.vector, c.vector⟩ ∧ t.cpu.cpsr = entryCpsr c s.cpu.cpsr ∧
      t.cpu.spsr.get c.mode = some s.cpu.cpsr ∧ t.cpu.regs.get (.lr c.mode.bank) = returnAddr c s ∧
      RegsBut [.lr c.mode.bank] s t ∧ t.cpu.pending = (pendingAfterPoll s).set c false ∧ t.host = hostAfterPoll s ∧
      t.cpu.cycles.toNat = s.cpu.cycles.toNat + s.config.cpuClockScale ∧ t.mem = s.mem ∧ t.log = s.log ∧
      t.sched = s.sched ∧ t.turn = turnAfterCycle boot t ∧
      (EngineInv s → ∀ q0 q1, s.cpu.queue = .two q0 q1 → t.cpu.regs.get (.lr c.mode.bank) = q0.addr + c.offset)

/-- R490 to R493: the first fetch cycle after power-on, for any parameters, memory and line levels: reset is serviced and the
word at 0 is fetched. Where the host takes no step of its own before it (R494), the step before it begins the first
iteration (log 6). -/
def Obligations.ResetCycle : Prop :=
  ∀ (config : Config) (mem : Memory) (lines : Lines),
    let s := { State.powerOn config with mem := mem, host := { HostEnv.quiet with lines := lines } }
    configOk s = true → lookahead config < 2 ^ 64 → config.cpuClockScale < 2 ^ 64 →
    step s = .next { s with turn := .run false } ∧
    ∀ boot : Bool, ∃ t, step { s with turn := .run boot } = .next t ∧ t.cpu.cpsr.toWord = 0x000000D3#32 ∧
      t.cpu.spsr = Spsrs.zero ∧ t.cpu.regs = RegFile.zero ∧ t.cpu.pc = 4 ∧ t.cpu.queue = .one ⟨mem.readWord 0, 0⟩ ∧
      t.cpu.pending = ⟨false, false, lines.fiq, lines.irq, false, false⟩ ∧
      t.cpu.cycles.toNat = config.cpuClockScale ∧ t.mem = mem ∧ t.sched = Sched.powerOn config

/-! ## The fetch cycle (41_pipeline.md) -/

/-- R201, R206, R207, R217: when the engine's turn finds a full queue after the dispatch, the word at `pc` is fetched, and
the step is the execution of the instruction the oldest word decodes to, in the state that has that word at the end of the
queue, and the next turn is R217's, read after the execution; the dispatch was the poll alone (R202); under the engine's
invariant that instruction's address `A` is `pc - 8`. -/
def Obligations.StepRunsDecodedInstruction : Prop :=
  ∀ (s : State) (boot : Bool) (q0 q1 : Fetched) (i : Instr), s.fault = none → configOk s = true → s.turn = .run boot →
    (dispatched s).cpu.queue = .two q0 q1 → decodeWord q0.word = .ok i → s.plainAccess .word (dispatched s).cpu.pc = true →
    let u := { dispatched s with
      cpu.queue := .two q1 ⟨s.mem.readWord (dispatched s).cpu.pc, (dispatched s).cpu.pc⟩ }
    (step s = match exec i u with
      | .next t => .next { t with turn := turnAfterCycle boot t }
      | .fault r => .fault r
      | .refused r => .refused r) ∧
    dispatched s = { s with cpu.pending := pendingAfterPoll s, host := hostAfterPoll s } ∧
    (EngineInv s → u.cpu.pc - 8 = q0.addr ∧ u.cpu.pc - 4 = q1.addr)

/-- R205: a fetch cycle that finds the queue not full (and no exception to service) fetches the word at `pc`, advances, costs
one cycle and changes nothing else of the engine. R202, R439: after the poll the pending IRQ and FIQ bits are the levels of the
lines, whatever they were before, the other four bits are kept, and the script of levels has lost its head (log 4). The next
turn is R217's. -/
def Obligations.FillStepFetches : Prop :=
  ∀ (s : State) (boot : Bool), s.fault = none → configOk s = true → s.turn = .run boot → selectException (pollLines s) = none →
    s.cpu.queue.len < 2 → s.plainAccess .word s.cpu.pc = true → InTime 1 s →
    ∃ t, step s = .next t ∧ t.cpu.pc = s.cpu.pc + 4 ∧
      (s.cpu.queue = .empty → t.cpu.queue = .one ⟨s.mem.readWord s.cpu.pc, s.cpu.pc⟩) ∧
      (∀ q0, s.cpu.queue = .one q0 → t.cpu.queue = .two q0 ⟨s.mem.readWord s.cpu.pc, s.cpu.pc⟩) ∧
      t.cpu.cycles.toNat = s.cpu.cycles.toNat + s.config.cpuClockScale ∧ t.cpu.regs = s.cpu.regs ∧
      t.cpu.cpsr = s.cpu.cpsr ∧ t.cpu.spsr = s.cpu.spsr ∧ t.cpu.pending = pendingAfterPoll s ∧ t.host = hostAfterPoll s ∧
      t.mem = s.mem ∧ t.log = s.log ∧ t.sched = s.sched ∧ t.turn = turnAfterCycle boot t

/-- R137, R441, R54, R82, R216: a word that matches no entry stops the step, with the word and its address, after the fetch;
a session that has faulted, for any reason, takes no step, has its engine as it was before the faulting step, and everything
outside the engine as that step left it (log 15); and a session whose LOOKAHEAD is no stamp has faulted when it is constructed
(R151, R446; log 22). -/
def Obligations.FaultsEndTheSession : Prop :=
  (∀ (s : State) (boot : Bool) (q0 q1 : Fetched) (e : DecodeError), s.fault = none → configOk s = true →
    s.turn = .run boot → (dispatched s).cpu.queue = .two q0 q1 → decodeWord q0.word = .error e →
    s.plainAccess .word (dispatched s).cpu.pc = true → step s = raise (.unimpNoDecode q0.word q0.addr) (dispatched s)) ∧
  (∀ (s : State) (r : Fault), step s = .fault r →
    (recordFault r s).cpu = s.cpu ∧ (recordFault r s).world = r.world ∧ step (recordFault r s) = .fault r) ∧
  ∀ config : Config, 0 < config.nDomains → 2 ^ 64 ≤ lookahead config →
    step (State.powerOn config) = raise (.intStampOverflow 0 (lookahead config)) (State.powerOn config)

/-! ## Scheduler and driver (40_scheduler.md, 41_pipeline.md) -/

/-- R152, R153: schedule, with the two integrity faults; the event stands right after the last event no later than its stamp
when `TIE_ORDER = FIFO`. -/
def Obligations.ScheduleInserts : Prop :=
  ∀ (d e : Nat) (w : Stamp) (s : State) (c : Clock) (x : EventSlot), s.clock d = some c → s.event e = some x →
    (x.link ≠ .unscheduled → schedule d e w s = raise (.intScheduleLinked e d c.stamp) s) ∧
    (x.link = .unscheduled → s.config.integrityChecks = true → w < c.stamp →
      schedule d e w s = raise (.intSchedulePast e w c.stamp) s) ∧
    (x.link = .unscheduled → (s.config.integrityChecks = true → c.stamp ≤ w) → s.config.tieOrder = .fifo →
      ∃ t before after, schedule d e w s = .next t ∧ c.list = before ++ after ∧
        t.clock d = some ⟨c.stamp, whenOf t.sched.events ((before ++ [e]).headD e), before ++ e :: after⟩ ∧
        (∀ g ∈ after, w < whenOf t.sched.events g) ∧
        (before = [] ∨ ∃ g, before.getLast? = some g ∧ whenOf t.sched.events g ≤ w) ∧
        t.event e = some ⟨w, x.handler, .inDomain d⟩ ∧ (∀ k, k ≠ e → t.event k = s.event k) ∧
        (∀ k, k ≠ d → t.clock k = s.clock k) ∧ HostSame s t)

/-- R154: cancel, with its two integrity faults; the others keep their order, `when[e]` keeps its value, and the target is
recomputed, which overflows only for an emptied list. -/
def Obligations.CancelRemoves : Prop :=
  ∀ (d e : Nat) (s : State) (c : Clock) (x : EventSlot), s.clock d = some c → s.event e = some x →
    (x.link ≠ .inDomain d → cancel d e s = raise (.intCancelUnlinked e d c.stamp) s) ∧
    (x.link = .inDomain d → s.config.integrityChecks = true → x.when < c.stamp →
      cancel d e s = raise (.intCancelPast e x.when c.stamp) s) ∧
    (x.link = .inDomain d → (s.config.integrityChecks = true → c.stamp ≤ x.when) →
      (c.list.filter (fun g => g != e) = [] → c.stamp.toNat + lookahead s.config < 2 ^ 64) →
      ∃ t k, cancel d e s = .next t ∧ t.clock d = some k ∧ k.stamp = c.stamp ∧ k.list = c.list.filter (fun g => g != e) ∧
        k.targetRight s.config s.sched.events ∧ t.event e = some ⟨x.when, x.handler, .unscheduled⟩ ∧
        (∀ g, g ≠ e → t.event g = s.event g) ∧ (∀ k, k ≠ d → t.clock k = s.clock k) ∧ HostSame s t) ∧
    (x.link = .inDomain d → (s.config.integrityChecks = true → c.stamp ≤ x.when) →
      c.list.filter (fun g => g != e) = [] → 2 ^ 64 ≤ c.stamp.toNat + lookahead s.config →
      cancel d e s = raise (.intStampOverflow c.stamp (lookahead s.config))
        ((s.setEvent e { x with link := .unscheduled }).setClock d { c with list := [] }))

/-- R155: pop, NONE on an empty list, with its integrity fault; the head is unlinked and the target recomputed. -/
def Obligations.PopTakesEarliest : Prop :=
  ∀ (d : Nat) (s : State) (c : Clock), s.clock d = some c →
    (c.list = [] → popEarliest d s = .next (none, s)) ∧
    ∀ h rest x, c.list = h :: rest → s.event h = some x →
      (s.config.integrityChecks = true → x.when < c.stamp → popEarliest d s = raise (.intPopPast h x.when c.stamp) s) ∧
      ((s.config.integrityChecks = true → c.stamp ≤ x.when) → (rest = [] → c.stamp.toNat + lookahead s.config < 2 ^ 64) →
        ∃ t k, popEarliest d s = .next (some h, t) ∧ t.clock d = some k ∧ k.stamp = c.stamp ∧ k.list = rest ∧
          k.targetRight s.config s.sched.events ∧ t.event h = some ⟨x.when, x.handler, .unscheduled⟩ ∧
          (∀ g, g ≠ h → t.event g = s.event g) ∧ (∀ k, k ≠ d → t.clock k = s.clock k) ∧ HostSame s t) ∧
      ((s.config.integrityChecks = true → c.stamp ≤ x.when) → rest = [] → 2 ^ 64 ≤ c.stamp.toNat + lookahead s.config →
        popEarliest d s = raise (.intStampOverflow c.stamp (lookahead s.config))
          ((s.setEvent h { x with link := .unscheduled }).setClock d { c with list := [] }))

/-- R158: the stamp moves forward only, never past a linked event while the checks are enabled, and the target follows. -/
def Obligations.AdvanceStampMovesForward : Prop :=
  ∀ (d : Nat) (w : Stamp) (s : State) (c : Clock), s.clock d = some c →
    (w < c.stamp → advanceStamp d w s = raise (.intStampRollback w c.stamp) s) ∧
    (∀ h rest, c.list = h :: rest → c.stamp ≤ w → s.config.integrityChecks = true → whenOf s.sched.events h < w →
      advanceStamp d w s = raise (.intStampOverrun w (whenOf s.sched.events h)) s) ∧
    (c.stamp ≤ w → (s.config.integrityChecks = true → ∀ h ∈ c.list.head?, w ≤ whenOf s.sched.events h) →
      (c.list = [] → w.toNat + lookahead s.config < 2 ^ 64) →
      ∃ t k, advanceStamp d w s = .next t ∧ t.clock d = some k ∧ k.stamp = w ∧ k.list = c.list ∧
        k.targetRight s.config s.sched.events ∧ t.sched.events = s.sched.events ∧
        (∀ k, k ≠ d → t.clock k = s.clock k) ∧ HostSame s t) ∧
    (c.stamp ≤ w → c.list = [] → 2 ^ 64 ≤ w.toNat + lookahead s.config →
      advanceStamp d w s = raise (.intStampOverflow w (lookahead s.config)) (s.setClock d { c with stamp := w }))

/-- R159: a handler is set on an unscheduled event only, and no operation a host can call writes the `when` (or the handler)
of a linked event. -/
def Obligations.InitEventSetsHandler : Prop :=
  ∀ (e k : Nat) (s : State) (x : EventSlot), s.event e = some x →
    (x.link ≠ .unscheduled → ∀ c t, hostCall c s = .next t →
      ∃ y, t.event e = some y ∧ y.when = x.when ∧ y.handler = x.handler) ∧
    (x.link ≠ .unscheduled → initEvent e k s = raise (.intEventMutateLinked e) s) ∧
    (x.link = .unscheduled → ∃ t, initEvent e k s = .next t ∧ t.event e = some ⟨x.when, k, .unscheduled⟩ ∧
      (∀ g, g ≠ e → t.event g = s.event g) ∧ t.sched.clocks = s.sched.clocks ∧ HostSame s t)

/-- R163 (a), (c), (d), R156, R157: under the scheduler invariants the earliest event has the least `when` of its domain, the
target is its `when` or the stamp plus LOOKAHEAD, and an event cancelled and scheduled again at its own stamp, where no other
event has that stamp, leaves the domain as it was. With `TIE_ORDER` open (log 9) schedule puts the event somewhere among its
equals, after as many of them as the free value says, and takes that value. -/
def Obligations.SchedulerLaws : Prop :=
  ∀ (d : Nat) (s : State) (c : Clock), SchedulerInv s → s.clock d = some c →
    (∀ h, peekEarliest d s = some h → ∀ e x, s.event e = some x → x.link = .inDomain d →
      whenOf s.sched.events h ≤ x.when) ∧
    (peekEarliest d s = none → ∀ e x, s.event e = some x → x.link ≠ .inDomain d) ∧
    (∀ h, peekEarliest d s = some h → targetStamp d s = some (whenOf s.sched.events h)) ∧
    (peekEarliest d s = none → ∃ w, targetStamp d s = some w ∧ w.toNat = c.stamp.toNat + lookahead s.config) ∧
    (∀ e x t u, s.event e = some x → (∀ g ∈ c.list, g ≠ e → whenOf s.sched.events g ≠ x.when) →
      cancel d e s = .next t → schedule d e x.when t = .next u → u.clock d = some c ∧ u.event e = some x) ∧
    ∀ e x w, s.event e = some x → x.link = .unscheduled → (s.config.integrityChecks = true → c.stamp ≤ w) →
      s.config.tieOrder = .anyOrder →
      ∃ t before after, schedule d e w s = .next t ∧ c.list = before ++ after ∧
        t.clock d = some ⟨c.stamp, whenOf t.sched.events ((before ++ [e]).headD e), before ++ e :: after⟩ ∧
        (∀ g ∈ before, whenOf t.sched.events g ≤ w) ∧ (∀ g ∈ after, w ≤ whenOf t.sched.events g) ∧
        (before.filter (fun g => whenOf t.sched.events g == w)).length =
          min (Config.tieChoice s.draws) (c.list.filter (fun g => whenOf t.sched.events g == w)).length ∧
        t.event e = some ⟨w, x.handler, .inDomain d⟩ ∧ (∀ k, k ≠ e → t.event k = s.event k) ∧
        (∀ k, k ≠ d → t.clock k = s.clock k) ∧ t.draws = s.draws + 1 ∧ HostSame s t

/-- R232, R217, R234, R494: the driver's turns, cut as log 6 says. The advance moves the stamp to the larger of target and stamp
and goes on to the drain; the drain pops the due head and runs its handler, which does what its script says (log 5), and
stays in the drain; with nothing due the host's waiting calls come, one a step, and then the next iteration, of the domain the
host has chosen or else the engine's (log 7), with the engine running if it is below its target. Before the first iteration
the host makes its calls, and runs the engine, in the order it has chosen. After any fetch cycle the engine goes on exactly
while its counter is below its domain's target, read after the cycle; else the advance follows, or, before the first
iteration, the host (R217). -/
def Obligations.DriverIteration : Prop :=
  (∀ (d : Nat) (s : State) (c : Clock), s.fault = none → configOk s = true → SchedulerInv s → s.clock d = some c →
    s.config.integrityChecks = true →
    (s.turn = .advance d → (c.list = [] → c.target.toNat + lookahead s.config < 2 ^ 64) →
      ∃ t k, step s = .next t ∧ t.turn = .drain d ∧ t.clock d = some k ∧
        k.stamp = (if c.stamp < c.target then c.target else c.stamp) ∧ k.list = c.list ∧ t.cpu = s.cpu ∧
        (c.list = [] → k.stamp.toNat = c.stamp.toNat + lookahead s.config)) ∧
    (∀ h rest x, s.turn = .drain d → c.list = h :: rest → s.event h = some x → x.when ≤ c.stamp →
      (∀ p ∈ s.host.handlerScript, p.1 ≠ x.handler) → c.stamp.toNat + lookahead s.config < 2 ^ 64 →
      ∃ t k, step s = .next t ∧ t.turn = .drain d ∧ t.clock d = some k ∧ k.stamp = c.stamp ∧ k.list = rest ∧
        t.event h = some ⟨x.when, x.handler, .unscheduled⟩ ∧ t.cpu = s.cpu)) ∧
  (∀ (d : Nat) (s : State) (c : Clock), s.fault = none → configOk s = true → s.clock d = some c → s.turn = .drain d →
    (∀ h rest x before calls after p, c.list = h :: rest → s.event h = some x → x.when ≤ c.stamp →
      s.host.handlerScript = before ++ (x.handler, calls) :: after → (∀ q ∈ before, q.1 ≠ x.handler) →
      popEarliest d s = .next (some h, p) →
      step s = hostCalls calls { p with host.handlerScript := before ++ after } ∧
      ∀ t, step s = .next t → t.turn = .drain d ∧ t.cpu = s.cpu ∧ t.log = s.log) ∧
    ((∀ h ∈ c.list.head?, c.stamp < whenOf s.sched.events h) →
      (s.host.inbox ≠ [] → step s = .next { s with turn := .host }) ∧
      (s.host.inbox = [] → ∃ t, step s = .next t ∧ BeginsIteration s t))) ∧
  (∀ s : State, s.fault = none → configOk s = true → s.turn = .host →
    (∀ call rest, s.host.inbox = call :: rest → step s = hostCall call { s with host.inbox := rest }) ∧
    (s.host.inbox = [] → ∃ t, step s = .next t ∧ BeginsIteration s t)) ∧
  (∀ (s t : State) (boot : Bool), s.turn = .run boot → step s = .next t → t.turn = turnAfterCycle boot t) ∧
  ∀ s : State, s.fault = none → configOk s = true → s.turn = .boot →
    (∀ call rest, s.host.boot = .call call :: rest → step s = hostCall call { s with host.boot := rest }) ∧
    (∀ rest k, s.host.boot = .runCpu :: rest → s.clock s.config.engineDomain = some k →
      step s = .next { s with host.boot := rest, turn := if s.cpu.cycles < k.target then .run true else .boot }) ∧
    (s.host.boot = [] → ∃ t, step s = .next t ∧ BeginsIteration s t)

/-! ## Memory and registers (20_memory.md, 10_state.md) -/

/-- R84, R85 (derived): little-endian byte order of a word written to canonical memory, and the mixed-width view. The rules speak
of an access at `a` as bytes `a` to `a + 3`, R85 of a word-aligned `a`; that the bytes of an access across the top of the
address space lie at addresses modulo 2^32 is log 16. -/
def Obligations.LittleEndianMemory : Prop :=
  ∀ (m : Memory) (a v : Word), m.wf →
    (∀ k < 4, (m.writeWord a v).readByte (a + BitVec.ofNat 32 k) = v.extractLsb' (8 * k) 8) ∧
    (m.writeWord a v).readWord a = v ∧
    (∀ b : Word, b.toNat ∉ accessAddrs a 4 → (m.writeWord a v).readByte b = m.readByte b) ∧
    ∀ b : Byte, ((m.writeWord a v).writeByte (a + 1) b).readWord a =
      v.extractLsb' 16 16 ++ b ++ v.extractLsb' 0 8

/-- R33, R36, R502: the bank each visible register of each mode names; that no two visible registers of a mode share storage:
a write of one is read back from it alone; and that R15 reads `pc`, or `pc + 4` where a shift amount comes from a
register. -/
def Obligations.BankSelection : Prop :=
  (∀ (m : Mode) (r : RegNum),
    phys m r =
      if h : r.toNat < 8 then some (.low ⟨r.toNat, h⟩)
      else if h : r.toNat < 13 then
        some (if m = .fiq then .midFiq ⟨r.toNat - 8, by omega⟩ else .midUsr ⟨r.toNat - 8, by omega⟩)
      else if r.toNat = 15 then none
      else
        let b : Bank := match m with
          | .usr => .usr
          | .sys => .usr
          | .fiq => .fiq
          | .irq => .irq
          | .svc => .svc
          | .abt => .abt
          | .und => .und
        some (if r.toNat = 13 then .sp b else .lr b)) ∧
  (∀ (m : Mode) (r q : RegNum) (v : Word) (s : State), r ≠ 15#4 →
    readReg m q (writeReg m r v s) = if q = r then v else readReg m q s) ∧
  ∀ (m : Mode) (r : RegNum) (s : State), readReg m 15#4 s = s.cpu.pc ∧
    readRegLate m r s = if r = 15#4 then s.cpu.pc + 4 else readReg m r s

/-- R56: every piece of state the rule gives a power-on value, for any parameters whose LOOKAHEAD is a stamp. -/
def Obligations.PowerOnState : Prop :=
  ∀ config : Config, lookahead config < 2 ^ 64 →
    let s := State.powerOn config
    (∀ p, s.cpu.regs.get p = 0) ∧ s.cpu.pc = 0 ∧ s.cpu.cpsr.toWord = 0 ∧
    (∀ m p, s.cpu.spsr.get m = some p → p.toWord = 0) ∧ s.cpu.queue = .empty ∧
    s.cpu.pending = ⟨true, false, false, false, false, false⟩ ∧ s.cpu.cycles = 0 ∧ s.fault = none ∧ s.log = [] ∧
    s.sched.clocks.length = config.nDomains ∧ s.sched.events.length = config.nEvents ∧
    (∀ d c, s.clock d = some c → c.stamp = 0 ∧ c.list = [] ∧ c.target.toNat = lookahead config) ∧
    (∀ e x, s.event e = some x → x.link = .unscheduled)

/-! ## Decoding (30_encoding.md) -/

/-- Every well-formed instruction, with every operand at every value of its field, decodes from its own word, and from the
bytes of that word whatever follows. -/
def Obligations.DecodeOfEncode : Prop :=
  ∀ (i : Instr) (rest : List Byte), i.wellFormed = true →
    decodeWord (encode i) = .ok i ∧ decode (bytesOfWord (encode i) ++ rest) = .ok (i, rest)

/-- A word that decodes is the word of the instruction it decodes to, which is well-formed: no bit is dropped, and no two
words decode alike. -/
def Obligations.EncodeOfDecode : Prop :=
  ∀ (w : Word) (i : Instr), decodeWord w = .ok i → encode i = w ∧ i.wellFormed = true

/-- R138: the words that match no entry are exactly the three classes of the rule. -/
def Obligations.UndecodableWords : Prop :=
  ∀ w : Word, decodeWord w = .error (.noEntry w) ↔
    (w.extractLsb' 25 3 = 0b000#3 ∧ w.getLsbD 7 = true ∧ w.getLsbD 4 = true ∧
      ¬(w.extractLsb' 22 6 = 0#6 ∧ w.extractLsb' 4 4 = 0b1001#4)) ∨
    (w.extractLsb' 25 3 = 0b011#3 ∧ w.getLsbD 4 = true) ∨
    (w.extractLsb' 25 3 = 0b110#3 ∨ w.extractLsb' 24 4 = 0b1110#4)

/-- R143: the example word of each format decodes to the instruction the rule names. -/
def Obligations.ExampleWordsDecode : Prop :=
  ∀ p ∈ [
    (0xE3A00C01#32, Instr.movImm ⟨.al, false, 0#4, 0#4, 0xC#4, 0x01#8⟩),
    (0xE0800001#32, .addSh ⟨.al, false, 0#4, 0#4, 0#5, .lsl, 1#4⟩),
    (0xE1A02311#32, .movRsh ⟨.al, false, 0#4, 2#4, 3#4, .lsl, 1#4⟩),
    (0xE0020190#32, .mul ⟨.al, false, 2#4, 0#4, 1#4, 0#4⟩),
    (0xE14F4000#32, .mrs ⟨.al, true, 4#4⟩),
    (0xE121F000#32, .msrReg ⟨.al, false, 0b0001#4, 0#4⟩),
    (0xE321F010#32, .msrImm ⟨.al, false, 0b0001#4, 0#4, 0x10#8⟩),
    (0xE5901004#32, .ldrImm ⟨.al, true, true, false, 0#4, 1#4, 4#12⟩),
    (0xE7602103#32, .strbReg ⟨.al, true, false, true, 0#4, 2#4, 2#5, .lsl, 3#4⟩),
    (0xE920000E#32, .stm ⟨.al, true, false, false, true, 0#4, 0x000E#16⟩),
    (0x1AFFFFFC#32, .b ⟨.ne, 0xFFFFFC#24⟩),
    (0xEF000012#32, .swi ⟨.al, 0x000012#24⟩)],
    decodeWord p.1 = .ok p.2

/-! ## Rules of the whole machine -/

/-- R58, R393, R447: an instruction that completes in mode `m` changes only registers visible in `m`; in USR it changes
neither the mode, nor the masks, nor an SPSR. -/
def Obligations.ModesAreConfined : Prop :=
  ∀ (i : Instr) (m : Mode) (s t : State), s.mode = some m → exec i s = .next t →
    (∀ p, (∀ r, phys m r ≠ some p) → t.cpu.regs.get p = s.cpu.regs.get p) ∧
    (m = .usr → ControlSame s t ∧ t.cpu.spsr = s.cpu.spsr)

/-- R47, R39, R42, R431: the engine's invariant is kept by every step from every state. -/
def Obligations.StepKeepsEngineInv : Prop := ∀ s t : State, EngineInv s → step s = .next t → EngineInv t

/-- R50, R49: the scheduler invariants are kept by every step from every state, whatever the host's calls. -/
def Obligations.StepKeepsSchedulerInv : Prop := ∀ s t : State, SchedulerInv s → step s = .next t → SchedulerInv t

/-- Memory stays in its canonical form. -/
def Obligations.StepKeepsMemoryForm : Prop := ∀ s t : State, s.mem.wf → step s = .next t → t.mem.wf

/-- R48, R158, R218, R233: no step moves any domain's stamp backward, or the engine's cycle counter; only the driver's advance of
a domain moves that domain's stamp, whatever handlers, devices and the host do; and the counter stays at or past the stamp of
the engine's domain. That no handler, device or host call moves a stamp, and so the last two clauses, rest on the model's
choice of log 23 (DEDUCED), which reads R161's "any operation of this file" within R218: `HostCall` has no `advance_stamp`. -/
def Obligations.StampsNeverRollBack : Prop :=
  ∀ s t : State, step s = .next t →
    (∀ d c, s.clock d = some c →
      ∃ k, t.clock d = some k ∧ c.stamp ≤ k.stamp ∧ (s.turn ≠ .advance d → k.stamp = c.stamp)) ∧
    s.cpu.cycles ≤ t.cpu.cycles ∧ (CounterInv s → CounterInv t)

/-- The invariants hold at reset. -/
def Obligations.InvariantsAtReset : Prop :=
  EngineInv State.reset ∧ SchedulerInv State.reset ∧ State.reset.mem.wf ∧ CounterInv State.reset

/-! ## Writes to a device (20_memory.md) -/

/-- The model's choice (log 3) of what a device write does: nothing in plain memory but what the host calls of the scripted
reply do, and nothing at all when none is scripted; a reply that fails is the fault BUS, after its calls. It is so of every
write of the bus, and so of STR and STRB in both formats, and of STM, whose slots may lie in plain memory or in devices. -/
def Obligations.DeviceTakesStore : Prop :=
  (∀ (width : Width) (a v : Word) (word : Option Word) (pc : Word) (s : State),
    busKind s.host.regions a width.bytes = .device →
    (∀ u, DeviceWrites s u → busWrite width a v word pc s = .next u) ∧
    (∀ u, DeviceFails s u → busWrite width a v word pc s = raise (.bus a width.bytes word pc) u) ∧
    ∀ r rs why, s.host.deviceScript = r :: rs → hostCalls r.calls { s with host.deviceScript := rs } = .fault why →
      busWrite width a v word pc s = .fault why) ∧
  (∀ (byte : Bool) (f : LsImmFields) (m : Mode) (s : State),
    let i := Form.instr (.lsi byte false f)
    Ready i m s → DeviceStores i byte m f.p f.u f.w f.rn (BitVec.ofNat 32 f.offset12.toNat) s) ∧
  (∀ (byte : Bool) (f : LsRegFields) (m : Mode) (s : State),
    let i := Form.instr (.lsr byte false f)
    Ready i m s → DeviceStores i byte m f.p f.u f.w f.rn
      (immShift f.shift (readReg m f.rm s) f.shiftImm s.cpu.cpsr.c).b s) ∧
  ∀ (f : BtFields) (m : Mode) (s u : State), Ready (.stm f) m s →
    let base := readReg m f.rn s
    base.toNat % 4 = 0 →
    SlotsWritten ((btSlots f base).map fun q => (q.2, if q.1 = 15#4 then s.cpu.pc + 4 else readReg m q.1 s)) s u →
    ∃ t, exec (.stm f) s = .next t ∧ (f.w = true → readReg m f.rn t = btFinal f base) ∧
      EngineKeeps (if f.w then (phys m f.rn).toList else []) s t ∧ LeftBy u t ∧ Advanced (.stm f) s t
end

