-- ==== Sys2Proof/Laws/State.lean ====
section
/-!
SUPPORT. Beside State: what each update of the state does to each field, one lemma per field per update, so that no proof
unfolds a record update.
-/

namespace Sys2Proof.Machine

open Sys2Proof

/-! ## setCpsr -/

@[simp] theorem setCpsr_regs (s : State) (p : Psr) : (s.setCpsr p).cpu.regs = s.cpu.regs := rfl

@[simp] theorem setCpsr_pc (s : State) (p : Psr) : (s.setCpsr p).cpu.pc = s.cpu.pc := rfl

@[simp] theorem setCpsr_cpsr (s : State) (p : Psr) : (s.setCpsr p).cpu.cpsr = p := rfl

@[simp] theorem setCpsr_spsr (s : State) (p : Psr) : (s.setCpsr p).cpu.spsr = s.cpu.spsr := rfl

@[simp] theorem setCpsr_queue (s : State) (p : Psr) : (s.setCpsr p).cpu.queue = s.cpu.queue := rfl

@[simp] theorem setCpsr_pending (s : State) (p : Psr) : (s.setCpsr p).cpu.pending = s.cpu.pending := rfl

@[simp] theorem setCpsr_cycles (s : State) (p : Psr) : (s.setCpsr p).cpu.cycles = s.cpu.cycles := rfl

@[simp] theorem setCpsr_sched (s : State) (p : Psr) : (s.setCpsr p).sched = s.sched := rfl

@[simp] theorem setCpsr_mem (s : State) (p : Psr) : (s.setCpsr p).mem = s.mem := rfl

@[simp] theorem setCpsr_host (s : State) (p : Psr) : (s.setCpsr p).host = s.host := rfl

@[simp] theorem setCpsr_log (s : State) (p : Psr) : (s.setCpsr p).log = s.log := rfl

@[simp] theorem setCpsr_fault (s : State) (p : Psr) : (s.setCpsr p).fault = s.fault := rfl

@[simp] theorem setCpsr_turn (s : State) (p : Psr) : (s.setCpsr p).turn = s.turn := rfl

@[simp] theorem setCpsr_draws (s : State) (p : Psr) : (s.setCpsr p).draws = s.draws := rfl

@[simp] theorem setCpsr_config (s : State) (p : Psr) : (s.setCpsr p).config = s.config := rfl

/-! ## setSpsr -/

@[simp] theorem setSpsr_regs (s : State) (m : Mode) (p : Psr) : (s.setSpsr m p).cpu.regs = s.cpu.regs := rfl

@[simp] theorem setSpsr_pc (s : State) (m : Mode) (p : Psr) : (s.setSpsr m p).cpu.pc = s.cpu.pc := rfl

@[simp] theorem setSpsr_cpsr (s : State) (m : Mode) (p : Psr) : (s.setSpsr m p).cpu.cpsr = s.cpu.cpsr := rfl

@[simp] theorem setSpsr_spsr (s : State) (m : Mode) (p : Psr) : (s.setSpsr m p).cpu.spsr = s.cpu.spsr.set m p := rfl

@[simp] theorem setSpsr_queue (s : State) (m : Mode) (p : Psr) : (s.setSpsr m p).cpu.queue = s.cpu.queue := rfl

@[simp] theorem setSpsr_pending (s : State) (m : Mode) (p : Psr) : (s.setSpsr m p).cpu.pending = s.cpu.pending := rfl

@[simp] theorem setSpsr_cycles (s : State) (m : Mode) (p : Psr) : (s.setSpsr m p).cpu.cycles = s.cpu.cycles := rfl

@[simp] theorem setSpsr_sched (s : State) (m : Mode) (p : Psr) : (s.setSpsr m p).sched = s.sched := rfl

@[simp] theorem setSpsr_mem (s : State) (m : Mode) (p : Psr) : (s.setSpsr m p).mem = s.mem := rfl

@[simp] theorem setSpsr_host (s : State) (m : Mode) (p : Psr) : (s.setSpsr m p).host = s.host := rfl

@[simp] theorem setSpsr_log (s : State) (m : Mode) (p : Psr) : (s.setSpsr m p).log = s.log := rfl

@[simp] theorem setSpsr_fault (s : State) (m : Mode) (p : Psr) : (s.setSpsr m p).fault = s.fault := rfl

@[simp] theorem setSpsr_turn (s : State) (m : Mode) (p : Psr) : (s.setSpsr m p).turn = s.turn := rfl

@[simp] theorem setSpsr_draws (s : State) (m : Mode) (p : Psr) : (s.setSpsr m p).draws = s.draws := rfl

@[simp] theorem setSpsr_config (s : State) (m : Mode) (p : Psr) : (s.setSpsr m p).config = s.config := rfl

/-! ## advance -/

@[simp] theorem advance_regs (s : State) : (advance s).cpu.regs = s.cpu.regs := rfl

@[simp] theorem advance_pc (s : State) : (advance s).cpu.pc = s.cpu.pc + 4 := rfl

@[simp] theorem advance_cpsr (s : State) : (advance s).cpu.cpsr = s.cpu.cpsr := rfl

@[simp] theorem advance_spsr (s : State) : (advance s).cpu.spsr = s.cpu.spsr := rfl

@[simp] theorem advance_queue (s : State) : (advance s).cpu.queue = s.cpu.queue := rfl

@[simp] theorem advance_pending (s : State) : (advance s).cpu.pending = s.cpu.pending := rfl

@[simp] theorem advance_cycles (s : State) : (advance s).cpu.cycles = s.cpu.cycles := rfl

@[simp] theorem advance_sched (s : State) : (advance s).sched = s.sched := rfl

@[simp] theorem advance_mem (s : State) : (advance s).mem = s.mem := rfl

@[simp] theorem advance_host (s : State) : (advance s).host = s.host := rfl

@[simp] theorem advance_log (s : State) : (advance s).log = s.log := rfl

@[simp] theorem advance_fault (s : State) : (advance s).fault = s.fault := rfl

@[simp] theorem advance_turn (s : State) : (advance s).turn = s.turn := rfl

@[simp] theorem advance_draws (s : State) : (advance s).draws = s.draws := rfl

@[simp] theorem advance_config (s : State) : (advance s).config = s.config := rfl

/-! ## flush -/

@[simp] theorem flush_regs (s : State) : (flush s).cpu.regs = s.cpu.regs := rfl

@[simp] theorem flush_pc (s : State) : (flush s).cpu.pc = s.cpu.pc := rfl

@[simp] theorem flush_cpsr (s : State) : (flush s).cpu.cpsr = s.cpu.cpsr := rfl

@[simp] theorem flush_spsr (s : State) : (flush s).cpu.spsr = s.cpu.spsr := rfl

@[simp] theorem flush_queue (s : State) : (flush s).cpu.queue = .empty := rfl

@[simp] theorem flush_pending (s : State) : (flush s).cpu.pending = s.cpu.pending := rfl

@[simp] theorem flush_cycles (s : State) : (flush s).cpu.cycles = s.cpu.cycles := rfl

@[simp] theorem flush_sched (s : State) : (flush s).sched = s.sched := rfl

@[simp] theorem flush_mem (s : State) : (flush s).mem = s.mem := rfl

@[simp] theorem flush_host (s : State) : (flush s).host = s.host := rfl

@[simp] theorem flush_log (s : State) : (flush s).log = s.log := rfl

@[simp] theorem flush_fault (s : State) : (flush s).fault = s.fault := rfl

@[simp] theorem flush_turn (s : State) : (flush s).turn = s.turn := rfl

@[simp] theorem flush_draws (s : State) : (flush s).draws = s.draws := rfl

@[simp] theorem flush_config (s : State) : (flush s).config = s.config := rfl

/-! ## emit -/

@[simp] theorem emit_regs (s : State) (r : LogRecord) : (s.emit r).cpu.regs = s.cpu.regs := rfl

@[simp] theorem emit_pc (s : State) (r : LogRecord) : (s.emit r).cpu.pc = s.cpu.pc := rfl

@[simp] theorem emit_cpsr (s : State) (r : LogRecord) : (s.emit r).cpu.cpsr = s.cpu.cpsr := rfl

@[simp] theorem emit_spsr (s : State) (r : LogRecord) : (s.emit r).cpu.spsr = s.cpu.spsr := rfl

@[simp] theorem emit_queue (s : State) (r : LogRecord) : (s.emit r).cpu.queue = s.cpu.queue := rfl

@[simp] theorem emit_pending (s : State) (r : LogRecord) : (s.emit r).cpu.pending = s.cpu.pending := rfl

@[simp] theorem emit_cycles (s : State) (r : LogRecord) : (s.emit r).cpu.cycles = s.cpu.cycles := rfl

@[simp] theorem emit_sched (s : State) (r : LogRecord) : (s.emit r).sched = s.sched := rfl

@[simp] theorem emit_mem (s : State) (r : LogRecord) : (s.emit r).mem = s.mem := rfl

@[simp] theorem emit_host (s : State) (r : LogRecord) : (s.emit r).host = s.host := rfl

@[simp] theorem emit_log (s : State) (r : LogRecord) : (s.emit r).log = s.log ++ [r] := rfl

@[simp] theorem emit_fault (s : State) (r : LogRecord) : (s.emit r).fault = s.fault := rfl

@[simp] theorem emit_turn (s : State) (r : LogRecord) : (s.emit r).turn = s.turn := rfl

@[simp] theorem emit_draws (s : State) (r : LogRecord) : (s.emit r).draws = s.draws := rfl

@[simp] theorem emit_config (s : State) (r : LogRecord) : (s.emit r).config = s.config := rfl

/-! ## setPending -/

@[simp] theorem setPending_regs (s : State) (c : ExcClass) (b : Bool) : (s.setPending c b).cpu.regs = s.cpu.regs := rfl

@[simp] theorem setPending_pc (s : State) (c : ExcClass) (b : Bool) : (s.setPending c b).cpu.pc = s.cpu.pc := rfl

@[simp] theorem setPending_cpsr (s : State) (c : ExcClass) (b : Bool) : (s.setPending c b).cpu.cpsr = s.cpu.cpsr := rfl

@[simp] theorem setPending_spsr (s : State) (c : ExcClass) (b : Bool) : (s.setPending c b).cpu.spsr = s.cpu.spsr := rfl

@[simp] theorem setPending_queue (s : State) (c : ExcClass) (b : Bool) : (s.setPending c b).cpu.queue = s.cpu.queue := rfl

@[simp] theorem setPending_pending (s : State) (c : ExcClass) (b : Bool) : (s.setPending c b).cpu.pending = s.cpu.pending.set c b := rfl

@[simp] theorem setPending_cycles (s : State) (c : ExcClass) (b : Bool) : (s.setPending c b).cpu.cycles = s.cpu.cycles := rfl

@[simp] theorem setPending_sched (s : State) (c : ExcClass) (b : Bool) : (s.setPending c b).sched = s.sched := rfl

@[simp] theorem setPending_mem (s : State) (c : ExcClass) (b : Bool) : (s.setPending c b).mem = s.mem := rfl

@[simp] theorem setPending_host (s : State) (c : ExcClass) (b : Bool) : (s.setPending c b).host = s.host := rfl

@[simp] theorem setPending_log (s : State) (c : ExcClass) (b : Bool) : (s.setPending c b).log = s.log := rfl

@[simp] theorem setPending_fault (s : State) (c : ExcClass) (b : Bool) : (s.setPending c b).fault = s.fault := rfl

@[simp] theorem setPending_turn (s : State) (c : ExcClass) (b : Bool) : (s.setPending c b).turn = s.turn := rfl

@[simp] theorem setPending_draws (s : State) (c : ExcClass) (b : Bool) : (s.setPending c b).draws = s.draws := rfl

@[simp] theorem setPending_config (s : State) (c : ExcClass) (b : Bool) : (s.setPending c b).config = s.config := rfl

/-! ## shifted -/

@[simp] theorem shifted_regs (q : Fetched) (w : Word) (s : State) : (shifted q w s).cpu.regs = s.cpu.regs := rfl

@[simp] theorem shifted_pc (q : Fetched) (w : Word) (s : State) : (shifted q w s).cpu.pc = s.cpu.pc := rfl

@[simp] theorem shifted_cpsr (q : Fetched) (w : Word) (s : State) : (shifted q w s).cpu.cpsr = s.cpu.cpsr := rfl

@[simp] theorem shifted_spsr (q : Fetched) (w : Word) (s : State) : (shifted q w s).cpu.spsr = s.cpu.spsr := rfl

@[simp] theorem shifted_queue (q : Fetched) (w : Word) (s : State) : (shifted q w s).cpu.queue = .two q ⟨w, s.cpu.pc⟩ := rfl

@[simp] theorem shifted_pending (q : Fetched) (w : Word) (s : State) : (shifted q w s).cpu.pending = s.cpu.pending := rfl

@[simp] theorem shifted_cycles (q : Fetched) (w : Word) (s : State) : (shifted q w s).cpu.cycles = s.cpu.cycles := rfl

@[simp] theorem shifted_sched (q : Fetched) (w : Word) (s : State) : (shifted q w s).sched = s.sched := rfl

@[simp] theorem shifted_mem (q : Fetched) (w : Word) (s : State) : (shifted q w s).mem = s.mem := rfl

@[simp] theorem shifted_host (q : Fetched) (w : Word) (s : State) : (shifted q w s).host = s.host := rfl

@[simp] theorem shifted_log (q : Fetched) (w : Word) (s : State) : (shifted q w s).log = s.log := rfl

@[simp] theorem shifted_fault (q : Fetched) (w : Word) (s : State) : (shifted q w s).fault = s.fault := rfl

@[simp] theorem shifted_turn (q : Fetched) (w : Word) (s : State) : (shifted q w s).turn = s.turn := rfl

@[simp] theorem shifted_draws (q : Fetched) (w : Word) (s : State) : (shifted q w s).draws = s.draws := rfl

@[simp] theorem shifted_config (q : Fetched) (w : Word) (s : State) : (shifted q w s).config = s.config := rfl

/-! ## writeReg -/

@[simp] theorem writeReg_pc (m : Mode) (r : RegNum) (v : Word) (s : State) : (writeReg m r v s).cpu.pc = s.cpu.pc := by unfold writeReg; split <;> rfl

@[simp] theorem writeReg_cpsr (m : Mode) (r : RegNum) (v : Word) (s : State) : (writeReg m r v s).cpu.cpsr = s.cpu.cpsr := by unfold writeReg; split <;> rfl

@[simp] theorem writeReg_spsr (m : Mode) (r : RegNum) (v : Word) (s : State) : (writeReg m r v s).cpu.spsr = s.cpu.spsr := by unfold writeReg; split <;> rfl

@[simp] theorem writeReg_queue (m : Mode) (r : RegNum) (v : Word) (s : State) : (writeReg m r v s).cpu.queue = s.cpu.queue := by unfold writeReg; split <;> rfl

@[simp] theorem writeReg_pending (m : Mode) (r : RegNum) (v : Word) (s : State) : (writeReg m r v s).cpu.pending = s.cpu.pending := by unfold writeReg; split <;> rfl

@[simp] theorem writeReg_cycles (m : Mode) (r : RegNum) (v : Word) (s : State) : (writeReg m r v s).cpu.cycles = s.cpu.cycles := by unfold writeReg; split <;> rfl

@[simp] theorem writeReg_sched (m : Mode) (r : RegNum) (v : Word) (s : State) : (writeReg m r v s).sched = s.sched := by unfold writeReg; split <;> rfl

@[simp] theorem writeReg_mem (m : Mode) (r : RegNum) (v : Word) (s : State) : (writeReg m r v s).mem = s.mem := by unfold writeReg; split <;> rfl

@[simp] theorem writeReg_host (m : Mode) (r : RegNum) (v : Word) (s : State) : (writeReg m r v s).host = s.host := by unfold writeReg; split <;> rfl

@[simp] theorem writeReg_log (m : Mode) (r : RegNum) (v : Word) (s : State) : (writeReg m r v s).log = s.log := by unfold writeReg; split <;> rfl

@[simp] theorem writeReg_fault (m : Mode) (r : RegNum) (v : Word) (s : State) : (writeReg m r v s).fault = s.fault := by unfold writeReg; split <;> rfl

@[simp] theorem writeReg_turn (m : Mode) (r : RegNum) (v : Word) (s : State) : (writeReg m r v s).turn = s.turn := by unfold writeReg; split <;> rfl

@[simp] theorem writeReg_draws (m : Mode) (r : RegNum) (v : Word) (s : State) : (writeReg m r v s).draws = s.draws := by unfold writeReg; split <;> rfl

@[simp] theorem writeReg_config (m : Mode) (r : RegNum) (v : Word) (s : State) : (writeReg m r v s).config = s.config := by unfold writeReg; split <;> rfl

/-! ## setFlags -/

@[simp] theorem setFlags_regs (b : Bool) (o : AluOut) (s : State) : (setFlags b o s).cpu.regs = s.cpu.regs := by cases b <;> rfl

@[simp] theorem setFlags_pc (b : Bool) (o : AluOut) (s : State) : (setFlags b o s).cpu.pc = s.cpu.pc := by cases b <;> rfl

@[simp] theorem setFlags_cpsr (b : Bool) (o : AluOut) (s : State) : (setFlags b o s).cpu.cpsr = if b then s.cpu.cpsr.withResult o else s.cpu.cpsr := by cases b <;> rfl

@[simp] theorem setFlags_spsr (b : Bool) (o : AluOut) (s : State) : (setFlags b o s).cpu.spsr = s.cpu.spsr := by cases b <;> rfl

@[simp] theorem setFlags_queue (b : Bool) (o : AluOut) (s : State) : (setFlags b o s).cpu.queue = s.cpu.queue := by cases b <;> rfl

@[simp] theorem setFlags_pending (b : Bool) (o : AluOut) (s : State) : (setFlags b o s).cpu.pending = s.cpu.pending := by cases b <;> rfl

@[simp] theorem setFlags_cycles (b : Bool) (o : AluOut) (s : State) : (setFlags b o s).cpu.cycles = s.cpu.cycles := by cases b <;> rfl

@[simp] theorem setFlags_sched (b : Bool) (o : AluOut) (s : State) : (setFlags b o s).sched = s.sched := by cases b <;> rfl

@[simp] theorem setFlags_mem (b : Bool) (o : AluOut) (s : State) : (setFlags b o s).mem = s.mem := by cases b <;> rfl

@[simp] theorem setFlags_host (b : Bool) (o : AluOut) (s : State) : (setFlags b o s).host = s.host := by cases b <;> rfl

@[simp] theorem setFlags_log (b : Bool) (o : AluOut) (s : State) : (setFlags b o s).log = s.log := by cases b <;> rfl

@[simp] theorem setFlags_fault (b : Bool) (o : AluOut) (s : State) : (setFlags b o s).fault = s.fault := by cases b <;> rfl

@[simp] theorem setFlags_turn (b : Bool) (o : AluOut) (s : State) : (setFlags b o s).turn = s.turn := by cases b <;> rfl

@[simp] theorem setFlags_draws (b : Bool) (o : AluOut) (s : State) : (setFlags b o s).draws = s.draws := by cases b <;> rfl

@[simp] theorem setFlags_config (b : Bool) (o : AluOut) (s : State) : (setFlags b o s).config = s.config := by cases b <;> rfl

/-! ## setClock -/

@[simp] theorem setClock_cpu (s : State) (d : Nat) (c : Clock) : (s.setClock d c).cpu = s.cpu := rfl

@[simp] theorem setClock_mem (s : State) (d : Nat) (c : Clock) : (s.setClock d c).mem = s.mem := rfl

@[simp] theorem setClock_host (s : State) (d : Nat) (c : Clock) : (s.setClock d c).host = s.host := rfl

@[simp] theorem setClock_log (s : State) (d : Nat) (c : Clock) : (s.setClock d c).log = s.log := rfl

@[simp] theorem setClock_fault (s : State) (d : Nat) (c : Clock) : (s.setClock d c).fault = s.fault := rfl

@[simp] theorem setClock_turn (s : State) (d : Nat) (c : Clock) : (s.setClock d c).turn = s.turn := rfl

@[simp] theorem setClock_draws (s : State) (d : Nat) (c : Clock) : (s.setClock d c).draws = s.draws := rfl

@[simp] theorem setClock_config (s : State) (d : Nat) (c : Clock) : (s.setClock d c).config = s.config := rfl

@[simp] theorem setClock_clocks (s : State) (d : Nat) (c : Clock) : (s.setClock d c).sched.clocks = s.sched.clocks.set d c := rfl

@[simp] theorem setClock_events (s : State) (d : Nat) (c : Clock) : (s.setClock d c).sched.events = s.sched.events := rfl

/-! ## setEvent -/

@[simp] theorem setEvent_cpu (s : State) (e : Nat) (x : EventSlot) : (s.setEvent e x).cpu = s.cpu := rfl

@[simp] theorem setEvent_mem (s : State) (e : Nat) (x : EventSlot) : (s.setEvent e x).mem = s.mem := rfl

@[simp] theorem setEvent_host (s : State) (e : Nat) (x : EventSlot) : (s.setEvent e x).host = s.host := rfl

@[simp] theorem setEvent_log (s : State) (e : Nat) (x : EventSlot) : (s.setEvent e x).log = s.log := rfl

@[simp] theorem setEvent_fault (s : State) (e : Nat) (x : EventSlot) : (s.setEvent e x).fault = s.fault := rfl

@[simp] theorem setEvent_turn (s : State) (e : Nat) (x : EventSlot) : (s.setEvent e x).turn = s.turn := rfl

@[simp] theorem setEvent_draws (s : State) (e : Nat) (x : EventSlot) : (s.setEvent e x).draws = s.draws := rfl

@[simp] theorem setEvent_config (s : State) (e : Nat) (x : EventSlot) : (s.setEvent e x).config = s.config := rfl

@[simp] theorem setEvent_events (s : State) (e : Nat) (x : EventSlot) : (s.setEvent e x).sched.events = s.sched.events.set e x := rfl

@[simp] theorem setEvent_clocks (s : State) (e : Nat) (x : EventSlot) : (s.setEvent e x).sched.clocks = s.sched.clocks := rfl

/-! ## afterInsert -/

@[simp] theorem afterInsert_cpu (s : State) : s.afterInsert.cpu = s.cpu := by
  unfold State.afterInsert; split <;> rfl

@[simp] theorem afterInsert_sched (s : State) : s.afterInsert.sched = s.sched := by
  unfold State.afterInsert; split <;> rfl

@[simp] theorem afterInsert_mem (s : State) : s.afterInsert.mem = s.mem := by
  unfold State.afterInsert; split <;> rfl

@[simp] theorem afterInsert_host (s : State) : s.afterInsert.host = s.host := by
  unfold State.afterInsert; split <;> rfl

@[simp] theorem afterInsert_log (s : State) : s.afterInsert.log = s.log := by
  unfold State.afterInsert; split <;> rfl

@[simp] theorem afterInsert_fault (s : State) : s.afterInsert.fault = s.fault := by
  unfold State.afterInsert; split <;> rfl

@[simp] theorem afterInsert_turn (s : State) : s.afterInsert.turn = s.turn := by
  unfold State.afterInsert; split <;> rfl

@[simp] theorem afterInsert_config (s : State) : s.afterInsert.config = s.config := by
  unfold State.afterInsert; split <;> rfl

/-! ## pollLines -/

/-- All the poll does (R202, R439, log 4): it writes the pending mask and the host's lines and script. -/
theorem pollLines_eq (s : State) :
    pollLines s = { s with cpu.pending := pendingAfterPoll s, host := hostAfterPoll s } := by
  unfold pollLines pendingAfterPoll hostAfterPoll linesAtPoll
  split
  · rename_i h
    simp only [h, List.headD_nil, List.tail_nil]
    rw [← h]
  · rename_i h
    simp only [h, List.headD_cons, List.tail_cons]

@[simp] theorem pollLines_pending (s : State) : (pollLines s).cpu.pending = pendingAfterPoll s := by rw [pollLines_eq]

@[simp] theorem pollLines_host (s : State) : (pollLines s).host = hostAfterPoll s := by rw [pollLines_eq]

@[simp] theorem pollLines_regs (s : State) : (pollLines s).cpu.regs = s.cpu.regs := by
  unfold pollLines; split <;> rfl

@[simp] theorem pollLines_pc (s : State) : (pollLines s).cpu.pc = s.cpu.pc := by
  unfold pollLines; split <;> rfl

@[simp] theorem pollLines_cpsr (s : State) : (pollLines s).cpu.cpsr = s.cpu.cpsr := by
  unfold pollLines; split <;> rfl

@[simp] theorem pollLines_spsr (s : State) : (pollLines s).cpu.spsr = s.cpu.spsr := by
  unfold pollLines; split <;> rfl

@[simp] theorem pollLines_queue (s : State) : (pollLines s).cpu.queue = s.cpu.queue := by
  unfold pollLines; split <;> rfl

@[simp] theorem pollLines_cycles (s : State) : (pollLines s).cpu.cycles = s.cpu.cycles := by
  unfold pollLines; split <;> rfl

@[simp] theorem pollLines_sched (s : State) : (pollLines s).sched = s.sched := by
  unfold pollLines; split <;> rfl

@[simp] theorem pollLines_mem (s : State) : (pollLines s).mem = s.mem := by
  unfold pollLines; split <;> rfl

@[simp] theorem pollLines_log (s : State) : (pollLines s).log = s.log := by
  unfold pollLines; split <;> rfl

@[simp] theorem pollLines_fault (s : State) : (pollLines s).fault = s.fault := by
  unfold pollLines; split <;> rfl

@[simp] theorem pollLines_turn (s : State) : (pollLines s).turn = s.turn := by
  unfold pollLines; split <;> rfl

@[simp] theorem pollLines_draws (s : State) : (pollLines s).draws = s.draws := by
  unfold pollLines; split <;> rfl

@[simp] theorem pollLines_config (s : State) : (pollLines s).config = s.config := by
  unfold pollLines; split <;> rfl

/-! ## service -/

@[simp] theorem service_sched (c : ExcClass) (s : State) : (service c s).sched = s.sched := rfl

@[simp] theorem service_mem (c : ExcClass) (s : State) : (service c s).mem = s.mem := rfl

@[simp] theorem service_host (c : ExcClass) (s : State) : (service c s).host = s.host := rfl

@[simp] theorem service_log (c : ExcClass) (s : State) : (service c s).log = s.log := rfl

@[simp] theorem service_fault (c : ExcClass) (s : State) : (service c s).fault = s.fault := rfl

@[simp] theorem service_turn (c : ExcClass) (s : State) : (service c s).turn = s.turn := rfl

@[simp] theorem service_draws (c : ExcClass) (s : State) : (service c s).draws = s.draws := rfl

@[simp] theorem service_config (c : ExcClass) (s : State) : (service c s).config = s.config := rfl

@[simp] theorem service_pc (c : ExcClass) (s : State) : (service c s).cpu.pc = c.vector := rfl

@[simp] theorem service_cpsr (c : ExcClass) (s : State) : (service c s).cpu.cpsr = entryCpsr c s.cpu.cpsr := rfl

@[simp] theorem service_spsr (c : ExcClass) (s : State) : (service c s).cpu.spsr = s.cpu.spsr.set c.mode s.cpu.cpsr := rfl

@[simp] theorem service_queue (c : ExcClass) (s : State) : (service c s).cpu.queue = .empty := rfl

@[simp] theorem service_pending (c : ExcClass) (s : State) : (service c s).cpu.pending = s.cpu.pending.set c false := rfl

@[simp] theorem service_cycles (c : ExcClass) (s : State) : (service c s).cpu.cycles = s.cpu.cycles := rfl

@[simp] theorem service_regs (c : ExcClass) (s : State) : (service c s).cpu.regs = s.cpu.regs.set (.lr c.mode.bank) (returnAddr c s) := rfl

/-! ## world: what only the engine's updates leave alone -/

@[simp] theorem setCpsr_world (s : State) (p : Psr) : (s.setCpsr p).world = s.world := rfl

@[simp] theorem setSpsr_world (s : State) (m : Mode) (p : Psr) : (s.setSpsr m p).world = s.world := rfl

@[simp] theorem advance_world (s : State) : (advance s).world = s.world := rfl

@[simp] theorem flush_world (s : State) : (flush s).world = s.world := rfl

@[simp] theorem setPending_world (s : State) (c : ExcClass) (b : Bool) : (s.setPending c b).world = s.world := rfl

@[simp] theorem shifted_world (s : State) (q : Fetched) (w : Word) : (shifted q w s).world = s.world := rfl

@[simp] theorem service_world (s : State) (c : ExcClass) : (service c s).world = s.world := rfl

@[simp] theorem writeReg_world (m : Mode) (r : RegNum) (v : Word) (s : State) : (writeReg m r v s).world = s.world := by unfold writeReg; split <;> rfl

@[simp] theorem setFlags_world (b : Bool) (o : AluOut) (s : State) : (setFlags b o s).world = s.world := by cases b <;> rfl

/-! ## recordFault -/

@[simp] theorem recordFault_cpu (f : Fault) (s : State) : (recordFault f s).cpu = s.cpu := rfl

@[simp] theorem recordFault_sched (f : Fault) (s : State) : (recordFault f s).sched = f.world.sched := rfl

@[simp] theorem recordFault_mem (f : Fault) (s : State) : (recordFault f s).mem = f.world.mem := rfl

@[simp] theorem recordFault_host (f : Fault) (s : State) : (recordFault f s).host = f.world.host := rfl

@[simp] theorem recordFault_log (f : Fault) (s : State) : (recordFault f s).log = f.world.log := rfl

@[simp] theorem recordFault_fault (f : Fault) (s : State) : (recordFault f s).fault = some f.why := rfl

@[simp] theorem recordFault_turn (f : Fault) (s : State) : (recordFault f s).turn = s.turn := rfl

@[simp] theorem recordFault_draws (f : Fault) (s : State) : (recordFault f s).draws = f.world.draws := rfl

@[simp] theorem recordFault_config (f : Fault) (s : State) : (recordFault f s).config = s.config := rfl

@[simp] theorem recordFault_world (f : Fault) (s : State) : (recordFault f s).world = f.world := rfl

end Sys2Proof.Machine
end

