-- ==== Sys2Proof/Laws/Memory.lean ====
section
/-!
SUPPORT. Memory: every operation keeps the canonical form, a read after a write gives the value written, and a write leaves
every other byte.
-/

namespace Sys2Proof.Machine

open Sys2Proof

theorem Memory.wf_nil : Memory.wf [] := by simp [Memory.wf]

theorem Memory.wf_tail {p : Host.Cell} {m : Memory} (h : Memory.wf (p :: m)) : Memory.wf m := by
  simp only [Memory.wf, List.pairwise_cons, List.mem_cons, forall_eq_or_imp] at h ⊢
  exact ⟨h.1.2, h.2.2⟩

/-- No entry below the head of a canonical memory. -/
theorem Memory.read_below {m : Memory} {x : Nat} (h : ∀ p ∈ m, x < p.1) : m.read x = Memory.unlisted := by
  induction m with
  | nil => rfl
  | cons p m ih =>
    have := h p (by simp)
    simp only [Memory.read]
    rw [if_neg (by omega), ih (fun q hq => h q (by simp [hq]))]

theorem Memory.read_cons (m : Memory) (x y : Nat) (v : Byte) (h : ∀ p ∈ m, x < p.1) :
    (Memory.cons x v m).read y = if y = x then v else m.read y := by
  unfold Memory.cons
  by_cases hv : v = Memory.unlisted
  · by_cases hy : y = x
    · simp [hv, hy, Memory.read_below h]
    · simp [hv, hy]
  · simp [hv, Memory.read]

/-- A write leaves every other byte, whatever the list. -/
theorem Memory.read_write_other (m : Memory) {x y : Nat} (v : Byte) (h : y ≠ x) : (m.write x v).read y = m.read y := by
  induction m with
  | nil => simp only [Memory.write, Memory.cons]; split <;> simp [Memory.read, h]
  | cons p m ih =>
    obtain ⟨a, b⟩ := p
    simp only [Memory.write, Memory.cons]
    split
    · split <;> simp [Memory.read, h]
    · split
      · rename_i e
        split <;> simp [Memory.read, ← e, h]
      · simp only [Memory.read, ih]

/-- A read after a write to the same address. -/
theorem Memory.read_write_self {m : Memory} (hm : m.wf) (x : Nat) (v : Byte) : (m.write x v).read x = v := by
  induction m with
  | nil => rw [Memory.write, Memory.read_cons _ _ _ _ (by simp)]; simp
  | cons p m ih =>
    obtain ⟨a, b⟩ := p
    have hrise : ∀ q ∈ m, a < q.1 := (List.pairwise_cons.1 hm.1).1
    simp only [Memory.write]
    split
    · rename_i hlt
      rw [Memory.read_cons, if_pos rfl]
      intro q hq
      rcases List.mem_cons.1 hq with e | hq
      · simpa [e] using hlt
      · exact lt_trans hlt (hrise q hq)
    · split
      · rename_i e
        rw [Memory.read_cons _ _ _ _ (by simpa [e] using hrise), if_pos rfl]
      · rename_i _ hne
        simp [Memory.read, hne, ih (Memory.wf_tail hm)]

theorem Memory.mem_cons {m : Memory} {x : Nat} {v : Byte} {q : Host.Cell} (h : q ∈ Memory.cons x v m) :
    (q = (x, v) ∧ v ≠ Memory.unlisted) ∨ q ∈ m := by
  unfold Memory.cons at h
  split at h
  · exact .inr h
  · rcases List.mem_cons.1 h with e | h
    · exact .inl ⟨e, by assumption⟩
    · exact .inr h

theorem Memory.mem_write {m : Memory} {x : Nat} {v : Byte} {q : Host.Cell} (h : q ∈ m.write x v) :
    (q = (x, v) ∧ v ≠ Memory.unlisted) ∨ q ∈ m := by
  induction m with
  | nil => exact Memory.mem_cons h
  | cons p m ih =>
    obtain ⟨a, b⟩ := p
    simp only [Memory.write] at h
    split at h
    · exact Memory.mem_cons h
    · split at h
      · exact (Memory.mem_cons h).imp_right (List.mem_cons_of_mem _)
      · rcases List.mem_cons.1 h with e | h
        · exact .inr (by simp [e])
        · exact (ih h).imp_right (List.mem_cons_of_mem _)

theorem Memory.pairwise_cons {m : Memory} {x : Nat} (v : Byte) (hm : m.Pairwise (fun p q => p.1 < q.1))
    (h : ∀ p ∈ m, x < p.1) : (Memory.cons x v m).Pairwise (fun p q => p.1 < q.1) := by
  unfold Memory.cons
  split
  · exact hm
  · exact List.pairwise_cons.2 ⟨h, hm⟩

/-- A write keeps the canonical form. -/
theorem Memory.wf_write {m : Memory} (hm : m.wf) {x : Nat} (v : Byte) (hx : x < 2 ^ 32) : (m.write x v).wf := by
  refine ⟨?_, fun q hq => ?_⟩
  · induction m with
    | nil => exact Memory.pairwise_cons v List.Pairwise.nil (by simp)
    | cons p m ih =>
      obtain ⟨a, b⟩ := p
      have hp := List.pairwise_cons.1 hm.1
      simp only [Memory.write]
      split
      · rename_i hlt
        refine Memory.pairwise_cons v hm.1 fun q hq => ?_
        rcases List.mem_cons.1 hq with e | hq
        · simpa [e] using hlt
        · exact lt_trans hlt (hp.1 q hq)
      · split
        · rename_i e
          exact Memory.pairwise_cons v hp.2 (by simpa [e] using hp.1)
        · refine List.pairwise_cons.2 ⟨fun q hq => ?_, ih (Memory.wf_tail hm)⟩
          rcases Memory.mem_write hq with ⟨e, _⟩ | hq
          · simp only [e]; omega
          · exact hp.1 q hq
  · rcases Memory.mem_write hq with ⟨e, hv⟩ | hq
    · exact ⟨by simpa [e] using hv, by simpa [e] using hx⟩
    · exact hm.2 q hq

theorem Memory.wf_writeByte {m : Memory} (hm : m.wf) (a : Word) (v : Byte) : (m.writeByte a v).wf :=
  Memory.wf_write hm v a.isLt

theorem Memory.wf_writeWord {m : Memory} (hm : m.wf) (a v : Word) : (m.writeWord a v).wf := by
  unfold Memory.writeWord
  exact Memory.wf_writeByte (Memory.wf_writeByte (Memory.wf_writeByte (Memory.wf_writeByte hm _ _) _ _) _ _) _ _

theorem Memory.wf_store {m : Memory} (hm : m.wf) (width : Width) (a v : Word) : (m.store width a v).wf := by
  cases width
  · exact Memory.wf_writeByte hm _ _
  · exact Memory.wf_writeByte (Memory.wf_writeByte hm _ _) _ _
  · exact Memory.wf_writeWord hm _ _

/-- A byte read after a byte write. -/
theorem Memory.readByte_writeByte {m : Memory} (hm : m.wf) (a b : Word) (v : Byte) :
    (m.writeByte a v).readByte b = if b = a then v else m.readByte b := by
  unfold Memory.readByte Memory.writeByte
  by_cases h : b = a
  · simp [h, Memory.read_write_self hm]
  · rw [if_neg h, Memory.read_write_other _ _ (by simpa [BitVec.toNat_inj] using h)]

theorem Memory.readByte_writeByte_other (m : Memory) {a b : Word} (v : Byte) (h : b ≠ a) :
    (m.writeByte a v).readByte b = m.readByte b :=
  Memory.read_write_other _ _ (by simpa [BitVec.toNat_inj] using h)

/-- A store leaves every byte outside its own, whatever the list. -/
theorem Memory.readByte_store_other (m : Memory) (width : Width) (a v : Word) {b : Word}
    (h : b.toNat ∉ accessAddrs a width.bytes) : (m.store width a v).readByte b = m.readByte b := by
  have ne : ∀ k < width.bytes, b ≠ a + BitVec.ofNat 32 k := by
    intro k hk e
    exact h (List.mem_map.2 ⟨k, List.mem_range.2 hk, by rw [e]⟩)
  have h0 (hk : 0 < width.bytes) : b ≠ a := by simpa using ne 0 hk
  have h1 (hk : 1 < width.bytes) : b ≠ a + 1 := ne 1 hk
  have h2 (hk : 2 < width.bytes) : b ≠ a + 2 := ne 2 hk
  have h3 (hk : 3 < width.bytes) : b ≠ a + 3 := ne 3 hk
  cases width
  · exact Memory.readByte_writeByte_other _ _ (h0 (by decide))
  · simp only [Memory.store]
    rw [Memory.readByte_writeByte_other _ _ (h1 (by decide)), Memory.readByte_writeByte_other _ _ (h0 (by decide))]
  · simp only [Memory.store, Memory.writeWord]
    rw [Memory.readByte_writeByte_other _ _ (h3 (by decide)), Memory.readByte_writeByte_other _ _ (h2 (by decide)),
      Memory.readByte_writeByte_other _ _ (h1 (by decide)), Memory.readByte_writeByte_other _ _ (h0 (by decide))]

/-- The four bytes of a word are its own. -/
theorem wordOfBytes_bytesOfWord (v : Word) :
    wordOfBytes (byteOfWord v 0) (byteOfWord v 1) (byteOfWord v 2) (byteOfWord v 3) = v := by
  simp only [wordOfBytes, byteOfWord]
  ext i hi
  simp only [BitVec.getElem_append, BitVec.getElem_extractLsb', Nat.mul_zero, Nat.zero_add, Nat.mul_one]
  split_ifs <;> (rw [← BitVec.getLsbD_eq_getElem]; try (congr 1; omega))

/-- The bytes a word write leaves at its four addresses. -/
theorem Memory.readByte_writeWord {m : Memory} (hm : m.wf) (a v : Word) :
    (m.writeWord a v).readByte a = byteOfWord v 0 ∧ (m.writeWord a v).readByte (a + 1) = byteOfWord v 1 ∧
      (m.writeWord a v).readByte (a + 2) = byteOfWord v 2 ∧ (m.writeWord a v).readByte (a + 3) = byteOfWord v 3 := by
  have e : ∀ i j : Word, (a + i = a + j) ↔ i = j := fun i j => by simp
  have e0 : ∀ j : Word, (a = a + j) ↔ 0#32 = j := fun j => by
    constructor
    · intro h; have := (e 0#32 j).1 (by simpa using h); exact this
    · rintro rfl; simp
  have w0 := Memory.wf_writeByte hm a (byteOfWord v 0)
  have w1 := Memory.wf_writeByte w0 (a + 1) (byteOfWord v 1)
  have w2 := Memory.wf_writeByte w1 (a + 2) (byteOfWord v 2)
  unfold Memory.writeWord
  simp only [Memory.readByte_writeByte w2, Memory.readByte_writeByte w1, Memory.readByte_writeByte w0,
    Memory.readByte_writeByte hm, e, e0]
  simp

/-- A word read after a word write at the same address, aligned or not. -/
theorem Memory.readWord_writeWord {m : Memory} (hm : m.wf) (a v : Word) : (m.writeWord a v).readWord a = v := by
  obtain ⟨h0, h1, h2, h3⟩ := Memory.readByte_writeWord hm a v
  rw [Memory.readWord, h0, h1, h2, h3, wordOfBytes_bytesOfWord]

/-- A word none of whose bytes changed reads as before. -/
theorem Memory.readWord_congr {m m' : Memory} {a : Word}
    (h : ∀ b : Word, b.toNat ∈ accessAddrs a 4 → m'.readByte b = m.readByte b) : m'.readWord a = m.readWord a := by
  have key : ∀ k < 4, m'.readByte (a + BitVec.ofNat 32 k) = m.readByte (a + BitVec.ofNat 32 k) := fun k hk =>
    h _ (List.mem_map.2 ⟨k, List.mem_range.2 hk, rfl⟩)
  have k0 : m'.readByte a = m.readByte a := by simpa using key 0 (by omega)
  have k1 : m'.readByte (a + 1) = m.readByte (a + 1) := key 1 (by omega)
  have k2 : m'.readByte (a + 2) = m.readByte (a + 2) := key 2 (by omega)
  have k3 : m'.readByte (a + 3) = m.readByte (a + 3) := key 3 (by omega)
  simp only [Memory.readWord, k0, k1, k2, k3]

end Sys2Proof.Machine
end

