-- ==== Sys2Proof/Laws/Registers.lean ====
section
/-!
SUPPORT. The register file: a read after a write, and that bank selection (10_state.md R33) never gives two visible
registers of a mode one physical register.
-/

namespace Sys2Proof.Machine

open Sys2Proof

theorem Banked.get_set (x : Banked) (b c : Bank) (v : Word) : (x.set b v).get c = if c = b then v else x.get c := by
  cases b <;> cases c <;> simp [Banked.get, Banked.set]

theorem RegFile.get_set (x : RegFile) (p q : PhysReg) (v : Word) :
    (x.set p v).get q = if q = p then v else x.get q := by
  cases p <;> cases q <;>
    simp [RegFile.get, RegFile.set, Vector.getElem_set, Banked.get_set, Fin.ext_iff, eq_comm]

@[simp] theorem RegFile.get_set_self (x : RegFile) (p : PhysReg) (v : Word) : (x.set p v).get p = v := by
  simp [RegFile.get_set]

/-- Only R15 is no banked register. -/
theorem phys_eq_none (m : Mode) (r : RegNum) : phys m r = none ↔ r = 15#4 := by
  revert r; cases m <;> decide

@[simp] theorem phys_15 (m : Mode) : phys m 15#4 = none := (phys_eq_none m _).2 rfl

/-- A register other than R15 has a physical register. -/
theorem phys_isSome {m : Mode} {r : RegNum} (h : r ≠ 15#4) : ∃ p, phys m r = some p := by
  cases hp : phys m r with
  | none => exact absurd ((phys_eq_none m r).1 hp) h
  | some p => exact ⟨p, rfl⟩

/-- Two visible registers of one mode are two physical registers. -/
theorem phys_injective (m : Mode) (r q : RegNum) (h : phys m r = phys m q) : r = q := by
  revert r q; cases m <;> decide

theorem readReg_15 (m : Mode) (s : State) : readReg m 15#4 s = s.cpu.pc := by simp [readReg]

theorem readReg_some {m : Mode} {r : RegNum} {p : PhysReg} (h : phys m r = some p) (s : State) :
    readReg m r s = s.cpu.regs.get p := by simp [readReg, h]

theorem writeReg_some {m : Mode} {r : RegNum} {p : PhysReg} (h : phys m r = some p) (v : Word) (s : State) :
    writeReg m r v s = { s with cpu.regs := s.cpu.regs.set p v } := by simp [writeReg, h]

@[simp] theorem writeReg_15 (m : Mode) (v : Word) (s : State) : writeReg m 15#4 v s = s := by simp [writeReg]

/-- What a write leaves in each physical register. -/
theorem writeReg_get (m : Mode) (r : RegNum) (v : Word) (s : State) (p : PhysReg) :
    (writeReg m r v s).cpu.regs.get p = if phys m r = some p then v else s.cpu.regs.get p := by
  cases hp : phys m r with
  | none => simp [writeReg, hp]
  | some q => simp [writeReg, hp, RegFile.get_set, eq_comm]

/-- A read of a register after a write of one. -/
theorem readReg_writeReg (m : Mode) (r q : RegNum) (v : Word) (s : State) (h : r ≠ 15#4) :
    readReg m q (writeReg m r v s) = if q = r then v else readReg m q s := by
  obtain ⟨p, hp⟩ := phys_isSome (m := m) h
  by_cases hq : q = 15#4
  · subst hq; simp [readReg_15, Ne.symm h]
  · obtain ⟨p', hp'⟩ := phys_isSome (m := m) hq
    rw [readReg_some hp', readReg_some hp', writeReg_get, hp]
    by_cases e : q = r
    · subst e; simp_all
    · have : p ≠ p' := fun e' => e (phys_injective m q r (by rw [hp', hp, e']))
      simp [e, this]

/-- A write leaves every physical register but its own. -/
theorem writeReg_regsBut (m : Mode) (r : RegNum) (v : Word) (s : State) :
    RegsBut (phys m r).toList s (writeReg m r v s) := by
  intro p hp
  rw [writeReg_get, if_neg]
  intro h; simp [h] at hp

end Sys2Proof.Machine
end

