-- ==== Sys2Proof/Laws/Ops.lean ====
section
/-!
SUPPORT. What each shared operation of Ops can do, said once: sequencing, host calls, the bus, the accounting, the PC write,
and `retire`.
-/

namespace Sys2Proof.Machine

open Sys2Proof

/-! ## Sequencing -/

@[simp] theorem andThen_next {α β : Type} (a : α) (f : α → Result β) : andThen (.next a) f = f a := rfl

@[simp] theorem andThen_fault {α β : Type} (r : Fault) (f : α → Result β) : andThen (.fault r) f = .fault r := rfl

@[simp] theorem andThen_refused {α β : Type} (r : Refusal) (f : α → Result β) :
    andThen (.refused r) f = .refused r := rfl

theorem andThen_eq_next {α β : Type} {o : Result α} {f : α → Result β} {b : β} :
    andThen o f = .next b ↔ ∃ a, o = .next a ∧ f a = .next b := by
  cases o <;> simp [andThen]

@[simp] theorem andThen_raise {α β : Type} (why : Fatal) (s : State) (f : α → Result β) :
    andThen (raise why s) f = raise why s := rfl

/-- A fault is no next state. -/
@[simp] theorem raise_ne_next {α : Type} (why : Fatal) (s : State) (a : α) : raise why s ≠ .next a := nofun

/-- Two faults agree when their kinds, infos and worlds do. -/
theorem raise_congr {α : Type} {why : Fatal} {s t : State} (h : s.world = t.world) :
    (raise why s : Result α) = raise why t := by rw [raise, raise, h]

@[simp] theorem raise_why (why : Fatal) (w : World) : (Fault.fatal why w).why = why := rfl

@[simp] theorem raise_world (why : Fatal) (w : World) : (Fault.fatal why w).world = w := rfl

/-! ## Accounting -/

/-- The charge is exact. -/
theorem account_next {n : Nat} {word : Option Word} {pc : Word} {s t : State} (h : account n word pc s = .next t) :
    InTime n s ∧ t = { s with cpu.cycles := s.cpu.cycles + BitVec.ofNat 64 (n * s.config.cpuClockScale) } := by
  unfold account at h
  split at h
  · cases h
  · exact ⟨by unfold InTime; omega, (Host.Outcome.next.inj h).symm⟩

theorem account_inTime {n : Nat} {s : State} (h : InTime n s) (word : Option Word) (pc : Word) :
    account n word pc s = .next { s with cpu.cycles := s.cpu.cycles + BitVec.ofNat 64 (n * s.config.cpuClockScale) } := by
  unfold account InTime at *
  rw [if_neg (by omega)]

/-- A charge that does not fit stops, with the counter, the cycles, and where it was (41_pipeline.md R213, R441). -/
theorem account_overflow {n : Nat} {s : State} (h : ¬InTime n s) (word : Option Word) (pc : Word) :
    account n word pc s = raise (.intCounterOverflow s.cpu.cycles n word pc) s := by
  unfold account InTime at *
  rw [if_pos (by omega)]

/-- The charged counter as a number: nothing wraps. -/
theorem cycles_add {n : Nat} {s : State} (h : InTime n s) :
    (s.cpu.cycles + BitVec.ofNat 64 (n * s.config.cpuClockScale)).toNat =
      s.cpu.cycles.toNat + n * s.config.cpuClockScale := by
  unfold InTime at h
  rw [BitVec.toNat_add, BitVec.toNat_ofNat]
  omega

/-! ## Host calls -/

/-- What no host call touches (60_exceptions.md R453): the engine, the log, the session fault, the turn, the parameters. -/
structure HostKeeps (s t : State) : Prop where
  cpu : t.cpu = s.cpu
  log : t.log = s.log
  fault : t.fault = s.fault
  turn : t.turn = s.turn
  config : t.config = s.config

theorem HostKeeps.refl (s : State) : HostKeeps s s := ⟨rfl, rfl, rfl, rfl, rfl⟩

theorem HostKeeps.trans {s t u : State} (a : HostKeeps s t) (b : HostKeeps t u) : HostKeeps s u :=
  ⟨b.cpu.trans a.cpu, b.log.trans a.log, b.fault.trans a.fault, b.turn.trans a.turn, b.config.trans a.config⟩

theorem recomputeTarget_next {d : Nat} {s t : State} (h : recomputeTarget d s = .next t) :
    ∃ c w, s.clock d = some c ∧ targetFor s.config s.sched.events c.stamp c.list = some w ∧
      t = s.setClock d { c with target := w } := by
  unfold recomputeTarget at h
  split at h
  · cases h
  · rename_i c hc
    split at h
    · cases h
    · rename_i w hw
      exact ⟨c, w, hc, hw, (Host.Outcome.next.inj h).symm⟩

theorem recomputeTarget_keeps {d : Nat} {s t : State} (h : recomputeTarget d s = .next t) : HostKeeps s t := by
  obtain ⟨c, w, -, -, rfl⟩ := recomputeTarget_next h
  exact ⟨rfl, rfl, rfl, rfl, rfl⟩

theorem schedule_next {d e : Nat} {w : Stamp} {s t : State} (h : schedule d e w s = .next t) :
    ∃ c x, s.clock d = some c ∧ s.event e = some x ∧ x.link = .unscheduled ∧
      (s.config.integrityChecks = true → c.stamp ≤ w) ∧
      recomputeTarget d ((s.setEvent e { x with when := w, link := .inDomain d }).afterInsert.setClock d
        { c with list := insertSorted s (s.setEvent e { x with when := w, link := .inDomain d }).sched.events w e c.list })
        = .next t := by
  unfold schedule at h
  split at h
  · cases h
  · cases h
  · rename_i c x hc hx
    split at h
    · cases h
    · rename_i hl
      split at h
      · cases h
      · rename_i hi
        refine ⟨c, x, hc, hx, by simpa using hl, fun hk => ?_, h⟩
        simp only [hk, true_and] at hi
        exact BitVec.not_lt.1 hi

theorem cancel_next {d e : Nat} {s t : State} (h : cancel d e s = .next t) :
    ∃ c x, s.clock d = some c ∧ s.event e = some x ∧ x.link = .inDomain d ∧
      (s.config.integrityChecks = true → c.stamp ≤ x.when) ∧
      recomputeTarget d ((s.setEvent e { x with link := .unscheduled }).setClock d
        { c with list := c.list.filter (· ≠ e) }) = .next t := by
  unfold cancel at h
  split at h
  · cases h
  · cases h
  · rename_i c x hc hx
    split at h
    · cases h
    · rename_i hl
      split at h
      · cases h
      · rename_i hi
        refine ⟨c, x, hc, hx, by simpa using hl, fun hk => ?_, h⟩
        simp only [hk, true_and] at hi
        exact BitVec.not_lt.1 hi

theorem popEarliest_next {d : Nat} {s t : State} {o : Option Nat} (h : popEarliest d s = .next (o, t)) :
    ∃ c, s.clock d = some c ∧
      ((c.list = [] ∧ o = none ∧ t = s) ∨
        ∃ e rest x, c.list = e :: rest ∧ o = some e ∧ s.event e = some x ∧
          (s.config.integrityChecks = true → c.stamp ≤ x.when) ∧
          recomputeTarget d ((s.setEvent e { x with link := .unscheduled }).setClock d { c with list := rest })
            = .next t) := by
  unfold popEarliest at h
  split at h
  · cases h
  · rename_i c hc
    refine ⟨c, hc, ?_⟩
    split at h
    · rename_i hl
      cases h
      exact .inl ⟨hl, rfl, rfl⟩
    · rename_i e rest hl
      split at h
      · cases h
      · rename_i x hx
        split at h
        · cases h
        · rename_i hi
          obtain ⟨u, hu, ht⟩ := andThen_eq_next.1 h
          cases ht
          refine .inr ⟨e, rest, x, hl, rfl, hx, fun hk => ?_, hu⟩
          simp only [hk, true_and] at hi
          exact BitVec.not_lt.1 hi

theorem advanceStamp_next {d : Nat} {w : Stamp} {s t : State} (h : advanceStamp d w s = .next t) :
    ∃ c, s.clock d = some c ∧ c.stamp ≤ w ∧
      (s.config.integrityChecks = true → ∀ e ∈ c.list.head?, w ≤ whenOf s.sched.events e) ∧
      recomputeTarget d (s.setClock d { c with stamp := w }) = .next t := by
  unfold advanceStamp at h
  split at h
  · cases h
  · rename_i c hc
    split at h
    · cases h
    · rename_i hw
      split at h
      · rename_i hl
        exact ⟨c, hc, BitVec.not_lt.1 hw, by simp [hl], h⟩
      · rename_i e rest hl
        split at h
        · cases h
        · rename_i hi
          refine ⟨c, hc, BitVec.not_lt.1 hw, fun hk f hf => ?_, h⟩
          simp only [hk, true_and] at hi
          simp only [hl, List.head?_cons, Option.mem_some_iff] at hf
          exact hf ▸ BitVec.not_lt.1 hi

theorem initEvent_next {e k : Nat} {s t : State} (h : initEvent e k s = .next t) :
    ∃ x, s.event e = some x ∧ x.link = .unscheduled ∧ t = s.setEvent e { x with handler := k } := by
  unfold initEvent at h
  split at h
  · cases h
  · rename_i x hx
    split at h
    · cases h
    · rename_i hl
      exact ⟨x, hx, by simpa using hl, (Host.Outcome.next.inj h).symm⟩

theorem setEvent_keeps (s : State) (e : Nat) (x : EventSlot) : HostKeeps s (s.setEvent e x) := ⟨rfl, rfl, rfl, rfl, rfl⟩

theorem setClock_keeps (s : State) (d : Nat) (c : Clock) : HostKeeps s (s.setClock d c) := ⟨rfl, rfl, rfl, rfl, rfl⟩

theorem afterInsert_keeps (s : State) : HostKeeps s s.afterInsert := ⟨by simp, by simp, by simp, by simp, by simp⟩

theorem popEarliest_keeps {d : Nat} {s t : State} {o : Option Nat} (h : popEarliest d s = .next (o, t)) :
    HostKeeps s t := by
  obtain ⟨c, -, ⟨-, -, rfl⟩ | ⟨e, rest, x, -, -, -, -, hr⟩⟩ := popEarliest_next h
  · exact .refl _
  · exact ((setEvent_keeps _ _ _).trans (setClock_keeps _ _ _)).trans (recomputeTarget_keeps hr)

theorem advanceStamp_keeps {d : Nat} {w : Stamp} {s t : State} (h : advanceStamp d w s = .next t) : HostKeeps s t := by
  obtain ⟨c, -, -, -, hr⟩ := advanceStamp_next h
  exact (setClock_keeps _ _ _).trans (recomputeTarget_keeps hr)

/-- A host call touches neither the engine nor the session. -/
theorem hostCall_keeps {c : HostCall} {s t : State} (h : hostCall c s = .next t) : HostKeeps s t := by
  cases c with
  | schedule d e w =>
    obtain ⟨c, x, -, -, -, -, hr⟩ := schedule_next h
    exact (((setEvent_keeps _ _ _).trans (afterInsert_keeps _)).trans (setClock_keeps _ _ _)).trans
      (recomputeTarget_keeps hr)
  | cancel d e =>
    obtain ⟨c, x, -, -, -, -, hr⟩ := cancel_next h
    exact ((setEvent_keeps _ _ _).trans (setClock_keeps _ _ _)).trans (recomputeTarget_keeps hr)
  | popEarliest d =>
    obtain ⟨⟨o, u⟩, hp, ht⟩ := andThen_eq_next.1 h
    cases ht
    exact popEarliest_keeps hp
  | peekEarliest d | targetStamp d =>
    simp only [hostCall] at h
    split at h
    · cases h; exact .refl _
    · cases h
  | initEvent e k =>
    obtain ⟨x, -, -, rfl⟩ := initEvent_next h
    exact setEvent_keeps _ _ _
  | setIrqLine l | setFiqLine l | busRead a w => cases h; exact ⟨rfl, rfl, rfl, rfl, rfl⟩
  | busWrite a w v =>
    simp only [hostCall] at h
    split at h <;> (cases h; exact ⟨rfl, rfl, rfl, rfl, rfl⟩)

theorem hostCalls_keeps {cs : List HostCall} {s t : State} (h : hostCalls cs s = .next t) : HostKeeps s t := by
  induction cs generalizing s with
  | nil => cases h; exact .refl _
  | cons c cs ih =>
    obtain ⟨u, hu, ht⟩ := andThen_eq_next.1 h
    exact (hostCall_keeps hu).trans (ih ht)

/-! ## The bus -/

theorem plainAccess_iff {s : State} {width : Width} {a : Word} :
    s.plainAccess width a = true ↔ busKind s.host.regions a width.bytes = .plain := by
  simp [State.plainAccess]

/-- With no region behind the bus, every access is plain. -/
theorem busKind_nil (a : Word) (n : Nat) : busKind [] a n = .plain := rfl

theorem busRead_plain {s : State} {width : Width} {a : Word} (h : s.plainAccess width a = true) (word : Option Word)
    (pc : Word) : busRead width a word pc s = .next (s.mem.load width a, s) := by
  unfold busRead; rw [plainAccess_iff.1 h]

theorem busWrite_plain {s : State} {width : Width} {a : Word} (h : s.plainAccess width a = true) (v : Word)
    (word : Option Word) (pc : Word) :
    busWrite width a v word pc s = .next { s with mem := s.mem.store width a v } := by
  unfold busWrite; rw [plainAccess_iff.1 h]

theorem busRead_fails {s : State} {width : Width} {a : Word} (h : busKind s.host.regions a width.bytes = .fails)
    (word : Option Word) (pc : Word) : busRead width a word pc s = raise (.bus a width.bytes word pc) s := by
  unfold busRead; rw [h]

theorem busWrite_fails {s : State} {width : Width} {a : Word} (h : busKind s.host.regions a width.bytes = .fails)
    (v : Word) (word : Option Word) (pc : Word) :
    busWrite width a v word pc s = raise (.bus a width.bytes word pc) s := by
  unfold busWrite; rw [h]

/-- A read of a device: the free value without a script, else the next reply, after its host calls. -/
theorem busRead_device {s : State} {width : Width} {a : Word} (h : busKind s.host.regions a width.bytes = .device)
    (word : Option Word) (pc : Word) :
    (s.host.deviceScript = [] → busRead width a word pc s =
      .next (width.clip (Config.deviceValue s.draws), { s with draws := s.draws + 1 })) ∧
    ∀ r rs, s.host.deviceScript = r :: rs → busRead width a word pc s =
      andThen (hostCalls r.calls { s with host.deviceScript := rs }) fun s1 =>
        if r.ok then .next (width.clip r.value, s1) else raise (.bus a width.bytes word pc) s1 := by
  unfold busRead
  simp only [h]
  exact ⟨fun e => by rw [e], fun r rs e => by rw [e]⟩

/-- A write to a device: nothing without a script, else the next reply's host calls. -/
theorem busWrite_device {s : State} {width : Width} {a : Word} (h : busKind s.host.regions a width.bytes = .device)
    (v : Word) (word : Option Word) (pc : Word) :
    (s.host.deviceScript = [] → busWrite width a v word pc s = .next s) ∧
    ∀ r rs, s.host.deviceScript = r :: rs → busWrite width a v word pc s =
      andThen (hostCalls r.calls { s with host.deviceScript := rs }) fun s1 =>
        if r.ok then .next s1 else raise (.bus a width.bytes word pc) s1 := by
  unfold busWrite
  simp only [h]
  exact ⟨fun e => by rw [e], fun r rs e => by rw [e]⟩

theorem busRead_keeps {width : Width} {a : Word} {word : Option Word} {pc v : Word} {s t : State}
    (h : busRead width a word pc s = .next (v, t)) : HostKeeps s t := by
  unfold busRead at h
  split at h
  · cases h
  · cases h; exact .refl _
  · split at h
    · cases h; exact ⟨rfl, rfl, rfl, rfl, rfl⟩
    · obtain ⟨u, hu, ht⟩ := andThen_eq_next.1 h
      split at ht
      · cases ht
        obtain ⟨a, b, c, d, e⟩ := hostCalls_keeps hu
        exact ⟨a, b, c, d, e⟩
      · cases ht

theorem busWrite_keeps {width : Width} {a v : Word} {word : Option Word} {pc : Word} {s t : State}
    (h : busWrite width a v word pc s = .next t) : HostKeeps s t := by
  unfold busWrite at h
  split at h
  · cases h
  · cases h; exact ⟨rfl, rfl, rfl, rfl, rfl⟩
  · split at h
    · cases h; exact .refl _
    · obtain ⟨u, hu, ht⟩ := andThen_eq_next.1 h
      split at ht
      · cases ht
        obtain ⟨a, b, c, d, e⟩ := hostCalls_keeps hu
        exact ⟨a, b, c, d, e⟩
      · cases ht

/-! ## PC write -/

theorem isAligned_iff {a : Word} : isAligned a = true ↔ a.toNat % 4 = 0 := by simp [isAligned]

theorem pcWrite_aligned {v : Word} (h : isAligned v = true) (i : Instr) (s : State) :
    pcWrite i v s = .next (flush { s with cpu.pc := v }) := by simp [pcWrite, h]

theorem pcWrite_next {i : Instr} {v : Word} {s t : State} (h : pcWrite i v s = .next t) :
    isAligned v = true ∧ t = flush { s with cpu.pc := v } := by
  unfold pcWrite at h
  split at h
  · exact ⟨by assumption, (Host.Outcome.next.inj h).symm⟩
  · cases h

/-! ## Retire -/

/-- An instruction that is ready does its effect and is charged. -/
theorem retire_ready {i : Instr} {m : Mode} {s : State} (h : Ready i m s) (body : Mode → Result State) :
    retire i s body = andThen (body m) (accountInstr i s) := by
  simp [retire, h.word, h.cond, h.mode]

/-- An instruction whose condition fails only advances and is charged. -/
theorem retire_failed {i : Instr} {s : State} (hw : i.checkWord = none) (hc : condHolds s.cpu.cpsr i.cond = false)
    (body : Mode → Result State) : retire i s body = accountInstr i s (advance s) := by
  simp [retire, hw, hc]

/-- A word that faults at decode faults whatever its condition. -/
theorem retire_fault {i : Instr} {s : State} {k : DecodeFault} (hw : i.checkWord = some k)
    (body : Mode → Result State) : retire i s body = raise (.atDecode k (encode i) s.instrAddr) s := by
  simp [retire, hw]

/-- Everything `retire` can do when it answers a next state. -/
theorem retire_next {i : Instr} {s t : State} {body : Mode → Result State} (h : retire i s body = .next t) :
    i.checkWord = none ∧
      ((condHolds s.cpu.cpsr i.cond = true ∧ ∃ m u, s.mode = some m ∧ body m = .next u ∧
          accountInstr i s u = .next t) ∨
        (condHolds s.cpu.cpsr i.cond = false ∧ accountInstr i s (advance s) = .next t)) := by
  unfold retire at h
  split at h
  · cases h
  · rename_i hw
    refine ⟨hw, ?_⟩
    split at h
    · rename_i hc
      split at h
      · rename_i m hm
        obtain ⟨u, hu, ht⟩ := andThen_eq_next.1 h
        exact .inl ⟨hc, m, u, hm, hu, ht⟩
      · cases h
    · rename_i hc
      exact .inr ⟨by simpa using hc, h⟩

end Sys2Proof.Machine
end

