-- ==== Sys2Proof/Laws/World.lean ====
section
/-!
SUPPORT. One induction for every whole-machine rule about the scheduler and memory: a relation between states that ignores
the engine, and holds across every host call and every plain store, holds across every step.
-/

namespace Sys2Proof.Machine

open Sys2Proof

/-- A relation that sees only scheduler, memory and parameters, is transitive, and holds across a host call and a plain
store. -/
structure WorldRel (R : State → State → Prop) : Prop where
  quiet : ∀ s t : State, t.sched = s.sched → t.mem = s.mem → t.config = s.config → R s t
  trans : ∀ s t u : State, R s t → R t u → R s u
  call : ∀ c s t, hostCall c s = .next t → R s t
  store : ∀ (s : State) width a v, R s { s with mem := s.mem.store width a v }

variable {R : State → State → Prop}

theorem WorldRel.calls (h : WorldRel R) {cs : List HostCall} {s t : State} (e : hostCalls cs s = .next t) : R s t := by
  induction cs generalizing s with
  | nil => cases e; exact h.quiet _ _ rfl rfl rfl
  | cons c cs ih =>
    obtain ⟨u, hu, ht⟩ := andThen_eq_next.1 e
    exact h.trans _ _ _ (h.call _ _ _ hu) (ih ht)

theorem WorldRel.busRead (h : WorldRel R) {width : Width} {a : Word} {word : Option Word} {pc v : Word} {s t : State}
    (e : busRead width a word pc s = .next (v, t)) : R s t := by
  unfold Machine.busRead at e
  split at e
  · cases e
  · cases e; exact h.quiet _ _ rfl rfl rfl
  · split at e
    · cases e; exact h.quiet _ _ rfl rfl rfl
    · rename_i r rs _
      obtain ⟨u, hu, ht⟩ := andThen_eq_next.1 e
      split at ht
      · cases ht
        exact h.trans s { s with host.deviceScript := rs } _ (h.quiet _ _ rfl rfl rfl) (h.calls hu)
      · cases ht

theorem WorldRel.busWrite (h : WorldRel R) {width : Width} {a v : Word} {word : Option Word} {pc : Word} {s t : State}
    (e : busWrite width a v word pc s = .next t) : R s t := by
  unfold Machine.busWrite at e
  split at e
  · cases e
  · cases e; exact h.store _ _ _ _
  · split at e
    · cases e; exact h.quiet _ _ rfl rfl rfl
    · rename_i r rs _
      obtain ⟨u, hu, ht⟩ := andThen_eq_next.1 e
      split at ht
      · cases ht
        exact h.trans s { s with host.deviceScript := rs } _ (h.quiet _ _ rfl rfl rfl) (h.calls hu)
      · cases ht

theorem WorldRel.account (h : WorldRel R) {n : Nat} {word : Option Word} {pc : Word} {s t : State}
    (e : account n word pc s = .next t) : R s t := by
  obtain ⟨-, rfl⟩ := account_next e
  exact h.quiet _ _ rfl rfl rfl

theorem WorldRel.pcWrite (h : WorldRel R) {i : Instr} {v : Word} {s t : State} (e : pcWrite i v s = .next t) : R s t := by
  obtain ⟨-, rfl⟩ := pcWrite_next e
  exact h.quiet _ _ rfl rfl rfl

/-- `retire` adds nothing to its body. -/
theorem WorldRel.retire (h : WorldRel R) {i : Instr} {s t : State} {body : Mode → Result State}
    (hb : ∀ m u, body m = .next u → R s u) (e : retire i s body = .next t) : R s t := by
  obtain ⟨-, ⟨-, m, u, -, hu, ha⟩ | ⟨-, ha⟩⟩ := retire_next e
  · exact h.trans _ _ _ (hb m u hu) (h.account ha)
  · exact h.trans _ (advance s) _ (h.quiet _ _ rfl rfl rfl) (h.account ha)

theorem WorldRel.dpFinish (h : WorldRel R) {i : Instr} {w b : Bool} {rd : RegNum} {m : Mode} {o : AluOut} {s t : State}
    (e : dpFinish i w b rd m o s = .next t) : R s t := by
  unfold Machine.dpFinish at e
  split at e
  · exact h.pcWrite e
  · cases e
    exact h.quiet _ _ (by cases w <;> simp) (by cases w <;> simp) (by cases w <;> simp)

theorem WorldRel.dpImm (h : WorldRel R) {i : Instr} {op : AluOp} {w : Bool} {f : Dpi} {s t : State}
    (e : dpImm i op w f s = .next t) : R s t := h.retire (fun _ _ hu => h.dpFinish hu) e

theorem WorldRel.dpSh (h : WorldRel R) {i : Instr} {op : AluOp} {w : Bool} {f : Dps} {s t : State}
    (e : dpSh i op w f s = .next t) : R s t := h.retire (fun _ _ hu => h.dpFinish hu) e

theorem WorldRel.dpRsh (h : WorldRel R) {i : Instr} {op : AluOp} {w : Bool} {f : Dpr} {s t : State}
    (e : dpRsh i op w f s = .next t) : R s t := by
  refine h.retire (fun m u hu => ?_) e
  split at hu
  · cases hu
  · exact h.dpFinish hu

theorem WorldRel.loadWord (h : WorldRel R) {i : Instr} {a v : Word} {s t : State}
    (e : loadWord i a s = .next (v, t)) : R s t := by
  have emit : ∀ r, R s (s.emit r) := fun r => h.quiet _ _ rfl rfl rfl
  unfold Machine.loadWord at e
  split at e
  · exact h.busRead e
  · split at e
    · exact h.trans _ _ _ (emit _) (h.busRead e)
    · obtain ⟨⟨w, u⟩, hu, ht⟩ := andThen_eq_next.1 e
      cases ht
      exact h.trans _ _ _ (emit _) (h.busRead hu)
    · cases e

theorem WorldRel.storeWord (h : WorldRel R) {i : Instr} {a v : Word} {s t : State}
    (e : storeWord i a v s = .next t) : R s t := by
  have emit : ∀ r, R s (s.emit r) := fun r => h.quiet _ _ rfl rfl rfl
  unfold Machine.storeWord at e
  split at e
  · exact h.busWrite e
  · split at e
    · exact h.trans _ _ _ (emit _) (h.busWrite e)
    · exact h.trans _ _ _ (emit _) (h.busWrite e)
    · cases e

theorem WorldRel.lsExecute (h : WorldRel R) {p u w : Bool} {rn : RegNum} {off : Word} {m : Mode}
    {access : Word → State → Result State} {s t : State} (ha : ∀ a v, access a s = .next v → R s v)
    (e : lsExecute p u w rn off m access s = .next t) : R s t := by
  obtain ⟨v, hv, ht⟩ := andThen_eq_next.1 e
  cases ht
  refine h.trans _ _ _ (ha _ _ hv) (h.quiet _ _ ?_ ?_ ?_) <;> simp only [advance_sched, advance_mem, advance_config] <;>
    split <;> simp

theorem WorldRel.ldr (h : WorldRel R) {i : Instr} {rd : RegNum} {m : Mode} {a : Word} {s t : State}
    (e : ldrAccess i rd m a s = .next t) : R s t := by
  obtain ⟨⟨v, u⟩, hu, ht⟩ := andThen_eq_next.1 e
  cases ht
  exact h.trans _ _ _ (h.loadWord hu) (h.quiet _ _ (by simp) (by simp) (by simp))

theorem WorldRel.ldrb (h : WorldRel R) {i : Instr} {rd : RegNum} {m : Mode} {a : Word} {s t : State}
    (e : ldrbAccess i rd m a s = .next t) : R s t := by
  obtain ⟨⟨v, u⟩, hu, ht⟩ := andThen_eq_next.1 e
  cases ht
  exact h.trans _ _ _ (h.busRead hu) (h.quiet _ _ (by simp) (by simp) (by simp))

theorem WorldRel.str (h : WorldRel R) {i : Instr} {rd : RegNum} {m : Mode} {a : Word} {s t : State}
    (e : strAccess i rd m a s = .next t) : R s t := by
  unfold strAccess at e
  exact h.storeWord e

theorem WorldRel.strb (h : WorldRel R) {i : Instr} {rd : RegNum} {m : Mode} {a : Word} {s t : State}
    (e : strbAccess i rd m a s = .next t) : R s t := by
  unfold strbAccess Machine.store at e
  exact h.busWrite e

theorem WorldRel.loadSlots (h : WorldRel R) {i : Instr} {slots : List (RegNum × Word)}
    {l : List (RegNum × Word)} {s t : State} (e : loadSlots i slots s = .next (l, t)) : R s t := by
  induction slots generalizing s l with
  | nil => cases e; exact h.quiet _ _ rfl rfl rfl
  | cons p rest ih =>
    obtain ⟨⟨v, u⟩, hu, ht⟩ := andThen_eq_next.1 e
    obtain ⟨⟨l', u'⟩, hu', ht'⟩ := andThen_eq_next.1 ht
    cases ht'
    exact h.trans _ _ _ (h.busRead hu) (ih hu')

theorem WorldRel.storeSlots (h : WorldRel R) {i : Instr} {slots : List (Word × Word)} {s t : State}
    (e : storeSlots i slots s = .next t) : R s t := by
  induction slots generalizing s with
  | nil => cases e; exact h.quiet _ _ rfl rfl rfl
  | cons p rest ih =>
    obtain ⟨u, hu, ht⟩ := andThen_eq_next.1 e
    exact h.trans _ _ _ (h.busWrite hu) (ih ht)

theorem writeRegs_outside (m : Mode) (l : List (RegNum × Word)) (s : State) :
    (writeRegs m l s).sched = s.sched ∧ (writeRegs m l s).mem = s.mem ∧ (writeRegs m l s).config = s.config := by
  induction l generalizing s with
  | nil => exact ⟨rfl, rfl, rfl⟩
  | cons p rest ih => simpa [writeRegs] using ih (writeReg m p.1 p.2 s)

theorem WorldRel.writeback (h : WorldRel R) (f : BtFields) (base : Word) (m : Mode) (s : State) :
    R s (btWriteback f base m s) := by
  refine h.quiet _ _ ?_ ?_ ?_ <;> unfold btWriteback <;> split <;> simp

theorem WorldRel.stm (h : WorldRel R) {f : BtFields} {s t : State} (e : execStm f s = .next t) : R s t := by
  refine h.retire (fun m u hu => ?_) e
  dsimp only at hu
  split at hu
  · cases hu
  · obtain ⟨v, hv, ht⟩ := andThen_eq_next.1 hu
    cases ht
    exact h.trans _ _ _ (h.trans _ _ _ (h.storeSlots hv) (h.writeback f _ m v)) (h.quiet _ _ rfl rfl rfl)

theorem WorldRel.ldm (h : WorldRel R) {f : BtFields} {s t : State} (e : execLdm f s = .next t) : R s t := by
  refine h.retire (fun m u hu => ?_) e
  dsimp only at hu
  split at hu
  · cases hu
  · obtain ⟨⟨l, v⟩, hv, ht⟩ := andThen_eq_next.1 hu
    obtain ⟨a, b, c⟩ := writeRegs_outside m l v
    have hw := h.trans _ _ _ (h.trans _ _ _ (h.loadSlots hv) (h.quiet _ _ a b c)) (h.writeback f (readReg m f.rn s) m _)
    simp only [ldmFinish] at ht
    split at ht
    · exact h.trans _ _ _ hw (h.pcWrite ht)
    · cases ht
      exact h.trans _ _ _ hw (h.quiet _ _ rfl rfl rfl)

theorem WorldRel.msr (h : WorldRel R) {i : Instr} {b : Bool} {k : BitVec 4} {v : Word} {m : Mode} {s t : State}
    (e : msrWrite i b k v m s = .next t) : R s t := by
  unfold msrWrite at e
  split at e
  · split at e
    · cases e; exact h.quiet _ _ rfl rfl rfl
    · cases e
  · dsimp only at e
    split at e
    · cases e; exact h.quiet _ _ rfl rfl rfl
    · cases e

/-- The relation holds across every instruction. -/
theorem WorldRel.exec (h : WorldRel R) {i : Instr} {s t : State} (e : exec i s = .next t) : R s t := by
  cases i with
  | andRsh f | eorRsh f | subRsh f | rsbRsh f | addRsh f | tstRsh f | cmpRsh f | cmnRsh f | orrRsh f | movRsh f
  | bicRsh f | mvnRsh f => exact h.dpRsh e
  | andSh f | eorSh f | subSh f | rsbSh f | addSh f | tstSh f | cmpSh f | cmnSh f | orrSh f | movSh f | bicSh f
  | mvnSh f => exact h.dpSh e
  | andImm f | eorImm f | subImm f | rsbImm f | addImm f | tstImm f | cmpImm f | cmnImm f | orrImm f | movImm f
  | bicImm f | mvnImm f => exact h.dpImm e
  | adcRsh f | sbcRsh f | rscRsh f | teqRsh f | adcSh f | sbcSh f | rscSh f | teqSh f | adcImm f | sbcImm f | rscImm f
  | teqImm f => cases e
  | mul f | mla f =>
    refine h.retire (fun m u hu => ?_) e
    cases hu
    exact h.quiet _ _ (by simp) (by simp) (by simp)
  | strImm f | strReg f => exact h.retire (fun m u hu => h.lsExecute (fun a v hv => h.str hv) hu) e
  | ldrImm f | ldrReg f => exact h.retire (fun m u hu => h.lsExecute (fun a v hv => h.ldr hv) hu) e
  | strbImm f | strbReg f => exact h.retire (fun m u hu => h.lsExecute (fun a v hv => h.strb hv) hu) e
  | ldrbImm f | ldrbReg f => exact h.retire (fun m u hu => h.lsExecute (fun a v hv => h.ldrb hv) hu) e
  | stm f => exact h.stm e
  | ldm f => exact h.ldm e
  | b f =>
    change execB f s = _ at e
    exact h.retire (fun m u hu => h.pcWrite hu) e
  | bl f =>
    change execBl f s = _ at e
    refine h.retire (fun m u hu => ?_) e
    exact h.trans _ _ _ (h.quiet _ _ (by simp) (by simp) (by simp)) (h.pcWrite hu)
  | mrs f =>
    refine h.retire (fun m u hu => ?_) e
    split at hu
    · split at hu
      · cases hu; exact h.quiet _ _ (by simp) (by simp) (by simp)
      · cases hu
    · cases hu; exact h.quiet _ _ (by simp) (by simp) (by simp)
  | msrReg f =>
    change execMsrReg f s = _ at e
    exact h.retire (fun m u hu => h.msr hu) e
  | msrImm f =>
    change execMsrImm f s = _ at e
    exact h.retire (fun m u hu => h.msr hu) e
  | swi f =>
    change execSwi f s = _ at e
    refine h.retire (fun m u hu => ?_) e
    cases hu
    exact h.quiet _ _ rfl rfl rfl

theorem dispatched_outside (s : State) :
    (dispatched s).sched = s.sched ∧ (dispatched s).mem = s.mem ∧ (dispatched s).config = s.config := by
  unfold dispatched takeException
  split <;> simp

theorem WorldRel.fetchCycle (h : WorldRel R) {s t : State} (e : fetchCycle s = .next t) : R s t := by
  obtain ⟨a, b, c⟩ := dispatched_outside s
  refine h.trans _ _ _ (h.quiet _ _ a b c) ?_
  have fill : ∀ u v, fillStep u = .next v → R u v := by
    intro u v hv
    obtain ⟨⟨w, x⟩, hx, ht⟩ := andThen_eq_next.1 hv
    refine h.trans _ _ _ (h.busRead hx) (h.trans _ _ _ ?_ (h.account ht))
    exact h.quiet _ _ rfl rfl rfl
  unfold Machine.fetchCycle at e
  split at e
  · obtain ⟨⟨w, x⟩, hx, ht⟩ := andThen_eq_next.1 e
    dsimp only at ht
    split at ht
    · refine h.trans _ _ _ (h.busRead hx) (h.trans _ _ _ ?_ (h.exec ht))
      exact h.quiet _ _ rfl rfl rfl
    · cases ht
  · exact fill _ _ e
  · exact fill _ _ e

/-- All that follows a fetch cycle (R217, R232): the next turn, read from the state the cycle left. -/
theorem afterCycle_eq (boot : Bool) (s : State) : afterCycle boot s = { s with turn := turnAfterCycle boot s } := by
  unfold afterCycle turnAfterCycle belowTarget
  cases s.clock s.config.engineDomain <;> simp

theorem enterIteration_outside (d : Nat) (s : State) :
    (enterIteration d s).sched = s.sched ∧ (enterIteration d s).mem = s.mem ∧
      (enterIteration d s).config = s.config := ⟨rfl, rfl, rfl⟩

theorem startIteration_outside (s : State) :
    (startIteration s).sched = s.sched ∧ (startIteration s).mem = s.mem ∧ (startIteration s).config = s.config := by
  unfold startIteration
  split <;> exact ⟨rfl, rfl, rfl⟩

theorem endIteration_outside (s : State) :
    (endIteration s).sched = s.sched ∧ (endIteration s).mem = s.mem ∧ (endIteration s).config = s.config := by
  unfold endIteration
  split
  · exact startIteration_outside s
  · exact ⟨rfl, rfl, rfl⟩

theorem WorldRel.pop (h : WorldRel R) {d : Nat} {s t : State} {o : Option Nat} (e : popEarliest d s = .next (o, t)) :
    R s t := h.call (.popEarliest d) s t (by simp [hostCall, e])

/-- The relation holds across every step, if it holds across the driver's advance of the stamp that is its turn. -/
theorem WorldRel.step (h : WorldRel R) {s t : State}
    (ha : ∀ d w u, s.turn = .advance d → advanceStamp d w s = .next u → R s u) (e : step s = .next t) : R s t := by
  unfold Machine.step at e
  split at e
  · cases e
  split at e
  swap
  · cases e
  unfold turnStep at e
  split at e
  · unfold bootTurn at e
    split at e
    · cases e
      obtain ⟨a, b, c⟩ := startIteration_outside s
      exact h.quiet _ _ a b c
    · rename_i k ks _
      exact h.trans s { s with host.boot := ks } _ (h.quiet _ _ rfl rfl rfl) (h.call _ _ _ e)
    · cases e
      exact h.quiet _ _ rfl rfl rfl
  · obtain ⟨u, hu, ht⟩ := andThen_eq_next.1 e
    cases ht
    exact h.trans _ _ _ (h.fetchCycle hu) (h.quiet _ _ rfl rfl rfl)
  · rename_i d hd
    unfold driverAdvance at e
    split at e
    · cases e
    · obtain ⟨u, hu, ht⟩ := andThen_eq_next.1 e
      cases ht
      exact h.trans _ _ _ (ha _ _ _ hd hu) (h.quiet _ _ rfl rfl rfl)
  · unfold driverDrain at e
    have ending : R s (endIteration s) := by
      obtain ⟨a, b, c⟩ := endIteration_outside s
      exact h.quiet _ _ a b c
    split at e
    · cases e
    split at e
    · cases e; exact ending
    split at e
    · cases e; exact ending
    obtain ⟨⟨o, u⟩, hu, ht⟩ := andThen_eq_next.1 e
    refine h.trans _ _ _ (h.pop hu) ?_
    dsimp only at ht
    split at ht
    · unfold invokeHandler at ht
      split at ht
      · cases ht
      · refine h.trans _ _ _ ?_ (h.calls ht)
        exact h.quiet _ _ rfl rfl rfl
    · cases ht; exact h.quiet _ _ rfl rfl rfl
  · unfold hostTurn at e
    split at e
    · cases e
      obtain ⟨a, b, c⟩ := startIteration_outside s
      exact h.quiet _ _ a b c
    · rename_i k ks _
      exact h.trans s { s with host.inbox := ks } _ (h.quiet _ _ rfl rfl rfl) (h.call _ _ _ e)

end Sys2Proof.Machine
end

