-- ==== Sys2Proof/Laws/Engine.lean ====
section
/-!
SUPPORT. What any instruction can do to the program counter, the queue, the pending mask and the mode: it advances and
keeps the queue, or writes an aligned R15 and empties it.
-/

namespace Sys2Proof.Machine

open Sys2Proof

/-- What an instruction can do to the engine's flow: advance, or a PC write (00_scope.md R15, 41_pipeline.md R212); RESET, DABT
and PABT never change; a valid mode stays valid. -/
structure Flow (a b : Cpu) : Prop where
  pc : (b.pc = a.pc + 4 ∧ b.queue = a.queue) ∨ (b.pc.toNat % 4 = 0 ∧ b.queue = .empty)
  reset : b.pending.reset = a.pending.reset
  dabt : b.pending.dabt = a.pending.dabt
  pabt : b.pending.pabt = a.pending.pabt
  mode : (Mode.ofBits a.cpsr.m).isSome = true → (Mode.ofBits b.cpsr.m).isSome = true

/-- The advance, with pending mask and mode as they were. -/
theorem Flow.ofAdvance {a b : Cpu} (hp : b.pc = a.pc + 4) (hq : b.queue = a.queue) (he : b.pending = a.pending)
    (hm : b.cpsr.m = a.cpsr.m) : Flow a b :=
  ⟨.inl ⟨hp, hq⟩, by rw [he], by rw [he], by rw [he], by rw [hm]; exact id⟩

theorem Flow.ofPcWrite {i : Instr} {v : Word} {s u t : State} (h : pcWrite i v u = .next t)
    (he : u.cpu.pending = s.cpu.pending) (hm : u.cpu.cpsr = s.cpu.cpsr) : Flow s.cpu t.cpu := by
  obtain ⟨ha, rfl⟩ := pcWrite_next h
  refine ⟨.inr ⟨isAligned_iff.1 ha, rfl⟩, ?_, ?_, ?_, ?_⟩ <;> simp [he, hm]

/-- The charge changes the counter alone. -/
theorem Flow.account {a : Cpu} {n : Nat} {word : Option Word} {pc : Word} {u t : State} (h : Flow a u.cpu)
    (e : account n word pc u = .next t) : Flow a t.cpu := by
  obtain ⟨-, rfl⟩ := account_next e
  exact ⟨h.pc, h.reset, h.dabt, h.pabt, h.mode⟩

theorem Flow.retire {i : Instr} {s t : State} {body : Mode → Result State}
    (hb : ∀ m u, body m = .next u → Flow s.cpu u.cpu) (e : retire i s body = .next t) : Flow s.cpu t.cpu := by
  obtain ⟨-, ⟨-, m, u, -, hu, ha⟩ | ⟨-, ha⟩⟩ := retire_next e
  · exact (hb m u hu).account ha
  · exact (Flow.ofAdvance (b := (advance s).cpu) rfl rfl rfl rfl).account ha

theorem ite_withResult_m (b : Bool) (o : AluOut) (p : Psr) : (if b then p.withResult o else p).m = p.m := by
  cases b <;> rfl

theorem Flow.dpFinish {i : Instr} {w b : Bool} {rd : RegNum} {m : Mode} {o : AluOut} {s t : State}
    (e : dpFinish i w b rd m o s = .next t) : Flow s.cpu t.cpu := by
  unfold Machine.dpFinish at e
  split at e
  · exact Flow.ofPcWrite e rfl rfl
  · cases e
    apply Flow.ofAdvance <;> cases w <;> simp [ite_withResult_m]

theorem loadWord_cpu {i : Instr} {a v : Word} {s t : State} (e : loadWord i a s = .next (v, t)) : t.cpu = s.cpu := by
  unfold loadWord at e
  split at e
  · exact (busRead_keeps e).cpu
  · split at e
    · exact (busRead_keeps e).cpu
    · obtain ⟨⟨w, u⟩, hu, ht⟩ := andThen_eq_next.1 e
      cases ht
      exact (busRead_keeps hu).cpu
    · cases e

theorem storeWord_cpu {i : Instr} {a v : Word} {s t : State} (e : storeWord i a v s = .next t) : t.cpu = s.cpu := by
  unfold storeWord at e
  split at e
  · exact (busWrite_keeps e).cpu
  · split at e
    · exact (busWrite_keeps e).cpu
    · exact (busWrite_keeps e).cpu
    · cases e

/-- Of the engine, an access changes at most general registers. -/
def RegsOnly (a b : Cpu) : Prop :=
  b.pc = a.pc ∧ b.cpsr = a.cpsr ∧ b.spsr = a.spsr ∧ b.queue = a.queue ∧ b.pending = a.pending ∧ b.cycles = a.cycles

theorem RegsOnly.ofEq {a b : Cpu} (h : b = a) : RegsOnly a b := by subst h; exact ⟨rfl, rfl, rfl, rfl, rfl, rfl⟩

theorem RegsOnly.writeReg {a : Cpu} {s : State} (h : RegsOnly a s.cpu) (m : Mode) (r : RegNum) (v : Word) :
    RegsOnly a (writeReg m r v s).cpu := by simpa [RegsOnly] using h

theorem RegsOnly.flow {a : Cpu} {s : State} (h : RegsOnly a s.cpu) : Flow a (advance s).cpu := by
  obtain ⟨h1, h2, -, h4, h5, -⟩ := h
  exact Flow.ofAdvance (by simp [h1]) (by simp [h4]) (by simp [h5]) (by simp [h2])

theorem ldr_regs {i : Instr} {rd : RegNum} {m : Mode} {a : Word} {s t : State} (e : ldrAccess i rd m a s = .next t) :
    RegsOnly s.cpu t.cpu := by
  obtain ⟨⟨v, u⟩, hu, ht⟩ := andThen_eq_next.1 e
  cases ht
  exact (RegsOnly.ofEq (loadWord_cpu hu)).writeReg m rd v

theorem ldrb_regs {i : Instr} {rd : RegNum} {m : Mode} {a : Word} {s t : State} (e : ldrbAccess i rd m a s = .next t) :
    RegsOnly s.cpu t.cpu := by
  obtain ⟨⟨v, u⟩, hu, ht⟩ := andThen_eq_next.1 e
  cases ht
  exact (RegsOnly.ofEq (busRead_keeps hu).cpu).writeReg m rd v

theorem str_regs {i : Instr} {rd : RegNum} {m : Mode} {a : Word} {s t : State} (e : strAccess i rd m a s = .next t) :
    RegsOnly s.cpu t.cpu := by
  unfold strAccess at e
  exact RegsOnly.ofEq (storeWord_cpu e)

theorem strb_regs {i : Instr} {rd : RegNum} {m : Mode} {a : Word} {s t : State} (e : strbAccess i rd m a s = .next t) :
    RegsOnly s.cpu t.cpu := by
  unfold strbAccess Machine.store at e
  exact RegsOnly.ofEq (busWrite_keeps e).cpu

theorem Flow.lsExecute {p u w : Bool} {rn : RegNum} {off : Word} {m : Mode} {access : Word → State → Result State}
    {s t : State} (ha : ∀ a v, access a s = .next v → RegsOnly s.cpu v.cpu)
    (e : lsExecute p u w rn off m access s = .next t) : Flow s.cpu t.cpu := by
  obtain ⟨v, hv, ht⟩ := andThen_eq_next.1 e
  cases ht
  split
  · exact ((ha _ _ hv).writeReg _ _ _).flow
  · exact (ha _ _ hv).flow

theorem loadSlots_cpu {i : Instr} {slots l : List (RegNum × Word)} {s t : State}
    (e : loadSlots i slots s = .next (l, t)) : t.cpu = s.cpu := by
  induction slots generalizing s l with
  | nil => cases e; rfl
  | cons p rest ih =>
    obtain ⟨⟨v, u⟩, hu, ht⟩ := andThen_eq_next.1 e
    obtain ⟨⟨l', u'⟩, hu', ht'⟩ := andThen_eq_next.1 ht
    cases ht'
    exact (ih hu').trans (busRead_keeps hu).cpu

theorem storeSlots_cpu {i : Instr} {slots : List (Word × Word)} {s t : State}
    (e : storeSlots i slots s = .next t) : t.cpu = s.cpu := by
  induction slots generalizing s with
  | nil => cases e; rfl
  | cons p rest ih =>
    obtain ⟨u, hu, ht⟩ := andThen_eq_next.1 e
    exact (ih ht).trans (busWrite_keeps hu).cpu

theorem RegsOnly.writeRegs {a : Cpu} {s : State} (h : RegsOnly a s.cpu) (m : Mode) (l : List (RegNum × Word)) :
    RegsOnly a (writeRegs m l s).cpu := by
  induction l generalizing s with
  | nil => exact h
  | cons p rest ih => exact ih (h.writeReg m p.1 p.2)

theorem RegsOnly.writeback {a : Cpu} {s : State} (h : RegsOnly a s.cpu) (f : BtFields) (base : Word) (m : Mode) :
    RegsOnly a (btWriteback f base m s).cpu := by
  unfold btWriteback
  split
  · exact h.writeReg _ _ _
  · exact h

theorem Flow.stm {f : BtFields} {s t : State} (e : execStm f s = .next t) : Flow s.cpu t.cpu := by
  refine Flow.retire (fun m u hu => ?_) e
  dsimp only at hu
  split at hu
  · cases hu
  · obtain ⟨v, hv, ht⟩ := andThen_eq_next.1 hu
    cases ht
    exact ((RegsOnly.ofEq (storeSlots_cpu hv)).writeback _ _ _).flow

theorem Flow.ldm {f : BtFields} {s t : State} (e : execLdm f s = .next t) : Flow s.cpu t.cpu := by
  refine Flow.retire (fun m u hu => ?_) e
  dsimp only at hu
  split at hu
  · cases hu
  · obtain ⟨⟨l, v⟩, hv, ht⟩ := andThen_eq_next.1 hu
    have hw := ((RegsOnly.ofEq (loadSlots_cpu hv)).writeRegs m l).writeback f (readReg m f.rn s) m
    simp only [ldmFinish] at ht
    split at ht
    · exact Flow.ofPcWrite ht hw.2.2.2.2.1 hw.2.1
    · cases ht
      exact hw.flow

theorem Flow.msr {i : Instr} {b : Bool} {k : BitVec 4} {v : Word} {m : Mode} {s t : State}
    (e : msrWrite i b k v m s = .next t) : Flow s.cpu t.cpu := by
  unfold msrWrite at e
  split at e
  · split at e
    · cases e; exact Flow.ofAdvance rfl rfl rfl rfl
    · cases e
  · dsimp only at e
    split at e
    · rename_i hm
      cases e
      exact ⟨.inl ⟨rfl, rfl⟩, rfl, rfl, rfl, fun _ => hm⟩
    · cases e

/-- Every instruction follows `Flow`. -/
theorem exec_flow {i : Instr} {s t : State} (e : exec i s = .next t) : Flow s.cpu t.cpu := by
  cases i with
  | andRsh f | eorRsh f | subRsh f | rsbRsh f | addRsh f | tstRsh f | cmpRsh f | cmnRsh f | orrRsh f | movRsh f
  | bicRsh f | mvnRsh f =>
    refine Flow.retire (fun m u hu => ?_) e
    split at hu
    · cases hu
    · exact Flow.dpFinish hu
  | andSh f | eorSh f | subSh f | rsbSh f | addSh f | tstSh f | cmpSh f | cmnSh f | orrSh f | movSh f | bicSh f
  | mvnSh f => exact Flow.retire (fun m u hu => Flow.dpFinish hu) e
  | andImm f | eorImm f | subImm f | rsbImm f | addImm f | tstImm f | cmpImm f | cmnImm f | orrImm f | movImm f
  | bicImm f | mvnImm f => exact Flow.retire (fun m u hu => Flow.dpFinish hu) e
  | adcRsh f | sbcRsh f | rscRsh f | teqRsh f | adcSh f | sbcSh f | rscSh f | teqSh f | adcImm f | sbcImm f | rscImm f
  | teqImm f => cases e
  | mul f | mla f =>
    refine Flow.retire (fun m u hu => ?_) e
    cases hu
    apply Flow.ofAdvance <;> simp [ite_withResult_m]
  | strImm f =>
    change execStrImm f s = _ at e
    exact Flow.retire (fun m u hu => Flow.lsExecute (fun a v hv => str_regs hv) hu) e
  | strReg f =>
    change execStrReg f s = _ at e
    exact Flow.retire (fun m u hu => Flow.lsExecute (fun a v hv => str_regs hv) hu) e
  | ldrImm f =>
    change execLdrImm f s = _ at e
    exact Flow.retire (fun m u hu => Flow.lsExecute (fun a v hv => ldr_regs hv) hu) e
  | ldrReg f =>
    change execLdrReg f s = _ at e
    exact Flow.retire (fun m u hu => Flow.lsExecute (fun a v hv => ldr_regs hv) hu) e
  | strbImm f =>
    change execStrbImm f s = _ at e
    exact Flow.retire (fun m u hu => Flow.lsExecute (fun a v hv => strb_regs hv) hu) e
  | strbReg f =>
    change execStrbReg f s = _ at e
    exact Flow.retire (fun m u hu => Flow.lsExecute (fun a v hv => strb_regs hv) hu) e
  | ldrbImm f =>
    change execLdrbImm f s = _ at e
    exact Flow.retire (fun m u hu => Flow.lsExecute (fun a v hv => ldrb_regs hv) hu) e
  | ldrbReg f =>
    change execLdrbReg f s = _ at e
    exact Flow.retire (fun m u hu => Flow.lsExecute (fun a v hv => ldrb_regs hv) hu) e
  | stm f => exact Flow.stm e
  | ldm f => exact Flow.ldm e
  | b f =>
    change execB f s = _ at e
    exact Flow.retire (fun m u hu => Flow.ofPcWrite hu rfl rfl) e
  | bl f =>
    change execBl f s = _ at e
    exact Flow.retire (fun m u hu => Flow.ofPcWrite hu (by simp) (by simp)) e
  | mrs f =>
    change execMrs f s = _ at e
    refine Flow.retire (fun m u hu => ?_) e
    split at hu
    · split at hu
      · cases hu; apply Flow.ofAdvance <;> simp
      · cases hu
    · cases hu; apply Flow.ofAdvance <;> simp
  | msrReg f =>
    change execMsrReg f s = _ at e
    exact Flow.retire (fun m u hu => Flow.msr hu) e
  | msrImm f =>
    change execMsrImm f s = _ at e
    exact Flow.retire (fun m u hu => Flow.msr hu) e
  | swi f =>
    change execSwi f s = _ at e
    refine Flow.retire (fun m u hu => ?_) e
    cases hu
    exact ⟨.inl ⟨rfl, rfl⟩, rfl, rfl, rfl, id⟩

end Sys2Proof.Machine
end

