-- ==== Sys2Proof/Laws/PerInstr.lean ====
section
/-!
SUPPORT. One statement for all instructions, per instruction: the encoding of an instruction has its row's fixed bits in
spec/opcode_table.json. One lemma for each format, then one for each constructor.
-/

namespace Sys2Proof.Laws.RowMatch

open Sys2Proof

/-- The instruction's word matches its row of spec/opcode_table.json. -/
def Statement (i : Instr) : Prop := encode i &&& i.form.rowMask = i.form.rowMatch

/-- The word of a format matches the row. -/
abbrev FormRow (f : Form) : Prop := f.encode &&& f.rowMask = f.rowMatch

theorem form_mrs (f : MrsFields) : FormRow (.mrs f) := by
  simp only [FormRow, Form.encode, Form.rowMask, Form.rowMatch]
  ext j hj
  simp only [BitVec.getElem_and, BitVec.getElem_append]
  interval_cases j <;> simp

theorem form_msrr (f : MsrRegFields) : FormRow (.msrr f) := by
  simp only [FormRow, Form.encode, Form.rowMask, Form.rowMatch]
  ext j hj
  simp only [BitVec.getElem_and, BitVec.getElem_append]
  interval_cases j <;> simp

theorem form_msri (f : MsrImmFields) : FormRow (.msri f) := by
  simp only [FormRow, Form.encode, Form.rowMask, Form.rowMatch]
  ext j hj
  simp only [BitVec.getElem_and, BitVec.getElem_append]
  interval_cases j <;> simp

theorem form_mul (a : Bool) (f : MulFields) : FormRow (.mul a f) := by
  simp only [FormRow, Form.encode, Form.rowMask, Form.rowMatch]
  ext j hj
  simp only [BitVec.getElem_and, BitVec.getElem_append]
  cases a <;> interval_cases j <;> simp

theorem form_dpr (op : DpOp) (f : Dpr) : FormRow (.dpr op f) := by
  simp only [FormRow, Form.encode, Form.rowMask, Form.rowMatch]
  ext j hj
  simp only [BitVec.getElem_and, BitVec.getElem_append]
  interval_cases j <;> simp

theorem form_dps (op : DpOp) (f : Dps) : FormRow (.dps op f) := by
  simp only [FormRow, Form.encode, Form.rowMask, Form.rowMatch]
  ext j hj
  simp only [BitVec.getElem_and, BitVec.getElem_append]
  interval_cases j <;> simp

theorem form_dpi (op : DpOp) (f : Dpi) : FormRow (.dpi op f) := by
  simp only [FormRow, Form.encode, Form.rowMask, Form.rowMatch]
  ext j hj
  simp only [BitVec.getElem_and, BitVec.getElem_append]
  interval_cases j <;> simp

theorem form_lsi (b l : Bool) (f : LsImmFields) : FormRow (.lsi b l f) := by
  simp only [FormRow, Form.encode, Form.rowMask, Form.rowMatch]
  ext j hj
  simp only [BitVec.getElem_and, BitVec.getElem_append]
  cases b <;> cases l <;> interval_cases j <;> simp

theorem form_lsr (b l : Bool) (f : LsRegFields) : FormRow (.lsr b l f) := by
  simp only [FormRow, Form.encode, Form.rowMask, Form.rowMatch]
  ext j hj
  simp only [BitVec.getElem_and, BitVec.getElem_append]
  cases b <;> cases l <;> interval_cases j <;> simp

theorem form_bt (l : Bool) (f : BtFields) : FormRow (.bt l f) := by
  simp only [FormRow, Form.encode, Form.rowMask, Form.rowMatch]
  ext j hj
  simp only [BitVec.getElem_and, BitVec.getElem_append]
  cases l <;> interval_cases j <;> simp

theorem form_br (k : Bool) (f : BrFields) : FormRow (.br k f) := by
  simp only [FormRow, Form.encode, Form.rowMask, Form.rowMatch]
  ext j hj
  simp only [BitVec.getElem_and, BitVec.getElem_append]
  cases k <;> interval_cases j <;> simp

theorem form_swi (f : SwiFields) : FormRow (.swi f) := by
  simp only [FormRow, Form.encode, Form.rowMask, Form.rowMatch]
  ext j hj
  simp only [BitVec.getElem_and, BitVec.getElem_append]
  interval_cases j <;> simp

theorem mrs (f : MrsFields) : Statement (.mrs f) := form_mrs f

theorem msrReg (f : MsrRegFields) : Statement (.msrReg f) := form_msrr f

theorem msrImm (f : MsrImmFields) : Statement (.msrImm f) := form_msri f

theorem mul (f : MulFields) : Statement (.mul f) := form_mul false f

theorem mla (f : MulFields) : Statement (.mla f) := form_mul true f

theorem andRsh (f : Dpr) : Statement (.andRsh f) := form_dpr .and f

theorem eorRsh (f : Dpr) : Statement (.eorRsh f) := form_dpr .eor f

theorem subRsh (f : Dpr) : Statement (.subRsh f) := form_dpr .sub f

theorem rsbRsh (f : Dpr) : Statement (.rsbRsh f) := form_dpr .rsb f

theorem addRsh (f : Dpr) : Statement (.addRsh f) := form_dpr .add f

theorem adcRsh (f : Dpr) : Statement (.adcRsh f) := form_dpr .adc f

theorem sbcRsh (f : Dpr) : Statement (.sbcRsh f) := form_dpr .sbc f

theorem rscRsh (f : Dpr) : Statement (.rscRsh f) := form_dpr .rsc f

theorem tstRsh (f : Dpr) : Statement (.tstRsh f) := form_dpr .tst f

theorem teqRsh (f : Dpr) : Statement (.teqRsh f) := form_dpr .teq f

theorem cmpRsh (f : Dpr) : Statement (.cmpRsh f) := form_dpr .cmp f

theorem cmnRsh (f : Dpr) : Statement (.cmnRsh f) := form_dpr .cmn f

theorem orrRsh (f : Dpr) : Statement (.orrRsh f) := form_dpr .orr f

theorem movRsh (f : Dpr) : Statement (.movRsh f) := form_dpr .mov f

theorem bicRsh (f : Dpr) : Statement (.bicRsh f) := form_dpr .bic f

theorem mvnRsh (f : Dpr) : Statement (.mvnRsh f) := form_dpr .mvn f

theorem andSh (f : Dps) : Statement (.andSh f) := form_dps .and f

theorem eorSh (f : Dps) : Statement (.eorSh f) := form_dps .eor f

theorem subSh (f : Dps) : Statement (.subSh f) := form_dps .sub f

theorem rsbSh (f : Dps) : Statement (.rsbSh f) := form_dps .rsb f

theorem addSh (f : Dps) : Statement (.addSh f) := form_dps .add f

theorem adcSh (f : Dps) : Statement (.adcSh f) := form_dps .adc f

theorem sbcSh (f : Dps) : Statement (.sbcSh f) := form_dps .sbc f

theorem rscSh (f : Dps) : Statement (.rscSh f) := form_dps .rsc f

theorem tstSh (f : Dps) : Statement (.tstSh f) := form_dps .tst f

theorem teqSh (f : Dps) : Statement (.teqSh f) := form_dps .teq f

theorem cmpSh (f : Dps) : Statement (.cmpSh f) := form_dps .cmp f

theorem cmnSh (f : Dps) : Statement (.cmnSh f) := form_dps .cmn f

theorem orrSh (f : Dps) : Statement (.orrSh f) := form_dps .orr f

theorem movSh (f : Dps) : Statement (.movSh f) := form_dps .mov f

theorem bicSh (f : Dps) : Statement (.bicSh f) := form_dps .bic f

theorem mvnSh (f : Dps) : Statement (.mvnSh f) := form_dps .mvn f

theorem andImm (f : Dpi) : Statement (.andImm f) := form_dpi .and f

theorem eorImm (f : Dpi) : Statement (.eorImm f) := form_dpi .eor f

theorem subImm (f : Dpi) : Statement (.subImm f) := form_dpi .sub f

theorem rsbImm (f : Dpi) : Statement (.rsbImm f) := form_dpi .rsb f

theorem addImm (f : Dpi) : Statement (.addImm f) := form_dpi .add f

theorem adcImm (f : Dpi) : Statement (.adcImm f) := form_dpi .adc f

theorem sbcImm (f : Dpi) : Statement (.sbcImm f) := form_dpi .sbc f

theorem rscImm (f : Dpi) : Statement (.rscImm f) := form_dpi .rsc f

theorem tstImm (f : Dpi) : Statement (.tstImm f) := form_dpi .tst f

theorem teqImm (f : Dpi) : Statement (.teqImm f) := form_dpi .teq f

theorem cmpImm (f : Dpi) : Statement (.cmpImm f) := form_dpi .cmp f

theorem cmnImm (f : Dpi) : Statement (.cmnImm f) := form_dpi .cmn f

theorem orrImm (f : Dpi) : Statement (.orrImm f) := form_dpi .orr f

theorem movImm (f : Dpi) : Statement (.movImm f) := form_dpi .mov f

theorem bicImm (f : Dpi) : Statement (.bicImm f) := form_dpi .bic f

theorem mvnImm (f : Dpi) : Statement (.mvnImm f) := form_dpi .mvn f

theorem strImm (f : LsImmFields) : Statement (.strImm f) := form_lsi false false f

theorem ldrImm (f : LsImmFields) : Statement (.ldrImm f) := form_lsi false true f

theorem strbImm (f : LsImmFields) : Statement (.strbImm f) := form_lsi true false f

theorem ldrbImm (f : LsImmFields) : Statement (.ldrbImm f) := form_lsi true true f

theorem strReg (f : LsRegFields) : Statement (.strReg f) := form_lsr false false f

theorem ldrReg (f : LsRegFields) : Statement (.ldrReg f) := form_lsr false true f

theorem strbReg (f : LsRegFields) : Statement (.strbReg f) := form_lsr true false f

theorem ldrbReg (f : LsRegFields) : Statement (.ldrbReg f) := form_lsr true true f

theorem stm (f : BtFields) : Statement (.stm f) := form_bt false f

theorem ldm (f : BtFields) : Statement (.ldm f) := form_bt true f

theorem b (f : BrFields) : Statement (.b f) := form_br false f

theorem bl (f : BrFields) : Statement (.bl f) := form_br true f

theorem swi (f : SwiFields) : Statement (.swi f) := form_swi f

end Sys2Proof.Laws.RowMatch
end

