-- ==== Sys2Proof/Laws/Results.lean ====
section
/-!
SUPPORT. From the shared endings of the meanings to the post-conditions of Safety: what the end of a data-processing or
multiply instruction, of a load or store, and of a PC write leaves, charge included.
-/

namespace Sys2Proof.Machine

open Sys2Proof

/-! ## Frames -/

theorem RegsBut.refl (l : List PhysReg) (s : State) : RegsBut l s s := fun _ _ => rfl

theorem MemBut.refl (l : List Nat) (s : State) : MemBut l s s := fun _ _ => rfl

theorem FlagsSame.refl (s : State) : FlagsSame s s := ⟨rfl, rfl, rfl, rfl⟩

theorem ControlSame.refl (s : State) : ControlSame s s := ⟨rfl, rfl, rfl⟩

theorem OutsideSame.refl (s : State) : OutsideSame s s := ⟨rfl, rfl, rfl, rfl, rfl, rfl⟩

theorem KeepsAllBut.refl (l : List PhysReg) (b : List Nat) (s : State) : KeepsAllBut l b [] s s :=
  ⟨.refl l s, .refl s, .refl s, rfl, rfl, .refl b s, by simp, .refl s⟩

theorem RegsBut.trans {l l' : List PhysReg} {s t u : State} (h : RegsBut l s t) (h' : RegsBut l' t u) :
    RegsBut (l ++ l') s u := fun p hp => by
  rw [List.mem_append, not_or] at hp
  rw [h' p hp.2, h p hp.1]

theorem RegsBut.mono {l l' : List PhysReg} {s t : State} (h : RegsBut l s t) (hs : ∀ p ∈ l, p ∈ l') :
    RegsBut l' s t := fun p hp => h p fun hm => hp (hs p hm)

/-- Two runs of frames, the log records in order. -/
theorem KeepsAllBut.trans {l l' : List PhysReg} {b b' : List Nat} {r r' : List LogRecord} {s t u : State}
    (h : KeepsAllBut l b r s t) (h' : KeepsAllBut l' b' r' t u) : KeepsAllBut (l ++ l') (b ++ b') (r ++ r') s u where
  regs := h.regs.trans h'.regs
  flags := ⟨h'.flags.1.trans h.flags.1, h'.flags.2.1.trans h.flags.2.1, h'.flags.2.2.1.trans h.flags.2.2.1,
    h'.flags.2.2.2.trans h.flags.2.2.2⟩
  control := ⟨h'.control.1.trans h.control.1, h'.control.2.1.trans h.control.2.1, h'.control.2.2.trans h.control.2.2⟩
  spsr := h'.spsr.trans h.spsr
  pending := h'.pending.trans h.pending
  mem := fun a ha => by
    rw [List.mem_append, not_or] at ha
    rw [h'.mem a ha.2, h.mem a ha.1]
  log := by rw [h'.log, h.log, List.append_assoc]
  outside := ⟨h'.outside.sched.trans h.outside.sched, h'.outside.host.trans h.outside.host,
    h'.outside.fault.trans h.outside.fault, h'.outside.turn.trans h.outside.turn,
    h'.outside.draws.trans h.outside.draws, h'.outside.config.trans h.outside.config⟩

/-- A register write under its frame. -/
theorem KeepsAllBut.writeReg (m : Mode) (r : RegNum) (v : Word) (s : State) :
    KeepsAllBut (phys m r).toList [] [] s (writeReg m r v s) where
  regs := writeReg_regsBut m r v s
  flags := by simp [FlagsSame]
  control := by simp [ControlSame]
  spsr := by simp
  pending := by simp
  mem := fun a _ => by simp
  log := by simp
  outside := ⟨by simp, by simp, by simp, by simp, by simp, by simp⟩

/-- A plain store under its frame. -/
theorem KeepsAllBut.store (width : Width) (a v : Word) (s : State) :
    KeepsAllBut [] (accessAddrs a width.bytes) [] s { s with mem := s.mem.store width a v } where
  regs := .refl _ _
  flags := .refl _
  control := .refl _
  spsr := rfl
  pending := rfl
  mem := fun _ hb => Memory.readByte_store_other _ _ _ _ hb
  log := by simp
  outside := ⟨rfl, rfl, rfl, rfl, rfl, rfl⟩

/-- A log record under its frame. -/
theorem KeepsAllBut.emit (r : LogRecord) (s : State) : KeepsAllBut [] [] [r] s (s.emit r) where
  regs := .refl _ _
  flags := .refl _
  control := .refl _
  spsr := rfl
  pending := rfl
  mem := .refl _ _
  log := rfl
  outside := ⟨rfl, rfl, rfl, rfl, rfl, rfl⟩

/-! ## The charge -/

/-- The state an instruction's body has left, with the instruction's cost charged. -/
def charge (i : Instr) (s u : State) : State :=
  { u with cpu.cycles := u.cpu.cycles + BitVec.ofNat 64 (baseCost s.config i * s.config.cpuClockScale) }

/-- A ready instruction whose body completes, keeping counter and parameters, completes with its charge. -/
theorem retire_completes {i : Instr} {m : Mode} {s u : State} {body : Mode → Result State} (h : Ready i m s)
    (hb : body m = .next u) (hc : u.cpu.cycles = s.cpu.cycles) (hk : u.config = s.config) :
    retire i s body = .next (charge i s u) := by
  have ht : InTime (baseCost s.config i) u := by
    have := h.time
    unfold InTime at this ⊢
    rw [hc, hk]; exact this
  rw [retire_ready h, hb, andThen_next, accountInstr, account_inTime ht]
  simp only [charge, hk]

theorem charge_charged {i : Instr} {s u : State} (ht : InTime (baseCost s.config i) s)
    (hc : u.cpu.cycles = s.cpu.cycles) : Charged i s (charge i s u) := by
  have := cycles_add ht
  unfold Charged charge
  dsimp only
  rw [hc, this]; rfl

theorem KeepsAllBut.charge {i : Instr} {l : List PhysReg} {b : List Nat} {r : List LogRecord} {s u : State}
    (h : KeepsAllBut l b r s u) : KeepsAllBut l b r s (charge i s u) :=
  ⟨h.regs, h.flags, h.control, h.spsr, h.pending, h.mem, h.log,
    ⟨h.outside.sched, h.outside.host, h.outside.fault, h.outside.turn, h.outside.draws, h.outside.config⟩⟩

theorem KeepsAllBut.advance {l : List PhysReg} {b : List Nat} {r : List LogRecord} {s u : State}
    (h : KeepsAllBut l b r s u) : KeepsAllBut l b r s (advance u) :=
  ⟨h.regs, h.flags, h.control, h.spsr, h.pending, h.mem, h.log,
    ⟨h.outside.sched, h.outside.host, h.outside.fault, h.outside.turn, h.outside.draws, h.outside.config⟩⟩

/-- R15 and the queue under a frame that leaves both out. -/
theorem KeepsAllBut.jump {l : List PhysReg} {b : List Nat} {r : List LogRecord} {s u : State} (v : Word)
    (h : KeepsAllBut l b r s u) : KeepsAllBut l b r s (flush { u with cpu.pc := v }) :=
  ⟨h.regs, h.flags, h.control, h.spsr, h.pending, h.mem, h.log,
    ⟨h.outside.sched, h.outside.host, h.outside.fault, h.outside.turn, h.outside.draws, h.outside.config⟩⟩

/-- The advance, charged. -/
theorem advanced_of {i : Instr} {s u : State} (ht : InTime (baseCost s.config i) s) (hu : RegsOnly s.cpu u.cpu) :
    Advanced i s (charge i s (advance u)) :=
  ⟨by show u.cpu.pc + 4 = _; rw [hu.1], hu.2.2.2.1, charge_charged ht hu.2.2.2.2.2⟩

/-- The PC write, charged. -/
theorem jumped_of {i : Instr} {s u : State} (ht : InTime (baseCost s.config i) s) (hu : RegsOnly s.cpu u.cpu)
    (v : Word) : Jumped i v s (charge i s (flush { u with cpu.pc := v })) :=
  ⟨rfl, rfl, charge_charged ht hu.2.2.2.2.2⟩

/-! ## Data processing and multiply -/

theorem msb_eq_getLsbD (v : Word) : v.msb = v.getLsbD 31 := by simp [BitVec.msb_eq_getLsbD_last]

/-- The flags of a result that sets them. -/
theorem flagsAfter_of (b : Bool) (o : AluOut) (s u : State) (hu : u.cpu.cpsr = s.cpu.cpsr) (i : Instr) :
    FlagsAfter b o.res o.c o.v s (charge i s (advance (setFlags b o u))) := by
  cases b
  · simp [FlagsAfter, FlagsSame, charge, setFlags, hu]
  · simp only [FlagsAfter, if_true, charge, advance_cpsr, setFlags_cpsr, Psr.withResult, msb_eq_getLsbD]
    by_cases h : o.res = 0#32 <;> simp [h]

/-- What the common ending of data processing and multiply leaves, for a destination other than R15. -/
theorem writesRd_of {i : Instr} {m : Mode} {rd : RegNum} {s : State} (ht : InTime (baseCost s.config i) s)
    (hr : rd ≠ 15#4) (b : Bool) (o : AluOut) :
    WritesRd i m rd b o.res o.c o.v s (charge i s (advance (setFlags b o (writeReg m rd o.res s)))) where
  value := by
    obtain ⟨p, hp⟩ := phys_isSome (m := m) hr
    rw [readReg_some hp]
    show (setFlags b o (writeReg m rd o.res s)).cpu.regs.get p = _
    rw [setFlags_regs, writeReg_get, hp, if_pos rfl]
  regs := fun p hp => by
    show (setFlags b o (writeReg m rd o.res s)).cpu.regs.get p = _
    rw [setFlags_regs]; exact writeReg_regsBut m rd o.res s p hp
  flags := flagsAfter_of b o s _ (by simp) i
  control := by cases b <;> simp [ControlSame, charge, setFlags, Psr.withResult]
  advance := ⟨by simp [charge], by simp [charge], charge_charged ht (by simp)⟩
  mem := fun a _ => by simp [charge]
  system := ⟨by simp [charge], by simp [charge], by simp [charge],
    ⟨by simp [charge], by simp [charge], by simp [charge], by simp [charge], by simp [charge], by simp [charge]⟩⟩

/-- What the common ending of a compare-only instruction leaves. -/
theorem compares_of {i : Instr} {s : State} (ht : InTime (baseCost s.config i) s) (o : AluOut) :
    Compares i o.res o.c o.v s (charge i s (advance (setFlags true o s))) where
  regs := fun p _ => by simp [charge]
  flags := flagsAfter_of true o s s rfl i
  control := by simp [ControlSame, charge, setFlags, Psr.withResult]
  advance := ⟨by simp [charge], by simp [charge], charge_charged ht (by simp)⟩
  mem := fun a _ => by simp [charge]
  system := ⟨by simp [charge], by simp [charge], by simp [charge],
    ⟨by simp [charge], by simp [charge], by simp [charge], by simp [charge], by simp [charge], by simp [charge]⟩⟩

/-- A ready instruction whose body is `dpFinish` for a writing opcode does what `DpWrites` says. -/
theorem dpWrites_of {i : Instr} {m : Mode} {rd : RegNum} {b : Bool} {o : AluOut} {s : State} (h : Ready i m s)
    (he : ∀ r, dpFinish i true b rd m o s = r → exec i s = andThen r (accountInstr i s)) :
    DpWrites i m rd b o s where
  register hr := by
    have hd : dpFinish i true b rd m o s = .next (advance (setFlags b o (writeReg m rd o.res s))) := by
      simp [dpFinish, hr]
    refine ⟨_, ?_, writesRd_of h.time hr b o⟩
    rw [he _ hd]
    have := retire_completes h (body := fun _ => .next (advance (setFlags b o (writeReg m rd o.res s)))) rfl
      (by simp) (by simp)
    rwa [retire_ready h] at this
  jump hr ha := by
    have hal : isAligned o.res = true := isAligned_iff.2 ha
    have hd : dpFinish i true b rd m o s = .next (flush { s with cpu.pc := o.res }) := by
      simp [dpFinish, hr, pcWrite, hal]
    refine ⟨_, ?_, jumped_of h.time (RegsOnly.ofEq rfl) o.res, ((KeepsAllBut.refl [] [] s).jump o.res).charge⟩
    rw [he _ hd]
    have := retire_completes h (body := fun _ => .next (flush { s with cpu.pc := o.res })) rfl rfl rfl
    rwa [retire_ready h] at this
  unaligned hr ha := by
    have hal : isAligned o.res = false := by
      rw [← Bool.not_eq_true, isAligned_iff]; exact ha
    rw [he (raise (.unimpPcUnaligned (encode i) s.instrAddr o.res) s) (by simp [dpFinish, hr, pcWrite, hal])]
    rfl

end Sys2Proof.Machine
end

