-- ==== Sys2Proof/Laws/Scheduler.lean ====
section
/-!
SUPPORT. The scheduler: reads of clocks and events after their updates, where an event is inserted, and that every operation
keeps the invariants of 10_state.md R50.
-/

namespace Sys2Proof.Machine

open Sys2Proof

/-! ## Reads after updates -/

theorem clock_setClock_self {s : State} {d : Nat} {c : Clock} (h : s.clock d = some c) (c' : Clock) :
    (s.setClock d c').clock d = some c' := by
  obtain ⟨hd, -⟩ := List.getElem?_eq_some_iff.1 h
  simp [State.clock, hd]

theorem clock_setClock_ne {s : State} {d d' : Nat} (h : d' ≠ d) (c : Clock) : (s.setClock d c).clock d' = s.clock d' := by
  simp [State.clock, Ne.symm h]

@[simp] theorem clock_setEvent (s : State) (e d : Nat) (x : EventSlot) : (s.setEvent e x).clock d = s.clock d := rfl

@[simp] theorem event_setClock (s : State) (d e : Nat) (c : Clock) : (s.setClock d c).event e = s.event e := rfl

@[simp] theorem clock_afterInsert (s : State) (d : Nat) : s.afterInsert.clock d = s.clock d := by simp [State.clock]

@[simp] theorem event_afterInsert (s : State) (e : Nat) : s.afterInsert.event e = s.event e := by simp [State.event]

theorem event_setEvent_self {s : State} {e : Nat} {x : EventSlot} (h : s.event e = some x) (x' : EventSlot) :
    (s.setEvent e x').event e = some x' := by
  obtain ⟨he, -⟩ := List.getElem?_eq_some_iff.1 h
  simp [State.event, he]

theorem event_setEvent_ne {s : State} {e e' : Nat} (h : e' ≠ e) (x : EventSlot) :
    (s.setEvent e x).event e' = s.event e' := by
  simp [State.event, Ne.symm h]

theorem whenOf_event {s : State} {e : Nat} {x : EventSlot} (h : s.event e = some x) : whenOf s.sched.events e = x.when := by
  simp only [State.event] at h
  simp [whenOf, h]

theorem whenOf_set_self {events : List EventSlot} {e : Nat} {x : EventSlot} (h : events[e]? = some x) (x' : EventSlot) :
    whenOf (events.set e x') e = x'.when := by
  obtain ⟨he, -⟩ := List.getElem?_eq_some_iff.1 h
  simp [whenOf, he]

theorem whenOf_set_ne {events : List EventSlot} {e f : Nat} (h : f ≠ e) (x : EventSlot) :
    whenOf (events.set e x) f = whenOf events f := by
  simp [whenOf, Ne.symm h]

/-- A slot rewritten with the `when` it had changes no `when`. -/
theorem whenOf_set_same {events : List EventSlot} {e : Nat} {x x' : EventSlot} (h : events[e]? = some x)
    (hw : x'.when = x.when) (f : Nat) : whenOf (events.set e x') f = whenOf events f := by
  by_cases hf : f = e
  · subst hf; rw [whenOf_set_self h, hw]; simp [whenOf, h]
  · exact whenOf_set_ne hf _

/-! ## Where an event is inserted (40_scheduler.md R153) -/

/-- FIFO, whatever the list: right after the last event no later than `w`, or at the head. -/
theorem insertFifo_split (events : List EventSlot) (w : Stamp) (e : Nat) (l : List Nat) :
    ∃ a b, insertFifo events w e l = a ++ e :: b ∧ l = a ++ b ∧ (∀ f ∈ b, w < whenOf events f) ∧
      (a = [] ∨ ∃ f, a.getLast? = some f ∧ whenOf events f ≤ w) := by
  induction l with
  | nil => exact ⟨[], [], rfl, rfl, by simp, .inl rfl⟩
  | cons f fs ih =>
    obtain ⟨a, b, h1, h2, h3, h4⟩ := ih
    simp only [insertFifo]
    split
    · rename_i hany
      refine ⟨f :: a, b, by simp [h1], by simp [h2], h3, .inr ?_⟩
      rcases h4 with rfl | ⟨g, hg, hw⟩
      · refine ⟨f, rfl, ?_⟩
        obtain ⟨g, hg, hgw⟩ := List.any_eq_true.1 hany
        rcases List.mem_cons.1 hg with rfl | hg
        · simpa using hgw
        · rw [h2] at hg
          exact absurd (h3 g (by simpa using hg)) (by simpa using hgw)
      · refine ⟨g, ?_, hw⟩
        rw [List.getLast?_cons, hg]; rfl
    · rename_i hany
      refine ⟨[], f :: fs, rfl, rfl, fun g hg => ?_, .inl rfl⟩
      have := mt List.any_eq_true.2 hany
      simp only [decide_eq_true_eq, not_exists, not_and] at this
      exact BitVec.not_le.1 (this g hg)

/-- In a sorted list, with either order among equals: after events no later than `w`, before events no earlier. -/
theorem insertAny_split (events : List EventSlot) (w : Stamp) (e k : Nat) (l : List Nat)
    (hl : l.Pairwise (fun f g => whenOf events f ≤ whenOf events g)) :
    ∃ a b, insertAny events w e k l = a ++ e :: b ∧ l = a ++ b ∧ (∀ f ∈ a, whenOf events f ≤ w) ∧
      ∀ f ∈ b, w ≤ whenOf events f := by
  induction l generalizing k with
  | nil => cases k <;> exact ⟨[], [], rfl, rfl, by simp, by simp⟩
  | cons f fs ih =>
    have hp := List.pairwise_cons.1 hl
    have stop : w ≤ whenOf events f → ∀ g ∈ f :: fs, w ≤ whenOf events g := by
      intro h g hg
      rcases List.mem_cons.1 hg with rfl | hg
      · exact h
      · exact BitVec.le_trans h (hp.1 g hg)
    have go : ∀ k, whenOf events f ≤ w → ∃ a b, f :: insertAny events w e k fs = a ++ e :: b ∧ f :: fs = a ++ b ∧
        (∀ f ∈ a, whenOf events f ≤ w) ∧ ∀ f ∈ b, w ≤ whenOf events f := by
      intro k h
      obtain ⟨a, b, h1, h2, h3, h4⟩ := ih k hp.2
      exact ⟨f :: a, b, by simp [h1], by simp [h2], by simpa [h] using h3, h4⟩
    cases k with
    | zero =>
      simp only [insertAny]
      split
      · exact go 0 (BitVec.le_of_lt (by assumption))
      · exact ⟨[], f :: fs, rfl, rfl, by simp, stop (BitVec.not_lt.1 (by assumption))⟩
    | succ k =>
      simp only [insertAny]
      split
      · exact go _ (BitVec.le_of_lt (by assumption))
      · split
        · exact go _ (by simp [*])
        · exact ⟨[], f :: fs, rfl, rfl, by simp, stop (BitVec.not_lt.1 (by assumption))⟩

/-- In a sorted list the event stands after events no later and before events no earlier, whatever `TIE_ORDER`. -/
theorem insertSorted_split (s : State) (events : List EventSlot) (w : Stamp) (e : Nat) (l : List Nat)
    (hl : l.Pairwise (fun f g => whenOf events f ≤ whenOf events g)) :
    ∃ a b, insertSorted s events w e l = a ++ e :: b ∧ l = a ++ b ∧ (∀ f ∈ a, whenOf events f ≤ w) ∧
      ∀ f ∈ b, w ≤ whenOf events f := by
  unfold insertSorted
  split
  · obtain ⟨a, b, h1, h2, h3, h4⟩ := insertFifo_split events w e l
    refine ⟨a, b, h1, h2, fun f hf => ?_, fun f hf => BitVec.le_of_lt (h3 f hf)⟩
    rcases h4 with rfl | ⟨g, hg, hw⟩
    · simp at hf
    · obtain ⟨a', rfl⟩ := List.getLast?_eq_some_iff.1 hg
      rw [h2, List.append_assoc, List.pairwise_append] at hl
      rcases List.mem_append.1 hf with hf | hf
      · exact BitVec.le_trans (hl.2.2 f hf g (by simp)) hw
      · simp only [List.mem_singleton] at hf; exact hf ▸ hw
  · exact insertAny_split events w e _ l hl

/-! ## The invariants of R50 -/

/-- What the invariants say of a Clock but for its cached target. -/
structure ClockBase (config : Config) (events : List EventSlot) (d : Nat) (c : Clock) : Prop where
  notPast : config.integrityChecks = true → ∀ e ∈ c.list, c.stamp ≤ whenOf events e
  sorted : c.list.Pairwise (fun e f => whenOf events e ≤ whenOf events f)
  once : c.list.Nodup
  linked : ∀ e ∈ c.list, ∃ x, events[e]? = some x ∧ x.link = .inDomain d

theorem ClockInv.base {config : Config} {events : List EventSlot} {d : Nat} {c : Clock}
    (h : ClockInv config events d c) : ClockBase config events d c := ⟨h.notPast, h.sorted, h.once, h.linked⟩

/-- Recomputing domain `d`'s target completes the invariants. -/
theorem recomputeTarget_inv {d : Nat} {s t : State}
    (hc : ∀ d' c, s.clock d' = some c → ClockBase s.config s.sched.events d' c ∧
      (d' ≠ d → c.targetRight s.config s.sched.events))
    (hl : ∀ e x d', s.event e = some x → x.link = .inDomain d' → ∃ c, s.clock d' = some c ∧ e ∈ c.list)
    (h : recomputeTarget d s = .next t) : SchedulerInv t := by
  obtain ⟨c, w, hd, hw, rfl⟩ := recomputeTarget_next h
  refine ⟨fun d' c' hd' => ?_, fun e x d' he hx => ?_⟩
  · by_cases e : d' = d
    · subst e
      rw [clock_setClock_self hd] at hd'
      cases hd'
      obtain ⟨hb, -⟩ := hc _ _ hd
      refine ⟨hb.notPast, hb.sorted, ?_, hb.once, hb.linked⟩
      unfold targetFor at hw
      unfold Clock.targetRight
      dsimp only [setClock_config, setClock_events] at hw ⊢
      split at hw
      · rename_i f fs hf
        cases hw
        simp [hf]
      · rename_i hf
        split at hw
        · cases hw
        · rename_i hov
          cases hw
          simp only [hf]
          rw [BitVec.toNat_add, BitVec.toNat_ofNat]
          omega
    · rw [clock_setClock_ne e] at hd'
      obtain ⟨hb, ht⟩ := hc _ _ hd'
      exact ⟨hb.notPast, hb.sorted, ht e, hb.once, hb.linked⟩
  · obtain ⟨c', hc', hm⟩ := hl e x d' he hx
    by_cases e : d' = d
    · subst e
      rw [hd] at hc'; cases hc'
      exact ⟨_, clock_setClock_self hd _, hm⟩
    · exact ⟨c', by rw [clock_setClock_ne e]; exact hc', hm⟩

/-- A linked event of one domain is not in another domain's list. -/
theorem SchedulerInv.only {s : State} (h : SchedulerInv s) {d e : Nat} {c : Clock} {x : EventSlot}
    (hc : s.clock d = some c) (he : s.event e = some x) (hx : x.link ≠ .inDomain d) : e ∉ c.list := by
  intro hm
  obtain ⟨y, hy, hl⟩ := (h.clocks d c hc).linked e hm
  simp only [State.event] at he
  rw [he] at hy
  exact hx (Option.some.inj hy ▸ hl)

theorem schedule_inv {d e : Nat} {w : Stamp} {s t : State} (hs : SchedulerInv s) (h : schedule d e w s = .next t) :
    SchedulerInv t := by
  obtain ⟨c, x, hc, hx, hl, hi, hr⟩ := schedule_next h
  have hx' : s.sched.events[e]? = some x := hx
  have notin : ∀ d' c', s.clock d' = some c' → e ∉ c'.list := fun d' c' hc' => hs.only hc' hx (by simp [hl])
  have same : ∀ d' c', s.clock d' = some c' → ∀ f ∈ c'.list,
      whenOf (s.sched.events.set e { x with when := w, link := .inDomain d }) f = whenOf s.sched.events f :=
    fun d' c' hc' f hf => whenOf_set_ne (fun e' => notin d' c' hc' (by rwa [e'] at hf)) _
  have hself : whenOf (s.sched.events.set e { x with when := w, link := .inDomain d }) e = w := whenOf_set_self hx' _
  have hb := (hs.clocks d c hc).base
  have hsorted : c.list.Pairwise (fun f g =>
      whenOf (s.sched.events.set e { x with when := w, link := .inDomain d }) f ≤
        whenOf (s.sched.events.set e { x with when := w, link := .inDomain d }) g) :=
    hb.sorted.imp_of_mem fun {f g} hf hg hfg => by rw [same d c hc f hf, same d c hc g hg]; exact hfg
  obtain ⟨a, b, h1, h2, h3, h4⟩ := insertSorted_split s _ w e c.list hsorted
  refine recomputeTarget_inv (fun d' c' hd' => ?_) (fun f y d' hf hy => ?_) hr
  · by_cases ed : d' = d
    · subst ed
      rw [clock_setClock_self (c := c) (by simpa using hc)] at hd'
      cases hd'
      refine ⟨⟨fun hk f hf => ?_, ?_, ?_, fun f hf => ?_⟩, fun hne => absurd rfl hne⟩
      · simp only [setClock_config, afterInsert_config, setEvent_config, setClock_events, afterInsert_sched, setEvent_events, h1,
          List.mem_append, List.mem_cons] at hk hf ⊢
        rcases hf with hf | rfl | hf
        · rw [same d' c hc f (by simp [h2, hf])]; exact hb.notPast hk f (by simp [h2, hf])
        · rw [hself]; exact hi hk
        · rw [same d' c hc f (by simp [h2, hf])]; exact hb.notPast hk f (by simp [h2, hf])
      · simp only [setClock_events, afterInsert_sched, setEvent_events, h1]
        rw [h2, List.pairwise_append] at hsorted
        refine List.pairwise_append.2 ⟨hsorted.1, List.pairwise_cons.2 ⟨fun f hf => ?_, hsorted.2.1⟩, fun f hf g hg => ?_⟩
        · rw [hself]; exact h4 f hf
        · rcases List.mem_cons.1 hg with rfl | hg
          · rw [hself]; exact h3 f hf
          · exact hsorted.2.2 f hf g hg
      · simp only [setEvent_events, h1]
        have hn := hb.once
        have := notin d' c hc
        rw [h2] at hn this
        rw [List.nodup_middle, List.nodup_cons]
        exact ⟨this, hn⟩
      · simp only [setClock_events, afterInsert_sched, setEvent_events, h1, List.mem_append, List.mem_cons] at hf ⊢
        by_cases ef : f = e
        · subst ef
          refine ⟨_, by rw [List.getElem?_set_self (List.getElem?_eq_some_iff.1 hx').1], rfl⟩
        · rw [List.getElem?_set_ne (Ne.symm ef)]
          exact hb.linked f (by rw [h2]; simp only [List.mem_append]; tauto)
    · rw [clock_setClock_ne ed] at hd'
      simp only [clock_afterInsert, clock_setEvent] at hd'
      have hb' := hs.clocks d' c' hd'
      refine ⟨⟨fun hk f hf => ?_, ?_, hb'.once, fun f hf => ?_⟩, fun _ => ?_⟩
      · simp only [setClock_config, afterInsert_config, setEvent_config, setClock_events, afterInsert_sched, setEvent_events] at hk ⊢
        rw [same d' c' hd' f hf]; exact hb'.notPast hk f hf
      · simp only [setClock_events, afterInsert_sched, setEvent_events]
        exact hb'.sorted.imp_of_mem fun {f g} hf hg hfg => by rw [same d' c' hd' f hf, same d' c' hd' g hg]; exact hfg
      · simp only [setClock_events, afterInsert_sched, setEvent_events]
        have : f ≠ e := fun e' => notin d' c' hd' (e' ▸ hf)
        rw [List.getElem?_set_ne (Ne.symm this)]
        exact hb'.linked f hf
      · have := hb'.target
        unfold Clock.targetRight at this ⊢
        simp only [setClock_config, afterInsert_config, setEvent_config, setClock_events, afterInsert_sched, setEvent_events]
        split
        · rename_i hnil; simpa [hnil] using this
        · rename_i f fs hf
          simp only [hf] at this
          rw [same d' c' hd' f (by simp [hf])]; exact this
  · simp only [event_setClock, event_afterInsert] at hf
    by_cases ef : f = e
    · subst ef
      rw [event_setEvent_self hx] at hf
      cases hf
      cases hy
      exact ⟨_, clock_setClock_self (c := c) (by simpa using hc) _, by simp [h1]⟩
    · rw [event_setEvent_ne ef] at hf
      obtain ⟨c', hc', hm⟩ := hs.listed f y d' hf hy
      by_cases ed : d' = d
      · subst ed
        rw [hc] at hc'; cases hc'
        refine ⟨_, clock_setClock_self (c := c) (by simpa using hc) _, ?_⟩
        rw [h2] at hm
        simp only [setEvent_events, h1, List.mem_append, List.mem_cons] at hm ⊢
        tauto
      · exact ⟨c', by rw [clock_setClock_ne ed]; simpa using hc', hm⟩

/-- Unlinking an event of domain `d` and dropping it from `d`'s list, the rest of the list as it was. -/
theorem unlink_inv {d e : Nat} {s t : State} {c : Clock} {x : EventSlot} {l : List Nat} (hs : SchedulerInv s)
    (hc : s.clock d = some c) (hx : s.event e = some x) (hl : x.link = .inDomain d) (hsub : l.Sublist c.list)
    (hmem : ∀ f, f ∈ l ↔ f ∈ c.list ∧ f ≠ e)
    (h : recomputeTarget d ((s.setEvent e { x with link := .unscheduled }).setClock d { c with list := l }) = .next t) :
    SchedulerInv t := by
  have hx' : s.sched.events[e]? = some x := hx
  have same : ∀ f, whenOf (s.sched.events.set e { x with link := .unscheduled }) f = whenOf s.sched.events f :=
    whenOf_set_same hx' rfl
  have stays : ∀ f d', f ≠ e → ∀ y, s.sched.events[f]? = some y → y.link = .inDomain d' →
      ∃ y, (s.sched.events.set e { x with link := .unscheduled })[f]? = some y ∧ y.link = .inDomain d' :=
    fun f d' hf y hy hyl => ⟨y, by rw [List.getElem?_set_ne (Ne.symm hf)]; exact hy, hyl⟩
  have hb := hs.clocks d c hc
  refine recomputeTarget_inv (fun d' c' hd' => ?_) (fun f y d' hf hy => ?_) h
  · by_cases ed : d' = d
    · subst ed
      rw [clock_setClock_self (s := s.setEvent e { x with link := .unscheduled }) (c := c) hc] at hd'
      cases hd'
      refine ⟨⟨fun hk f hf => ?_, ?_, hsub.nodup hb.once, fun f hf => ?_⟩, fun hne => absurd rfl hne⟩
      · simp only [setClock_config, setEvent_config, setClock_events, setEvent_events] at hk ⊢
        rw [same]; exact hb.notPast hk f ((hmem f).1 hf).1
      · simp only [setClock_events, setEvent_events, same]
        exact hb.sorted.sublist hsub
      · obtain ⟨h1, h2⟩ := (hmem f).1 hf
        obtain ⟨y, hy, hyl⟩ := hb.linked f h1
        exact stays f d' h2 y hy hyl
    · rw [clock_setClock_ne ed] at hd'
      have hb' := hs.clocks d' c' hd'
      refine ⟨⟨fun hk f hf => ?_, ?_, hb'.once, fun f hf => ?_⟩, fun _ => ?_⟩
      · simp only [setClock_config, setEvent_config, setClock_events, setEvent_events] at hk ⊢
        rw [same]; exact hb'.notPast hk f hf
      · simp only [setClock_events, setEvent_events, same]; exact hb'.sorted
      · obtain ⟨y, hy, hyl⟩ := hb'.linked f hf
        refine stays f d' (fun e' => ?_) y hy hyl
        rw [e', hx'] at hy
        rw [← Option.some.inj hy, hl] at hyl
        exact ed (Link.inDomain.inj hyl).symm
      · have := hb'.target
        unfold Clock.targetRight at this ⊢
        simpa only [setClock_config, setEvent_config, setClock_events, setEvent_events, same] using this
  · simp only [event_setClock] at hf
    by_cases ef : f = e
    · subst ef
      rw [event_setEvent_self hx] at hf
      cases hf; cases hy
    · rw [event_setEvent_ne ef] at hf
      obtain ⟨c', hc', hm⟩ := hs.listed f y d' hf hy
      by_cases ed : d' = d
      · subst ed
        rw [hc] at hc'; cases hc'
        exact ⟨_, clock_setClock_self (s := s.setEvent e { x with link := .unscheduled }) (c := c) hc _, (hmem f).2 ⟨hm, ef⟩⟩
      · exact ⟨c', by rw [clock_setClock_ne ed]; exact hc', hm⟩

theorem cancel_inv {d e : Nat} {s t : State} (hs : SchedulerInv s) (h : cancel d e s = .next t) : SchedulerInv t := by
  obtain ⟨c, x, hc, hx, hl, -, hr⟩ := cancel_next h
  exact unlink_inv hs hc hx hl List.filter_sublist (fun f => by simp) hr

theorem popEarliest_inv {d : Nat} {s t : State} {o : Option Nat} (hs : SchedulerInv s)
    (h : popEarliest d s = .next (o, t)) : SchedulerInv t := by
  obtain ⟨c, hc, ⟨-, -, rfl⟩ | ⟨e, rest, x, hl, -, hx, -, hr⟩⟩ := popEarliest_next h
  · exact hs
  · have hb := hs.clocks d c hc
    obtain ⟨y, hy, hyl⟩ := hb.linked e (by simp [hl])
    have hx' : s.sched.events[e]? = some x := hx
    rw [hx'] at hy
    have hn := hb.once
    rw [hl, List.nodup_cons] at hn
    refine unlink_inv hs hc hx (Option.some.inj hy ▸ hyl) (by rw [hl]; exact List.sublist_cons_self _ _) (fun f => ?_) hr
    rw [hl, List.mem_cons]
    constructor
    · intro hf; exact ⟨.inr hf, fun e' => hn.1 (e' ▸ hf)⟩
    · rintro ⟨rfl | hf, hne⟩
      · exact absurd rfl hne
      · exact hf

theorem advanceStamp_inv {d : Nat} {w : Stamp} {s t : State} (hs : SchedulerInv s) (h : advanceStamp d w s = .next t) :
    SchedulerInv t := by
  obtain ⟨c, hc, hw, hi, hr⟩ := advanceStamp_next h
  have hb := hs.clocks d c hc
  refine recomputeTarget_inv (fun d' c' hd' => ?_) (fun f y d' hf hy => ?_) hr
  · by_cases ed : d' = d
    · subst ed
      rw [clock_setClock_self (c := c) hc] at hd'
      cases hd'
      refine ⟨⟨fun hk f hf => ?_, hb.sorted, hb.once, hb.linked⟩, fun hne => absurd rfl hne⟩
      dsimp only [setClock_config, setClock_events] at hk hf ⊢
      cases hl : c.list with
      | nil => simp [hl] at hf
      | cons g rest =>
        have hg := hi hk g (by simp [hl])
        have hsort := hb.sorted
        rw [hl] at hsort hf
        rcases List.mem_cons.1 hf with rfl | hf
        · exact hg
        · exact BitVec.le_trans hg ((List.pairwise_cons.1 hsort).1 f hf)
    · rw [clock_setClock_ne ed] at hd'
      have hb' := hs.clocks d' c' hd'
      exact ⟨hb'.base, fun _ => hb'.target⟩
  · obtain ⟨c', hc', hm⟩ := hs.listed f y d' hf hy
    by_cases ed : d' = d
    · subst ed
      rw [hc] at hc'; cases hc'
      exact ⟨_, clock_setClock_self (c := c) hc _, hm⟩
    · exact ⟨c', by rw [clock_setClock_ne ed]; exact hc', hm⟩

theorem initEvent_inv {e k : Nat} {s t : State} (hs : SchedulerInv s) (h : initEvent e k s = .next t) :
    SchedulerInv t := by
  obtain ⟨x, hx, hl, rfl⟩ := initEvent_next h
  have hx' : s.sched.events[e]? = some x := hx
  have same : ∀ f, whenOf (s.sched.events.set e { x with handler := k }) f = whenOf s.sched.events f :=
    whenOf_set_same hx' rfl
  refine ⟨fun d c hc => ?_, fun f y d hf hy => ?_⟩
  · have hb := hs.clocks d c hc
    refine ⟨fun hk f hf => ?_, ?_, ?_, hb.once, fun f hf => ?_⟩
    · simp only [setEvent_events, same]; exact hb.notPast hk f hf
    · simp only [setEvent_events, same]; exact hb.sorted
    · have := hb.target
      unfold Clock.targetRight at this ⊢
      simpa only [setEvent_config, setEvent_events, same] using this
    · obtain ⟨y, hy, hyl⟩ := hb.linked f hf
      have : f ≠ e := by
        rintro rfl
        rw [hx'] at hy
        rw [← Option.some.inj hy, hl] at hyl
        cases hyl
      exact ⟨y, by rw [setEvent_events, List.getElem?_set_ne (Ne.symm this)]; exact hy, hyl⟩
  · by_cases ef : f = e
    · subst ef
      rw [event_setEvent_self hx] at hf
      cases hf
      rw [hl] at hy; cases hy
    · rw [event_setEvent_ne ef] at hf
      exact hs.listed f y d hf hy

/-- The invariants see only the scheduler's state and the parameters. -/
theorem SchedulerInv.congr {s t : State} (h : SchedulerInv s) (hs : t.sched = s.sched) (hc : t.config = s.config) :
    SchedulerInv t := by
  obtain ⟨h1, h2⟩ := h
  refine ⟨fun d c hd => ?_, fun e x d he hx => ?_⟩
  · rw [hs, hc]; exact h1 d c (by simpa [State.clock, hs] using hd)
  · obtain ⟨c, h3, h4⟩ := h2 e x d (by simpa [State.event, hs] using he) hx
    exact ⟨c, by simpa [State.clock, hs] using h3, h4⟩

/-- Every host call keeps the invariants of R50. -/
theorem hostCall_inv {c : HostCall} {s t : State} (hs : SchedulerInv s) (h : hostCall c s = .next t) : SchedulerInv t := by
  cases c with
  | schedule d e w => exact schedule_inv hs h
  | cancel d e => exact cancel_inv hs h
  | popEarliest d =>
    obtain ⟨⟨o, u⟩, hp, ht⟩ := andThen_eq_next.1 h
    cases ht
    exact popEarliest_inv hs hp
  | peekEarliest d | targetStamp d =>
    simp only [hostCall] at h
    split at h
    · cases h; exact hs
    · cases h
  | initEvent e k => exact initEvent_inv hs h
  | setIrqLine l | setFiqLine l | busRead a w => cases h; exact hs.congr rfl rfl
  | busWrite a w v =>
    simp only [hostCall] at h
    split at h <;> (cases h; exact hs.congr rfl rfl)

/-! ## Stamps -/

/-- Every domain of `s` is a domain of `t` with the same stamp. -/
def SameStamps (s t : State) : Prop := ∀ d c, s.clock d = some c → ∃ k, t.clock d = some k ∧ k.stamp = c.stamp

theorem SameStamps.refl (s : State) : SameStamps s s := fun _ c h => ⟨c, h, rfl⟩

theorem SameStamps.trans {s t u : State} (a : SameStamps s t) (b : SameStamps t u) : SameStamps s u := fun d c h => by
  obtain ⟨k, hk, e⟩ := a d c h
  obtain ⟨l, hl, e'⟩ := b d k hk
  exact ⟨l, hl, e'.trans e⟩

/-- Replacing a Clock by one of the same stamp. -/
theorem SameStamps.setClock {s : State} {d : Nat} {c k : Clock} (hc : s.clock d = some c) (hk : k.stamp = c.stamp) :
    SameStamps s (s.setClock d k) := fun d' c' h => by
  by_cases e : d' = d
  · subst e
    rw [hc] at h; cases h
    exact ⟨k, clock_setClock_self hc k, hk⟩
  · exact ⟨c', by rw [clock_setClock_ne e]; exact h, rfl⟩

/-- Recomputing a target moves no stamp. -/
theorem recomputeTarget_stamps {d : Nat} {s t : State} (h : recomputeTarget d s = .next t) : SameStamps s t := by
  obtain ⟨c, w, hc, -, rfl⟩ := recomputeTarget_next h
  exact .setClock hc rfl

/-- What every change of a list ends in: the Clock replaced under its stamp, and the target recomputed. -/
theorem relist_stamps {d : Nat} {s u t : State} {c k : Clock} (h : recomputeTarget d (u.setClock d k) = .next t)
    (hc : s.clock d = some c) (hk : k.stamp = c.stamp) (hu : ∀ d, u.clock d = s.clock d) : SameStamps s t :=
  SameStamps.trans (fun d' c' h' => SameStamps.setClock (s := u) ((hu d).trans hc) hk d' c' ((hu d').trans h'))
    (recomputeTarget_stamps h)

/-- No host call moves a stamp (41_pipeline.md R218). -/
theorem hostCall_stamps {c : HostCall} {s t : State} (h : hostCall c s = .next t) : SameStamps s t := by
  cases c with
  | schedule d e w =>
    obtain ⟨c, x, hc, -, -, -, hr⟩ := schedule_next h
    exact relist_stamps hr hc rfl (fun _ => by simp)
  | cancel d e =>
    obtain ⟨c, x, hc, -, -, -, hr⟩ := cancel_next h
    exact relist_stamps hr hc rfl (fun _ => rfl)
  | popEarliest d =>
    obtain ⟨⟨o, u⟩, hp, ht⟩ := andThen_eq_next.1 h
    cases ht
    obtain ⟨c, hc, ⟨-, -, rfl⟩ | ⟨e, rest, x, -, -, -, -, hr⟩⟩ := popEarliest_next hp
    · exact .refl _
    · exact relist_stamps hr hc rfl (fun _ => rfl)
  | peekEarliest d | targetStamp d =>
    simp only [hostCall] at h
    split at h
    · cases h; exact .refl _
    · cases h
  | initEvent e k =>
    obtain ⟨x, -, -, rfl⟩ := initEvent_next h
    exact .refl _
  | setIrqLine l | setFiqLine l | busRead a w => cases h; exact .refl _
  | busWrite a w v =>
    simp only [hostCall] at h
    split at h <;> (cases h; exact .refl _)

end Sys2Proof.Machine
end

