-- ==== Sys2Proof/Tests/Slice0.lean ====
section
/-!
SUPPORT. The model's own tests: ill-formed terms refused, one word per constructor written out from the formats of
30_encoding.md, vectors of 95_test_vectors.md (expected values are the spec's), and for each statement with hypotheses a
witness that meets them.
-/

namespace Sys2Proof.Tests

open Sys2Proof Sys2Proof.Machine

/-! ## Helpers -/

/-- A status word as a status register. -/
def psr (w : Word) : Psr := (Psr.zero.withFlagsOf w).withControlOf w

/-- The harness of 95_test_vectors.md section 0: the word at `0x100`, `MOV r0, r0` after it, `pc = 0x108`. -/
def vec (w cpsr : Word) (regs : List (RegNum × Word)) (mem : List (Word × Word)) : State :=
  let s : State := { State.reset with
    cpu := { Cpu.powerOn with
      cpsr := psr cpsr
      pc := 0x108#32
      pending := ⟨false, false, false, false, false, false⟩
      queue := .two ⟨w, 0x100#32⟩ ⟨0xE1A00000#32, 0x104#32⟩ }
    turn := .run false
    mem := mem.foldl (fun m p => m.writeWord p.1 p.2) [] }
  regs.foldl (fun s p => writeReg .svc p.1 p.2 s) s

/-- The harness in SVC mode with all flags clear and R0 to R7 holding 0 to 7. -/
def st : State :=
  vec 0xE1A00000#32 0xD3#32 [(1#4, 1#32), (2#4, 2#32), (3#4, 3#32), (4#4, 4#32), (5#4, 5#32), (6#4, 6#32), (7#4, 7#32)] []

/-- The step or meaning answers a next state of which `p` holds. -/
def ok (o : Result State) (p : State → Bool) : Bool :=
  match o with
  | .next t => p t
  | .fault _ => false
  | .refused _ => false

/-- The step or meaning stops with a fault whose kind and info `p` holds of. -/
def stops (o : Result State) (p : Fatal → Bool) : Bool :=
  match o with
  | .next _ => false
  | .fault r => p r.why
  | .refused _ => false

/-- The step or meaning stops with a fault that leaves a world of which `p` holds. -/
def leaves (o : Result State) (p : World → Bool) : Bool :=
  match o with
  | .next _ => false
  | .fault r => p r.world
  | .refused _ => false

/-- The registers of SVC mode hold these values. -/
def holds (rs : List (RegNum × Word)) (t : State) : Bool := rs.all (fun p => readReg .svc p.1 t == p.2)

/-- N, Z, C, V and the control bits as a status word. -/
def status (w : Word) (t : State) : Bool := t.cpu.cpsr.toWord == w

/-- `Ready`, by computation. -/
def ready (i : Instr) (m : Mode) (s : State) : Bool :=
  i.checkWord == none && condHolds s.cpu.cpsr i.cond && s.mode == some m &&
    decide (s.cpu.cycles.toNat + baseCost s.config i * s.config.cpuClockScale ≤ 2 ^ 64 - 1)

/-- What `ready` computes is `Ready`. -/
theorem test_ready_is_Ready (i : Instr) (m : Mode) (s : State) : ready i m s = true ↔ Ready i m s := by
  simp only [ready, Bool.and_eq_true, beq_iff_eq, decide_eq_true_eq]
  exact ⟨fun h => ⟨h.1.1.1, h.1.1.2, h.1.2, h.2⟩, fun h => ⟨⟨⟨h.word, h.cond⟩, h.mode⟩, h.time⟩⟩

/-- The nine operations that write Rd, and the three that compare. -/
def writing : List DpOp := [.and, .eor, .sub, .rsb, .add, .orr, .mov, .bic, .mvn]

def comparing : List DpOp := [.tst, .cmp, .cmn]

/-! ## Ill-formed terms -/

/-- TST and CMP (DPS) whose word is MRS; TEQ and CMN (DPS) whose word is MSR; TEQ and CMN (DPI) whose word is MSR. -/
theorem test_wellFormed_refuses :
    (∀ i ∈ [Instr.tstSh ⟨.al, false, 15#4, 4#4, 0#5, .lsl, 0#4⟩, .cmpSh ⟨.al, false, 15#4, 4#4, 0#5, .lsl, 0#4⟩,
      .teqSh ⟨.al, false, 1#4, 15#4, 0#5, .lsl, 3#4⟩, .cmnSh ⟨.al, false, 9#4, 15#4, 0#5, .lsl, 3#4⟩,
      .teqImm ⟨.al, false, 1#4, 15#4, 0#4, 0x10#8⟩, .cmnImm ⟨.al, false, 8#4, 15#4, 2#4, 0x0F#8⟩],
      i.wellFormed = false ∧ decodeWord (encode i) ≠ .ok i) ∧
    ∀ i ∈ [Instr.tstSh ⟨.al, true, 15#4, 4#4, 0#5, .lsl, 0#4⟩, .cmpSh ⟨.al, false, 14#4, 4#4, 0#5, .lsl, 0#4⟩,
      .teqSh ⟨.al, false, 1#4, 14#4, 0#5, .lsl, 3#4⟩, .cmnSh ⟨.al, false, 9#4, 15#4, 1#5, .lsl, 3#4⟩,
      .teqImm ⟨.al, true, 1#4, 15#4, 0#4, 0x10#8⟩, .cmnImm ⟨.al, false, 8#4, 3#4, 2#4, 0x0F#8⟩,
      .tstImm ⟨.al, false, 15#4, 15#4, 0#4, 0#8⟩],
      i.wellFormed = true ∧ decodeWord (encode i) = .ok i := by decide

/-! ## Decoding, each word written out field by field -/

/-- Format DPR (30_encoding.md R114): cond 000 op S Rn Rd Rs 0 shift 1 Rm. -/
theorem test_decode_dpr : ∀ p ∈ [
    (0b0000_000_0000_0_0001_0010_0101_0_00_1_1001#32, Instr.andRsh ⟨.eq, false, 1#4, 2#4, 5#4, .lsl, 9#4⟩),
    (0b0001_000_0001_1_0010_0011_0110_0_01_1_1010#32, Instr.eorRsh ⟨.ne, true, 2#4, 3#4, 6#4, .lsr, 10#4⟩),
    (0b0010_000_0010_0_0011_0100_0111_0_10_1_1011#32, Instr.subRsh ⟨.cs, false, 3#4, 4#4, 7#4, .asr, 11#4⟩),
    (0b0011_000_0011_1_0100_0101_1000_0_11_1_1100#32, Instr.rsbRsh ⟨.cc, true, 4#4, 5#4, 8#4, .ror, 12#4⟩),
    (0b0100_000_0100_0_0101_0110_1001_0_00_1_1101#32, Instr.addRsh ⟨.mi, false, 5#4, 6#4, 9#4, .lsl, 13#4⟩),
    (0b0101_000_0101_1_0110_0111_1010_0_01_1_1110#32, Instr.adcRsh ⟨.pl, true, 6#4, 7#4, 10#4, .lsr, 14#4⟩),
    (0b0110_000_0110_0_0111_1000_1011_0_10_1_1111#32, Instr.sbcRsh ⟨.vs, false, 7#4, 8#4, 11#4, .asr, 15#4⟩),
    (0b0111_000_0111_1_1000_1001_1100_0_11_1_0000#32, Instr.rscRsh ⟨.vc, true, 8#4, 9#4, 12#4, .ror, 0#4⟩),
    (0b1000_000_1000_0_1001_1010_1101_0_00_1_0001#32, Instr.tstRsh ⟨.hi, false, 9#4, 10#4, 13#4, .lsl, 1#4⟩),
    (0b1001_000_1001_1_1010_1011_1110_0_01_1_0010#32, Instr.teqRsh ⟨.ls, true, 10#4, 11#4, 14#4, .lsr, 2#4⟩),
    (0b1010_000_1010_0_1011_1100_1111_0_10_1_0011#32, Instr.cmpRsh ⟨.ge, false, 11#4, 12#4, 15#4, .asr, 3#4⟩),
    (0b1011_000_1011_1_1100_1101_0000_0_11_1_0100#32, Instr.cmnRsh ⟨.lt, true, 12#4, 13#4, 0#4, .ror, 4#4⟩),
    (0b1100_000_1100_0_1101_1110_0001_0_00_1_0101#32, Instr.orrRsh ⟨.gt, false, 13#4, 14#4, 1#4, .lsl, 5#4⟩),
    (0b1101_000_1101_1_1110_1111_0010_0_01_1_0110#32, Instr.movRsh ⟨.le, true, 14#4, 15#4, 2#4, .lsr, 6#4⟩),
    (0b1110_000_1110_0_1111_0000_0011_0_10_1_0111#32, Instr.bicRsh ⟨.al, false, 15#4, 0#4, 3#4, .asr, 7#4⟩),
    (0b1111_000_1111_1_0000_0001_0100_0_11_1_1000#32, Instr.mvnRsh ⟨.nv, true, 0#4, 1#4, 4#4, .ror, 8#4⟩)],
    decodeWord p.1 = .ok p.2 := by decide

/-- Format DPS (R113): cond 000 op S Rn Rd shift_imm shift 0 Rm. -/
theorem test_decode_dps : ∀ p ∈ [
    (0b1111_000_0000_1_0011_0111_00001_01_0_1100#32, Instr.andSh ⟨.nv, true, 3#4, 7#4, 1#5, .lsr, 12#4⟩),
    (0b1110_000_0001_0_0100_1000_00011_10_0_1101#32, Instr.eorSh ⟨.al, false, 4#4, 8#4, 3#5, .asr, 13#4⟩),
    (0b1101_000_0010_1_0101_1001_00101_11_0_1110#32, Instr.subSh ⟨.le, true, 5#4, 9#4, 5#5, .ror, 14#4⟩),
    (0b1100_000_0011_0_0110_1010_00111_00_0_1111#32, Instr.rsbSh ⟨.gt, false, 6#4, 10#4, 7#5, .lsl, 15#4⟩),
    (0b1011_000_0100_1_0111_1011_01001_01_0_0000#32, Instr.addSh ⟨.lt, true, 7#4, 11#4, 9#5, .lsr, 0#4⟩),
    (0b1010_000_0101_0_1000_1100_01011_10_0_0001#32, Instr.adcSh ⟨.ge, false, 8#4, 12#4, 11#5, .asr, 1#4⟩),
    (0b1001_000_0110_1_1001_1101_01101_11_0_0010#32, Instr.sbcSh ⟨.ls, true, 9#4, 13#4, 13#5, .ror, 2#4⟩),
    (0b1000_000_0111_0_1010_1110_01111_00_0_0011#32, Instr.rscSh ⟨.hi, false, 10#4, 14#4, 15#5, .lsl, 3#4⟩),
    (0b0111_000_1000_1_1011_1111_10001_01_0_0100#32, Instr.tstSh ⟨.vc, true, 11#4, 15#4, 17#5, .lsr, 4#4⟩),
    (0b0110_000_1001_1_1100_0000_10011_10_0_0101#32, Instr.teqSh ⟨.vs, true, 12#4, 0#4, 19#5, .asr, 5#4⟩),
    (0b0101_000_1010_1_1101_0001_10101_11_0_0110#32, Instr.cmpSh ⟨.pl, true, 13#4, 1#4, 21#5, .ror, 6#4⟩),
    (0b0100_000_1011_1_1110_0010_10111_00_0_0111#32, Instr.cmnSh ⟨.mi, true, 14#4, 2#4, 23#5, .lsl, 7#4⟩),
    (0b0011_000_1100_1_1111_0011_11001_01_0_1000#32, Instr.orrSh ⟨.cc, true, 15#4, 3#4, 25#5, .lsr, 8#4⟩),
    (0b0010_000_1101_0_0000_0100_11011_10_0_1001#32, Instr.movSh ⟨.cs, false, 0#4, 4#4, 27#5, .asr, 9#4⟩),
    (0b0001_000_1110_1_0001_0101_11101_11_0_1010#32, Instr.bicSh ⟨.ne, true, 1#4, 5#4, 29#5, .ror, 10#4⟩),
    (0b0000_000_1111_0_0010_0110_11111_00_0_1011#32, Instr.mvnSh ⟨.eq, false, 2#4, 6#4, 31#5, .lsl, 11#4⟩)],
    decodeWord p.1 = .ok p.2 := by decide

/-- Format DPI (R112): cond 001 op S Rn Rd rotate imm8. -/
theorem test_decode_dpi : ∀ p ∈ [
    (0b0000_001_0000_0_0110_1011_1101_00000001#32, Instr.andImm ⟨.eq, false, 6#4, 11#4, 13#4, 1#8⟩),
    (0b0001_001_0001_1_0111_1100_1110_00100110#32, Instr.eorImm ⟨.ne, true, 7#4, 12#4, 14#4, 38#8⟩),
    (0b0010_001_0010_0_1000_1101_1111_01001011#32, Instr.subImm ⟨.cs, false, 8#4, 13#4, 15#4, 75#8⟩),
    (0b0011_001_0011_1_1001_1110_0000_01110000#32, Instr.rsbImm ⟨.cc, true, 9#4, 14#4, 0#4, 112#8⟩),
    (0b0100_001_0100_0_1010_1111_0001_10010101#32, Instr.addImm ⟨.mi, false, 10#4, 15#4, 1#4, 149#8⟩),
    (0b0101_001_0101_1_1011_0000_0010_10111010#32, Instr.adcImm ⟨.pl, true, 11#4, 0#4, 2#4, 186#8⟩),
    (0b0110_001_0110_0_1100_0001_0011_11011111#32, Instr.sbcImm ⟨.vs, false, 12#4, 1#4, 3#4, 223#8⟩),
    (0b0111_001_0111_1_1101_0010_0100_00000100#32, Instr.rscImm ⟨.vc, true, 13#4, 2#4, 4#4, 4#8⟩),
    (0b1000_001_1000_1_1110_0011_0101_00101001#32, Instr.tstImm ⟨.hi, true, 14#4, 3#4, 5#4, 41#8⟩),
    (0b1001_001_1001_1_1111_0100_0110_01001110#32, Instr.teqImm ⟨.ls, true, 15#4, 4#4, 6#4, 78#8⟩),
    (0b1010_001_1010_1_0000_0101_0111_01110011#32, Instr.cmpImm ⟨.ge, true, 0#4, 5#4, 7#4, 115#8⟩),
    (0b1011_001_1011_1_0001_0110_1000_10011000#32, Instr.cmnImm ⟨.lt, true, 1#4, 6#4, 8#4, 152#8⟩),
    (0b1100_001_1100_0_0010_0111_1001_10111101#32, Instr.orrImm ⟨.gt, false, 2#4, 7#4, 9#4, 189#8⟩),
    (0b1101_001_1101_1_0011_1000_1010_11100010#32, Instr.movImm ⟨.le, true, 3#4, 8#4, 10#4, 226#8⟩),
    (0b1110_001_1110_0_0100_1001_1011_00000111#32, Instr.bicImm ⟨.al, false, 4#4, 9#4, 11#4, 7#8⟩),
    (0b1111_001_1111_1_0101_1010_1100_00101100#32, Instr.mvnImm ⟨.nv, true, 5#4, 10#4, 12#4, 44#8⟩)],
    decodeWord p.1 = .ok p.2 := by decide

/-- Formats LSI and LSR (R120, R121): cond 010 P U B W L Rn Rd offset12;
cond 011 P U B W L Rn Rd shift_imm shift 0 Rm. -/
theorem test_decode_load_store : ∀ p ∈ [
    (0b1110_010_0_0_0_1_0_0001_1001_101001010001#32, Instr.strImm ⟨.al, false, false, true, 1#4, 9#4, 2641#12⟩),
    (0b1110_010_1_0_0_0_1_0010_1010_101001010010#32, Instr.ldrImm ⟨.al, true, false, false, 2#4, 10#4, 2642#12⟩),
    (0b1110_010_0_1_1_1_0_0011_1011_101001010011#32, Instr.strbImm ⟨.al, false, true, true, 3#4, 11#4, 2643#12⟩),
    (0b1110_010_1_1_1_0_1_0100_1100_101001010100#32, Instr.ldrbImm ⟨.al, true, true, false, 4#4, 12#4, 2644#12⟩),
    (0b0000_011_1_0_0_0_0_0010_0111_00001_00_0_1011#32,
      Instr.strReg ⟨.eq, true, false, false, 2#4, 7#4, 1#5, .lsl, 11#4⟩),
    (0b0000_011_0_0_0_1_1_0011_1000_00100_01_0_1100#32,
      Instr.ldrReg ⟨.eq, false, false, true, 3#4, 8#4, 4#5, .lsr, 12#4⟩),
    (0b0000_011_1_1_1_0_0_0100_1001_00111_10_0_1101#32,
      Instr.strbReg ⟨.eq, true, true, false, 4#4, 9#4, 7#5, .asr, 13#4⟩),
    (0b0000_011_0_1_1_1_1_0101_1010_01010_11_0_1110#32,
      Instr.ldrbReg ⟨.eq, false, true, true, 5#4, 10#4, 10#5, .ror, 14#4⟩)],
    decodeWord p.1 = .ok p.2 := by decide

/-- Formats MRS, MSRR, MSRI, MUL, BT, BR and SWI (R116 to R119, R122 to R124). -/
theorem test_decode_others : ∀ p ∈ [
    (0b1110_00010_0_001111_0101_000000000000#32, Instr.mrs ⟨.al, false, 5#4⟩),
    (0b0001_00010_1_001111_1010_000000000000#32, Instr.mrs ⟨.ne, true, 10#4⟩),
    (0b1110_00010_1_10_1001_1111_00000000_0110#32, Instr.msrReg ⟨.al, true, 0b1001#4, 6#4⟩),
    (0b0010_00110_0_10_1000_1111_0010_00001111#32, Instr.msrImm ⟨.cs, false, 0b1000#4, 2#4, 15#8⟩),
    (0b1110_000000_0_1_0001_0010_0011_1001_0100#32, Instr.mul ⟨.al, true, 1#4, 2#4, 3#4, 4#4⟩),
    (0b1100_000000_1_0_0101_0110_0111_1001_1000#32, Instr.mla ⟨.gt, false, 5#4, 6#4, 7#4, 8#4⟩),
    (0b1110_100_1_0_0_1_0_1101_0100000000010000#32, Instr.stm ⟨.al, true, false, false, true, 13#4, 0x4010#16⟩),
    (0b1110_100_0_1_1_0_1_0011_1000000000000001#32, Instr.ldm ⟨.al, false, true, true, false, 3#4, 0x8001#16⟩),
    (0b0001_101_0_111111111111111111111100#32, Instr.b ⟨.ne, 0xFFFFFC#24⟩),
    (0b1110_101_1_000000000000000000010000#32, Instr.bl ⟨.al, 0x000010#24⟩),
    (0b1110_1111_000000000000000000010010#32, Instr.swi ⟨.al, 0x000012#24⟩)],
    decodeWord p.1 = .ok p.2 := by decide
/-- Words of R138's three classes are refused, at the edges of each. -/
theorem test_decode_refuses :
    [0xE7F000F0#32, 0xE0820290#32, 0xE1000090#32, 0xE00000B0#32, 0xEC000000#32, 0xEDFFFFFF#32, 0xEE000000#32,
      0xEEFFFFFF#32].all (fun w => decide (decodeWord w = .error (.noEntry w))) ∧
    [0xE7F000E0#32, 0xE0020190#32, 0xE1000080#32, 0xE1000010#32, 0xEBFFFFFF#32, 0xEF000000#32].all
      (fun w => (decodeWord w).toOption.isSome) := by decide

/-- Fewer than four bytes are no instruction; the bytes after one are left (R110, 20_memory.md R84). -/
theorem test_decode_bytes :
    decode [0x10#8, 0xF0#8, 0x21#8] = .error (.tooShort 3) ∧
    decode [0x10#8, 0xF0#8, 0x21#8, 0xE3#8, 0x55#8] = .ok (.msrImm ⟨.al, false, 1#4, 0#4, 0x10#8⟩, [0x55#8]) ∧
    decodeTableWord 32 0xE321F010 = some (.msrImm ⟨.al, false, 1#4, 0#4, 0x10#8⟩) := by decide

/-! ## Vectors of 95_test_vectors.md, one step each -/

/-- SH7, SH13, SH36, SH20, SH21: immediate and register shifts, rotated immediate, amounts of zero. -/
theorem test_step_shifts :
    ok (step (vec 0xE1B000C1#32 0xD3#32 [(1#4, 0x80000001#32)] []))
      (fun t => holds [(0#4, 0xC0000000#32)] t && status 0xA00000D3#32 t) ∧
    ok (step (vec 0xE1B00001#32 0x200000D3#32 [(1#4, 0x80000001#32)] []))
      (fun t => holds [(0#4, 0x80000001#32)] t && status 0xA00000D3#32 t) ∧
    ok (step (vec 0xE3B00102#32 0xD3#32 [] [])) (fun t => holds [(0#4, 0x80000000#32)] t && status 0xA00000D3#32 t) ∧
    ok (step (vec 0xE1B00231#32 0x200000D3#32 [(1#4, 0x80000001#32), (2#4, 0x100#32)] []))
      (fun t => holds [(0#4, 0x80000001#32)] t && status 0xA00000D3#32 t) ∧
    ok (step (vec 0xE1B00271#32 0x200000D3#32 [(1#4, 0x80000001#32), (2#4, 31#32)] []))
      (fun t => holds [(0#4, 3#32)] t && status 0xD3#32 t) := by decide

/-- SH16, SH17, SH31, SH32: amounts of 32 and 33, fatal by default, the general results with ARM_SEMANTICS. -/
theorem test_step_shift_32 :
    [32#32, 33#32, 255#32].all (fun k => stops (step (vec 0xE1B00211#32 0xD3#32 [(1#4, 0x80000001#32), (2#4, k)] []))
      (fun r => r == .unimpRegShift32 0xE1B00211#32 0x100#32 k.toNat)) ∧
    [(0xE1B00211#32, 32#32, 0#32, 0x600000D3#32), (0xE1B00211#32, 33#32, 0#32, 0x400000D3#32),
      (0xE1B00251#32, 33#32, 0xFFFFFFFF#32, 0xA00000D3#32), (0xE1B00271#32, 32#32, 0x80000001#32, 0xA00000D3#32),
      (0xE1B00271#32, 33#32, 0xC0000000#32, 0xA00000D3#32)].all fun p =>
      ok (step { vec p.1 0x200000D3#32 [(1#4, 0x80000001#32), (2#4, p.2.1)] [] with
          config.regShiftGe32 := .armSemantics })
        (fun t => holds [(0#4, p.2.2.1)] t && status p.2.2.2 t) := by decide

/-- SH37, SH40, SH41: R15 reads `A + 8`, and `A + 12` where the amount comes from a register. -/
theorem test_step_pc_operand :
    [(0xE1A0000F#32, 0x108#32), (0xE08F0211#32, 0x10C#32), (0xE080021F#32, 0x10C#32)].all fun p =>
      ok (step (vec p.1 0xD3#32 [] [])) (holds [(0#4, p.2), (15#4, 0x10C#32)]) := by decide

/-- DP1 to DP11, DP17, DP18: each operation that writes Rd. -/
theorem test_step_data_processing :
    [(0xE0110002#32, 0xF0F0F0F0#32, 0xFF00FF00#32, 0xF000F000#32, 0x800000D3#32),
      (0xE0210002#32, 0xF0F0F0F0#32, 0xFF00FF00#32, 0x0FF00FF0#32, 0xD3#32),
      (0xE2510001#32, 5#32, 0#32, 0xFFFFFFFC#32, 0x800000D3#32),
      (0xE2710001#32, 5#32, 0#32, 4#32, 0x200000D3#32),
      (0xE0910002#32, 0xFFFFFFFF#32, 1#32, 0#32, 0x600000D3#32),
      (0xE0910002#32, 0x7FFFFFFF#32, 1#32, 0x80000000#32, 0x900000D3#32),
      (0xE38100FF#32, 0xFF00#32, 0#32, 0xFFFF#32, 0xD3#32),
      (0xE3A00C01#32, 0#32, 0#32, 0x100#32, 0xD3#32),
      (0xE3C1001F#32, 0xD3#32, 0#32, 0xC0#32, 0xD3#32),
      (0xE3F00000#32, 0#32, 0#32, 0xFFFFFFFF#32, 0x800000D3#32),
      (0xE0510002#32, 1#32, 0x80000000#32, 0x7FFFFFFF#32, 0x300000D3#32),
      (0xE0710002#32, 0x80000000#32, 1#32, 0x7FFFFFFF#32, 0x300000D3#32)].all fun p =>
      ok (step (vec p.1 0xD3#32 [(1#4, p.2.1), (2#4, p.2.2.1)] []))
        (fun t => holds [(0#4, p.2.2.2.1), (1#4, p.2.1), (15#4, 0x10C#32)] t && status p.2.2.2.2 t) := by decide

/-- DP12 to DP15, DP20: the compare-only operations, both orders of CMP. -/
theorem test_step_compare :
    ok (step (vec 0xE3100001#32 0xD3#32 [(0#4, 2#32)] [])) (fun t => holds [(0#4, 2#32)] t && status 0x400000D3#32 t) ∧
    ok (step (vec 0xE3500005#32 0xD3#32 [(0#4, 3#32)] [])) (fun t => holds [(0#4, 3#32)] t && status 0x800000D3#32 t) ∧
    ok (step { vec 0xE3500005#32 0xD3#32 [(0#4, 3#32)] [] with config.cmpOrder := .op2MinusRn }) (status 0x200000D3#32) ∧
    ok (step (vec 0xE3700001#32 0xD3#32 [(0#4, 0xFFFFFFFF#32)] [])) (status 0x600000D3#32) ∧
    ok (step (vec 0xE1510002#32 0xD3#32 [(1#4, 0x80000000#32), (2#4, 1#32)] [])) (status 0x300000D3#32) := by decide

/-- DP24, DP25: a PC write flushes, an unaligned one faults. -/
theorem test_step_pc_write :
    ok (step (vec 0xE1A0F00E#32 0xD3#32 [(14#4, 0x204#32)] []))
      (fun t => t.cpu.pc == 0x204#32 && t.cpu.queue == .empty) ∧
    stops (step (vec 0xE3A0F002#32 0xD3#32 [] [])) (fun r => r == .unimpPcUnaligned 0xE3A0F002#32 0x100#32 2#32) := by
  decide

/-- LS1 to LS7: LDR, STR, LDRB, STRB with immediate and register offsets, pre- and post-indexed. -/
theorem test_step_load_store :
    ok (step (vec 0xE5901004#32 0xD3#32 [(0#4, 0x1000#32)] [(0x1004#32, 0x11223344#32)]))
      (holds [(1#4, 0x11223344#32), (0#4, 0x1000#32)]) ∧
    ok (step (vec 0xE4801004#32 0xD3#32 [(0#4, 0x1000#32), (1#4, 0xCAFEF00D#32)] []))
      (fun t => holds [(0#4, 0x1004#32)] t &&
        t.mem == [(0x1000, 0x0D#8), (0x1001, 0xF0#8), (0x1002, 0xFE#8), (0x1003, 0xCA#8)]) ∧
    ok (step (vec 0xE5702001#32 0xD3#32 [(0#4, 0x1001#32)] [(0x1000#32, 0x11223344#32)]))
      (holds [(2#4, 0x44#32), (0#4, 0x1000#32)]) ∧
    ok (step (vec 0xE7602103#32 0xD3#32 [(0#4, 0x1010#32), (2#4, 0x1AB#32), (3#4, 1#32)] []))
      (fun t => holds [(0#4, 0x100C#32)] t && t.mem == [(0x100C, 0xAB#8)]) ∧
    ok (step (vec 0xE59F0008#32 0xD3#32 [] [(0x110#32, 0xDEADBEEF#32)])) (holds [(0#4, 0xDEADBEEF#32)]) ∧
    ok (step (vec 0xE71010C2#32 0xD3#32 [(0#4, 0x1000#32), (2#4, 0xFFFFFFF8#32)] [(0x1004#32, 0x66#32)]))
      (holds [(1#4, 0x66#32)]) := by decide

/-- LS11 to LS16: the three unaligned policies with their log record, and an address that wraps. -/
theorem test_step_unaligned :
    let s := vec 0xE5901000#32 0xD3#32 [(0#4, 0x1002#32)] [(0x1000#32, 0x11223344#32), (0x1004#32, 0x55667788#32)]
    let r : LogRecord := ⟨0x1002#32, 4, false, 0x100#32, 0xE5901000#32⟩
    ok (step s) (fun t => holds [(1#4, 0x77881122#32)] t && t.log == [r]) ∧
    ok (step { s with config.unalignedWord := .rotate }) (fun t => holds [(1#4, 0x33441122#32)] t && t.log == [r]) ∧
    stops (step { s with config.unalignedWord := .fault }) (fun f => f == .unimpUnaligned 0xE5901000#32 0x100#32) ∧
    leaves (step { s with config.unalignedWord := .fault }) (fun w => w.log == [r]) ∧
    ok (step { vec 0xE5801000#32 0xD3#32 [(0#4, 0x1001#32), (1#4, 0xAABBCCDD#32)] [] with config.unalignedWord := .rotate })
      (fun t => t.mem.readWord 0x1000#32 == 0xAABBCCDD#32 && t.mem.readWord 0x1004#32 == 0#32) ∧
    ok (step (vec 0xE5201004#32 0xD3#32 [(1#4, 0xAA#32)] []))
      (fun t => holds [(0#4, 0xFFFFFFFC#32)] t && t.mem == [(0xFFFFFFFC, 0xAA#8)]) := by decide

/-- R308, R346 (c): what a step has done on the bus and in the log before it faults has happened: the record of an unaligned
access that fails or whose cost overflows, and the stores of the slots before the one that fails. -/
theorem test_step_faults_leave :
    let s := { vec 0xE5901000#32 0xD3#32 [(0#4, 0x1002#32)] [] with host.regions := [⟨0x1004, 4, .fails⟩] }
    let r : LogRecord := ⟨0x1002#32, 4, false, 0x100#32, 0xE5901000#32⟩
    stops (step s) (fun f => f == .bus 0x1002#32 4 (some 0xE5901000#32) 0x100#32) ∧
    leaves (step s) (fun w => w.log == [r]) ∧
    leaves (step { s with host.regions := [], cpu.cycles := 0xFFFFFFFFFFFFFFFF#64 }) (fun w => w.log == [r]) ∧
    (let u := { vec 0xE880000E#32 0xD3#32 [(0#4, 0x1000#32), (1#4, 0xA#32), (2#4, 0xB#32), (3#4, 0xC#32)] [] with
        host.regions := [⟨0x1008, 4, .fails⟩] }
     stops (step u) (fun f => f == .bus 0x1008#32 4 (some 0xE880000E#32) 0x100#32) &&
     leaves (step u) (fun w => w.mem == [(0x1000, 0xA#8), (0x1004, 0xB#8)])) := by decide

/-- BT1, BT2, BT4, BT6, BT8, BT9: LDM and STM in their modes, R15 loaded and stored. -/
theorem test_step_block_transfer :
    ok (step (vec 0xE8B00006#32 0xD3#32 [(0#4, 0x2000#32)] [(0x2000#32, 1#32), (0x2004#32, 2#32)]))
      (holds [(1#4, 1#32), (2#4, 2#32), (0#4, 0x2008#32)]) ∧
    ok (step (vec 0xE920000E#32 0xD3#32 [(0#4, 0x1010#32), (1#4, 0xA#32), (2#4, 0xB#32), (3#4, 0xC#32)] []))
      (fun t => holds [(0#4, 0x1004#32)] t && t.mem == [(0x1004, 0xA#8), (0x1008, 0xB#8), (0x100C, 0xC#8)]) ∧
    ok (step (vec 0xE8BD8010#32 0xD3#32 [(13#4, 0x2FF8#32)] [(0x2FF8#32, 0x44#32), (0x2FFC#32, 0x200#32)]))
      (fun t => holds [(4#4, 0x44#32), (13#4, 0x3000#32), (15#4, 0x200#32)] t && t.cpu.queue == .empty) ∧
    ok (step (vec 0xE8300006#32 0xD3#32 [(0#4, 0x2008#32)] [(0x2004#32, 1#32), (0x2008#32, 2#32)]))
      (holds [(1#4, 1#32), (2#4, 2#32), (0#4, 0x2000#32)]) ∧
    ok (step (vec 0xE8900003#32 0xD3#32 [(0#4, 0x2000#32)] [(0x2000#32, 0x77#32), (0x2004#32, 0x88#32)]))
      (holds [(0#4, 0x77#32), (1#4, 0x88#32)]) ∧
    ok (step (vec 0xE8808000#32 0xD3#32 [(0#4, 0x2000#32)] [])) (fun t => t.mem.readWord 0x2000#32 == 0x10C#32) := by decide

/-- BT10, BT11: an unaligned value for R15, an unaligned base. -/
theorem test_step_block_transfer_faults :
    stops (step (vec 0xE8908000#32 0xD3#32 [(0#4, 0x2000#32)] [(0x2000#32, 0x202#32)]))
      (fun r => r == .unimpPcUnaligned 0xE8908000#32 0x100#32 0x202#32) ∧
    stops (step (vec 0xE8900002#32 0xD3#32 [(0#4, 0x2002#32)] []))
      (fun r => r == .unimpBtUnaligned 0xE8900002#32 0x100#32 0x2002#32) := by decide

/-- MU2, MU3, MU5, MU11: MUL and MLA. -/
theorem test_step_multiply :
    ok (step (vec 0xE0332190#32 0xD3#32 [(0#4, 7#32), (1#4, 6#32), (2#4, 0xFFFFFFD6#32), (3#4, 9#32)] []))
      (fun t => holds [(3#4, 0#32)] t && status 0x400000D3#32 t) ∧
    ok (step (vec 0xE0020190#32 0xD3#32 [(0#4, 0xFFFFFFFF#32), (1#4, 0xFFFFFFFF#32)] [])) (holds [(2#4, 1#32)]) ∧
    ok (step (vec 0xE0120190#32 0x300000D3#32 [(0#4, 3#32), (1#4, 0x80000000#32)] []))
      (fun t => holds [(2#4, 0x80000000#32)] t && status 0x900000D3#32 t) ∧
    ok (step (vec 0xE002F291#32 0xD3#32 [(1#4, 3#32), (2#4, 5#32)] [])) (holds [(2#4, 15#32)]) := by decide

/-- BR1, BR2, BR6: B forward and back, BL. -/
theorem test_step_branch :
    ok (step (vec 0xEA000010#32 0xD3#32 [] [])) (fun t => holds [(15#4, 0x148#32)] t && t.cpu.queue == .empty) ∧
    ok (step (vec 0xEAFFFFBE#32 0xD3#32 [] [])) (holds [(15#4, 0#32)]) ∧
    ok (step (vec 0xEB000010#32 0xD3#32 [] [])) (holds [(14#4, 0x104#32), (15#4, 0x148#32)]) := by decide

/-- SR2, SR3, SR5, SR7, SR12: MRS and MSR. -/
theorem test_step_status :
    ok (step (vec 0xE10F0000#32 0xD3#32 [] [])) (holds [(0#4, 0xD3#32)]) ∧
    ok (step (vec 0xE121F000#32 0xD3#32 [(0#4, 0x10#32)] [])) (status 0x10#32) ∧
    ok (step (vec 0xE328F20F#32 0xD3#32 [] [])) (status 0xF00000D3#32) ∧
    ok (step (vec 0xE321F013#32 0x10#32 [] [])) (status 0x10#32) ∧
    ok (step (vec 0xE169F000#32 0xD3#32 [(0#4, 0xF00000FF#32)] [])) (fun t => t.cpu.spsr.svc.toWord == 0xF00000DF#32) := by
  decide

/-- SR8 to SR11: the faults MRS and MSR raise at execute. -/
theorem test_step_status_faults :
    stops (step (vec 0xE321F000#32 0xD3#32 [] [])) (fun r => r == .unimpMsrMode 0xE321F000#32 0x100#32 0#32) ∧
    stops (step (vec 0xE14F4000#32 0x10#32 [] [])) (fun r => r == .unimpSpsrNone 0xE14F4000#32 0x100#32) ∧
    stops (step (vec 0xE169F000#32 0xDF#32 [] [])) (fun r => r == .unimpSpsrNone 0xE169F000#32 0x100#32) := by decide

/-- One word for each fault raised at decode, with a condition that fails (R135, sections 4 to 7 and 10). -/
theorem test_step_decode_faults :
    ∀ p ∈ [(0x00A00000#32, DecodeFault.unimpDpOpcode), (0x012FFF1E#32, .unimpDpOpcode), (0x03000001#32, .intCompareNoS),
      (0x01B0F00E#32, .unimpPcFlags), (0x01B00021#32, .unimpShift32), (0x008F0F11#32, .unimpRegShiftPc),
      (0x04B01004#32, .unimpLsUser), (0x0590F000#32, .unimpLsPc), (0x05BF1004#32, .unimpLsWbPc),
      (0x05B00004#32, .unimpLsWbRd), (0x0790100F#32, .unimpLsRmPc), (0x07901021#32, .unimpShift32),
      (0x08D00006#32, .unimpBtUser), (0x08900000#32, .unimpBtEmpty), (0x089F0006#32, .unimpBtPcBase),
      (0x08B00003#32, .unimpBtWbInList), (0x00000190#32, .unimpMulRdRm), (0x000F0190#32, .unimpMulPc),
      (0x0022F291#32, .unimpMulPc), (0x010FF000#32, .unimpMrsPc), (0x0129F00F#32, .unimpMsrPc)],
      stops (step (vec p.1 0xD3#32 [] [])) (fun r => r == .atDecode p.2 p.1 0x100#32) := by decide

/-- X1, X3, X5: an IRQ, FIQ before IRQ, a masked IRQ. -/
theorem test_step_interrupts :
    let s : State := { vec 0xE1A00000#32 0x60000010#32 [] [] with cpu.pc := 0x20C#32 }
    ok (step { s with host.lines.irq := true })
      (fun t => status 0x60000092#32 t && t.cpu.spsr.irq.toWord == 0x60000010#32 && t.cpu.regs.lr.irq == 0x208#32 &&
        t.cpu.pc == 0x1C#32 && t.cpu.queue.len == 1 && t.cpu.cycles == 1) ∧
    ok (step { s with host.lines := ⟨true, true⟩ })
      (fun t => status 0x600000D1#32 t && t.cpu.regs.lr.fiq == 0x208#32 && t.cpu.pc == 0x20#32 && t.cpu.pending.irq) ∧
    ok (step { s with host.lines.irq := true, cpu.cpsr.i := true })
      (fun t => t.cpu.pc == 0x210#32 && t.cpu.pending.irq) := by decide

/-- X7: SWI at `0x40`, then its service. -/
theorem test_step_swi :
    let s : State := { vec 0xEF000012#32 0x10#32 [] [] with cpu.pc := 0x48#32 }
    ok (step s) (fun t => t.cpu.pending.swi && t.cpu.pc == 0x4C#32) ∧
    ok (andThen (step s) step)
      (fun t => t.cpu.regs.lr.svc == 0x44#32 && t.cpu.spsr.svc.toWord == 0x10#32 && status 0x93#32 t &&
        t.cpu.pc == 0x0C#32 && t.cpu.queue.len == 1) := by decide

/-- X10: reset. -/
theorem test_step_reset :
    ok (andThen (step State.reset) step)
      (fun t => status 0xD3#32 t && t.cpu.pc == 4#32 && t.cpu.queue.len == 1 && t.cpu.cycles == 1) := by decide

/-- R494: a run of the engine, then a first schedule, both before the first iteration; R446 at construction. -/
theorem test_step_boot :
    let s := { State.reset with host.boot := [.runCpu, .call (.schedule 0 0 3#64)], sched.clocks := [⟨0#64, 1#64, []⟩] }
    ok (step s) (fun t => t.turn == .run true) ∧
    ok (andThen (andThen (step s) step) step)
      (fun t => t.turn == .boot && t.cpu.cycles == 1 && t.clock 0 == some ⟨0#64, 3#64, [0]⟩) ∧
    ok (andThen (andThen (andThen (step s) step) step) step) (fun t => t.turn == .run false) ∧
    stops (step (State.powerOn { Config.default with clockScale := 2 ^ 60 })) (fun r => r == .intStampOverflow 0#64 (2 ^ 64)) ∧
    ok (step (State.powerOn { Config.default with clockScale := 2 ^ 60 - 1 })) (fun t => t.turn == .run false) := by decide

/-- The steps of log 18: the first instruction of a program in memory runs at the fourth step from reset, and at the very
next step when it is placed. -/
theorem test_withFetchWord :
    ok (Host.Core.run ⟨State, Fault, Refusal, step, State.reset⟩ 4
      { State.reset with mem := Memory.writeWord [] 0#32 0xE3A00C01#32 }) (holds [(0#4, 0x100#32)]) ∧
    ok (step (State.reset.withFetchWord 32 0xE3A00C01)) (holds [(0#4, 0x100#32)]) := by decide

/-- Q1 of section 11, its first steps: schedule, peek, cancel, target. -/
theorem test_step_scheduler :
    ok (schedule 0 0 120#64 { State.reset with sched.clocks := [⟨100#64, 116#64, []⟩] })
      (fun t => t.clock 0 == some ⟨100#64, 120#64, [0]⟩) ∧
    ok (andThen (schedule 0 0 120#64 { State.reset with sched.clocks := [⟨100#64, 116#64, []⟩] }) (schedule 0 1 110#64))
      (fun t => t.clock 0 == some ⟨100#64, 110#64, [1, 0]⟩ && peekEarliest 0 t == some 1) ∧
    stops (schedule 0 0 99#64 { State.reset with sched.clocks := [⟨100#64, 116#64, []⟩] })
      (fun r => r == .intSchedulePast 0 99#64 100#64) := by decide

/-! ## Witnesses of the statements' hypotheses -/

/-- AndResult to MvnResult: every operation is ready in the three formats, with Rd below 15 and S = 0 or 1, and with Rd = 15. -/
theorem test_witness_writing_ready :
    ∀ op ∈ writing, ∀ p ∈ [(1#4, true), (1#4, false), (14#4, true), (15#4, false)],
      ready (Form.instr (.dpi op ⟨.al, p.2, 3#4, p.1, 1#4, 2#8⟩)) .svc st = true ∧
      ready (Form.instr (.dps op ⟨.al, p.2, 3#4, p.1, 31#5, .ror, 2#4⟩)) .svc st = true ∧
      ready (Form.instr (.dpr op ⟨.al, p.2, 3#4, p.1, 5#4, .asr, 2#4⟩)) .svc st = true ∧
      (dprShift .svc ⟨.al, p.2, 3#4, p.1, 5#4, .asr, 2#4⟩ st).isSome := by decide

/-- Rd = 15 with an aligned result, then with an unaligned one, for every operation and format: R0 to R7 hold 0 to 7; each row
is the operation, Rn, and the right operands of the two. -/
theorem test_witness_writing_pc :
    ∀ p ∈ [(DpOp.and, 1#4, 0#4, 1#4), (.eor, 1#4, 1#4, 0#4), (.sub, 1#4, 1#4, 0#4), (.rsb, 1#4, 1#4, 0#4),
      (.add, 1#4, 3#4, 0#4), (.orr, 0#4, 0#4, 1#4), (.mov, 0#4, 0#4, 1#4), (.bic, 1#4, 1#4, 0#4), (.mvn, 0#4, 3#4, 0#4)],
      ∀ b ∈ [false, true],
      let r := if b then p.2.2.1 else p.2.2.2
      ∀ i ∈ [Form.instr (.dpi p.1 ⟨.al, false, p.2.1, 15#4, 0#4, r.setWidth 8⟩),
        Form.instr (.dps p.1 ⟨.al, false, p.2.1, 15#4, 0#5, .lsl, r⟩),
        Form.instr (.dpr p.1 ⟨.al, false, p.2.1, 15#4, 0#4, .lsr, r⟩)],
      ready i .svc st = true ∧ ok (exec i st) (fun t => t.cpu.queue == .empty) = b ∧
        stops (exec i st) (fun f => match f with | .unimpPcUnaligned _ _ v => v.toNat % 4 != 0 | _ => false) = !b := by
  decide

/-- CompareResults: ready with S = 1, whatever Rd; and the integrity fault with S = 0. -/
theorem test_witness_comparing :
    ∀ op ∈ comparing, ∀ rd ∈ [0#4, 15#4],
      ready (Form.instr (.dpi op ⟨.al, true, 3#4, rd, 1#4, 2#8⟩)) .svc st = true ∧
      ready (Form.instr (.dps op ⟨.al, true, 3#4, rd, 31#5, .ror, 2#4⟩)) .svc st = true ∧
      ready (Form.instr (.dpr op ⟨.al, true, 3#4, rd, 5#4, .asr, 2#4⟩)) .svc st = true ∧
      stops (exec (Form.instr (.dpi op ⟨.eq, false, 3#4, rd, 1#4, 2#8⟩)) st)
        (fun r => match r with | .atDecode k _ _ => k == .intCompareNoS | _ => false) = true := by decide

/-- UnimplementedOpcodesStop: each opcode in each format, with a condition that fails and S = 0. -/
theorem test_witness_unimplemented :
    ∀ op ∈ [DpOp.adc, .sbc, .rsc, .teq],
      ∀ i ∈ [Form.instr (.dpi op ⟨.nv, false, 1#4, 2#4, 0#4, 3#8⟩), Form.instr (.dps op ⟨.nv, false, 1#4, 2#4, 1#5, .lsl, 3#4⟩),
        Form.instr (.dpr op ⟨.nv, false, 1#4, 2#4, 3#4, .lsl, 3#4⟩)],
      stops (exec i st) (fun r => r == .atDecode .unimpDpOpcode (encode i) 0x100#32) = true := by decide

/-- OperandBits and RegisterShiftAmounts at the edges of their ranges, and both values of `REG_SHIFT_GE32`. -/
theorem test_witness_shift_amounts :
    immShift .lsr 0x80000001#32 1#5 false = ⟨0x40000000#32, true⟩ ∧ immShift .lsr 0x80000001#32 31#5 false = ⟨1#32, false⟩ ∧
    immOperand ⟨.al, true, 0#4, 0#4, 15#4, 0xFF#8⟩ false = ⟨0x3FC#32, false⟩ ∧
    immOperand ⟨.al, true, 0#4, 0#4, 0#4, 0xFF#8⟩ true = ⟨0xFF#32, true⟩ ∧
    (∀ k ∈ [0, 31], (regShift Config.default .ror 5#32 k true).isSome) ∧
    (∀ k ∈ [32, 33, 64, 255], regShift Config.default .ror 5#32 k true = none ∧
      (regShift { Config.default with regShiftGe32 := .armSemantics } .ror 5#32 k true).isSome) ∧
    (let s := writeReg .svc 2#4 0xFFFFFF20#32 st
     ∀ op ∈ writing, ready (Form.instr (.dpr op ⟨.al, false, 1#4, 3#4, 2#4, .lsl, 4#4⟩)) .svc s = true ∧
       s.config.regShiftGe32 = .fault ∧ 32 ≤ ((readReg .svc 2#4 s).extractLsb' 0 8).toNat) ∧
    (∀ op ∈ writing, firstOf (dpRestrictions op true 3#4) = none) := by decide

/-- MultiplyResults: with and without flags, Rd = Rs, Rd = Rn, and an ignored Rn = 15 in MUL. -/
theorem test_witness_multiply :
    ready (.mul ⟨.al, true, 2#4, 15#4, 2#4, 3#4⟩) .svc st = true ∧ ready (.mul ⟨.al, false, 14#4, 0#4, 1#4, 0#4⟩) .svc st = true ∧
    ready (.mla ⟨.al, true, 2#4, 2#4, 2#4, 3#4⟩) .svc st = true ∧ ready (.mla ⟨.al, false, 0#4, 1#4, 2#4, 3#4⟩) .svc st = true := by
  decide

/-- LdrLoadsWord and StrStoresWord: every indexing, aligned and unaligned, each policy that accesses; R15 as a base. -/
theorem test_witness_word_accesses :
    ∀ load ∈ [true, false], ∀ q ∈ [(true, true, false), (true, false, true), (false, true, false)],
      ∀ c ∈ [UnalignedWord.busBytes, .rotate], [0#12, 1#12, 0xFFF#12].all fun off =>
      let s := { st with config.unalignedWord := c }
      let a := accessAddr q.1 q.2.1 (readReg .svc 4#4 s) (BitVec.ofNat 32 off.toNat)
      ready (Form.instr (.lsi false load ⟨.al, q.1, q.2.1, q.2.2, 4#4, 5#4, off⟩)) .svc s &&
      ready (Form.instr (.lsr false load ⟨.al, q.1, q.2.1, q.2.2, 4#4, 5#4, 0#5, .lsl, 4#4⟩)) .svc s &&
      ready (Form.instr (.lsi false load ⟨.al, true, true, false, 15#4, 5#4, off⟩)) .svc s &&
      wordAllowed c a && s.plainAccess .word (busAddr c a) := by decide

/-- ByteAccesses: every indexing, at any alignment. -/
theorem test_witness_byte_accesses :
    ∀ load ∈ [true, false], ∀ q ∈ [(true, true, false), (true, false, true), (false, true, false)], [0#12, 3#12].all fun off =>
      ready (Form.instr (.lsi true load ⟨.al, q.1, q.2.1, q.2.2, 4#4, 5#4, off⟩)) .svc st &&
      ready (Form.instr (.lsr true load ⟨.al, q.1, q.2.1, q.2.2, 4#4, 5#4, 31#5, .ror, 6#4⟩)) .svc st &&
      st.plainAccess .byte (accessAddr q.1 q.2.1 (readReg .svc 4#4 st) (BitVec.ofNat 32 off.toNat)) := by decide

/-- UnalignedAccessesFault: its three clauses, load and store. -/
theorem test_witness_unaligned_faults :
    let s := { st with config.unalignedWord := .fault }
    ∀ load ∈ [true, false],
      (ready (Form.instr (.lsi false load ⟨.al, true, true, false, 4#4, 5#4, 1#12⟩)) .svc s = true ∧
        (accessAddr true true (readReg .svc 4#4 s) 1#32).toNat % 4 ≠ 0) ∧
      (ready (Form.instr (.lsr false load ⟨.al, false, true, false, 3#4, 5#4, 0#5, .lsl, 4#4⟩)) .svc s = true ∧
        (accessAddr false true (readReg .svc 3#4 s) 4#32).toNat % 4 ≠ 0) ∧
      ready (Form.instr (.bt load ⟨.al, true, false, false, true, 7#4, 0x8001#16⟩)) .svc s = true ∧
        (readReg .svc 7#4 s).toNat % 4 ≠ 0 := by decide

/-- Nothing answers from `0x1000` up; R4 is `0xFF8`. -/
def failing : State := writeReg .svc 4#4 0xFF8#32 { st with host.regions := [⟨0x1000, 0xFFFFF000, .fails⟩] }

/-- BusFailureIsFatal: the fetch, and the loads and stores of both formats. -/
theorem test_witness_bus_failures :
    busKind failing.host.regions 0x1000#32 4 = .fails ∧ busKind failing.host.regions 0xFFF#32 4 = .fails ∧
    busKind failing.host.regions 0xFFC#32 4 = .plain ∧
    (let s := { failing with cpu.pc := 0x2000#32 }
     busKind s.host.regions s.cpu.pc 4 = .fails) ∧
    (∀ byte ∈ [true, false], ∀ load ∈ [true, false],
      ready (Form.instr (.lsi byte load ⟨.al, true, true, false, 4#4, 5#4, 8#12⟩)) .svc failing = true ∧
      ready (Form.instr (.lsr byte load ⟨.al, true, true, false, 4#4, 5#4, 1#5, .lsl, 4#4⟩)) .svc failing = true ∧
      (byte || wordAllowed failing.config.unalignedWord 0x1000#32) = true) := by decide

/-- BusFailureIsFatal: LDM and STM, the third slot failing. -/
theorem test_witness_slot_failure :
    (∀ load ∈ [true, false],
      ready (Form.instr (.bt load ⟨.al, false, true, false, false, 4#4, 0x000F#16⟩)) .svc failing = true) ∧
    (readReg .svc 4#4 failing).toNat % 4 = 0 ∧
    btSlots ⟨.al, false, true, false, false, 4#4, 0x000F#16⟩ (readReg .svc 4#4 failing) =
      [(0#4, 0xFF8#32), (1#4, 0xFFC#32), (2#4, 0x1000#32), (3#4, 0x1004#32)] ∧
    failing.plainAccess .word 0xFF8#32 = true ∧ failing.plainAccess .word 0xFFC#32 = true := by decide

/-- A device at `0x2000`, which R4 holds, with this script. -/
def device (script : List DeviceReply) : State :=
  writeReg .svc 4#4 0x2000#32 { st with host.regions := [⟨0x2000, 4, .device⟩], host.deviceScript := script }

/-- DeviceAnswersLoad and DeviceTakesStore: an access to the device, with a reply that makes a call, without a script, with a
reply that fails after its call, and with a call that faults; each form of load and store, at the device alone and across its
end. -/
theorem test_witness_device :
    let scripts : List (List DeviceReply) := [[], [⟨true, 0x1AB#32, [.setIrqLine true]⟩], [⟨false, 0#32, [.setFiqLine true]⟩]]
    (∀ l ∈ scripts, ∀ byte ∈ [true, false], ∀ load ∈ [true, false],
      ready (Form.instr (.lsi byte load ⟨.al, true, true, false, 4#4, 5#4, 3#12⟩)) .svc (device l) = true ∧
      ready (Form.instr (.lsr byte load ⟨.al, true, true, true, 4#4, 5#4, 0#5, .lsl, 0#4⟩)) .svc (device l) = true ∧
      ready (Form.instr (.bt load ⟨.al, false, true, false, true, 4#4, 0x8003#16⟩)) .svc (device l) = true ∧
      (byte || wordAllowed (device l).config.unalignedWord 0x2003#32) = true) ∧
    busKind (device []).host.regions 0x2003#32 1 = .device ∧ busKind (device []).host.regions 0x2003#32 4 = .device ∧
    busKind (device []).host.regions 0x2000#32 4 = .device ∧ (device []).plainAccess .word 0x2004#32 = true ∧
    ok (exec (.ldrbImm ⟨.al, true, true, false, 4#4, 5#4, 3#12⟩) (device [⟨true, 0x1AB#32, [.setIrqLine true]⟩]))
      (fun t => holds [(5#4, 0xAB#32)] t && t.host.lines.irq && t.host.deviceScript == []) = true ∧
    ok (exec (.strImm ⟨.al, true, true, false, 4#4, 5#4, 0#12⟩) (device [])) (fun t => t.mem == [] && t.draws == 0) = true ∧
    leaves (exec (.stm ⟨.al, false, true, false, true, 4#4, 0x8003#16⟩) (device [⟨false, 0#32, [.setFiqLine true]⟩]))
      (fun w => w.host.lines.fiq && w.host.deviceScript == []) = true ∧
    stops (exec (.stm ⟨.al, false, true, false, true, 4#4, 0x8003#16⟩) (device [⟨true, 0#32, [.initEvent 0 1, .cancel 0 0]⟩]))
      (fun r => r == .intCancelUnlinked 0 0 0#64) = true := by decide

/-- DeviceReads, DeviceWrites and DeviceFails hold of those states. -/
theorem test_witness_device_answers :
    DeviceReads .word (device []) (Config.deviceValue 0) { device [] with draws := 1 } ∧
    DeviceReads .byte (device [⟨true, 0x1AB#32, [.setIrqLine true]⟩]) 0xAB#32 { device [] with host.lines.irq := true } ∧
    DeviceWrites (device []) (device []) ∧
    DeviceWrites (device [⟨true, 0#32, [.setIrqLine true]⟩]) { device [] with host.lines.irq := true } ∧
    DeviceFails (device [⟨false, 0#32, [.setFiqLine true]⟩]) { device [] with host.lines.fiq := true } :=
  ⟨.inl ⟨rfl, rfl, rfl⟩, .inr ⟨_, _, rfl, rfl, by decide, rfl⟩, .inl ⟨rfl, rfl⟩, .inr ⟨_, _, rfl, rfl, rfl⟩,
    _, _, rfl, rfl, rfl⟩

/-- DeviceAnswersLoad and DeviceTakesStore: the slots of an LDM and an STM from `0x2000`, the first in the device, the second in
plain memory. -/
theorem test_witness_device_slots :
    btSlots ⟨.al, false, true, false, true, 4#4, 0x0003#16⟩ 0x2000#32 = [(0#4, 0x2000#32), (1#4, 0x2004#32)] ∧
    SlotsRead [(0#4, 0x2000#32, Config.deviceValue 0), (1#4, 0x2004#32, 0#32)] (device []) { device [] with draws := 1 } ∧
    SlotsWritten [(0x2000#32, 0#32), (0x2004#32, 1#32)] (device []) { device [] with mem := [(0x2004, 1#8)] } :=
  ⟨by decide, ⟨_, .inr ⟨by decide, .inl ⟨rfl, rfl, rfl⟩⟩, _, .inl ⟨by decide, by decide, rfl⟩, rfl⟩,
    ⟨_, .inr ⟨by decide, .inl ⟨rfl, rfl⟩⟩, _, .inl ⟨by decide, rfl⟩, by simp only [SlotsWritten]; decide⟩⟩

/-- The word at `0x2004` is no address an instruction can stand at; R4 is `0x2000`. -/
def stacked : State := { writeReg .svc 4#4 0x2000#32 st with mem := Memory.writeWord [] 0x2004#32 0x206#32 }

/-- LdmLoadsRegisters: R15 not listed, listed with an aligned value, listed with an unaligned one. StmStoresRegisters. -/
theorem test_witness_block_transfer :
    (readReg .svc 4#4 stacked).toNat % 4 = 0 ∧
    (∀ l ∈ [true, false],
      [(0x0001#16, true), (0x8000#16, true), (0x8001#16, true), (0x8011#16, false)].all fun q =>
        ready (Form.instr (.bt l ⟨.al, false, true, false, q.2, 4#4, q.1⟩)) .svc stacked &&
        (btSlots ⟨.al, false, true, false, q.2, 4#4, q.1⟩ 0x2000#32).all fun p => stacked.plainAccess .word p.2) ∧
    btSlots ⟨.al, false, true, false, true, 4#4, 0x8000#16⟩ 0x2000#32 = [(15#4, 0x2000#32)] ∧
    (stacked.mem.readWord 0x2000#32).toNat % 4 = 0 ∧
    btSlots ⟨.al, false, true, false, true, 4#4, 0x8001#16⟩ 0x2000#32 = [(0#4, 0x2000#32), (15#4, 0x2004#32)] ∧
    (stacked.mem.readWord 0x2004#32).toNat % 4 ≠ 0 := by decide

theorem test_witness_stored_memory : stacked.mem.wf := by decide

/-- BranchTargets, at both ends of the offset. -/
theorem test_witness_branch :
    [0x800000#24, 0x7FFFFF#24].all (fun o => ready (.b ⟨.al, o⟩) .svc st && ready (.bl ⟨.al, o⟩) .svc st) ∧
    st.cpu.pc.toNat % 4 = 0 := by decide

/-- MrsReadsStatus and MsrWritesStatus: every clause. -/
theorem test_witness_status :
    let u := vec 0xE1A00000#32 0x10#32 [] []
    let y := vec 0xE1A00000#32 0xDF#32 [] []
    (∀ b ∈ [true, false], ready (.mrs ⟨.al, b, 4#4⟩) .svc st = true ∧ ready (.msrReg ⟨.al, b, 0b1001#4, 0#4⟩) .svc st = true ∧
      ready (.msrImm ⟨.al, b, 0b1001#4, 0#4, 0x13#8⟩) .svc st = true) ∧
    st.cpu.spsr.get .svc = some Psr.zero ∧
    (∀ b ∈ [true, false], ready (.mrs ⟨.al, b, 4#4⟩) .usr u = true ∧ ready (.mrs ⟨.al, b, 4#4⟩) .sys y = true ∧
      ready (.msrReg ⟨.al, b, 0b1111#4, 0#4⟩) .usr u = true ∧ ready (.msrImm ⟨.al, b, 0b0001#4, 0#4, 0#8⟩) .sys y = true) ∧
    (let new := mergeWord st.cpu.cpsr.toWord 0#32 (psrMask false true)
     Mode.ofBits (new.extractLsb' 0 5) = none) ∧
    (let new := mergeWord st.cpu.cpsr.toWord 0x13#32 (psrMask true true)
     (Mode.ofBits (new.extractLsb' 0 5)).isSome = true) := by decide

/-- SwiBecomesPending, with nothing else selected and a full queue. -/
theorem test_witness_swi :
    ready (.swi ⟨.al, 0xFFFFFF#24⟩) .svc st = true ∧ selectException (pollLines st) = none ∧ st.cpu.queue.len = 2 := by decide

/-- InstructionsAreCharged: a branch and a fill step whose cost does not fit. -/
theorem test_witness_overflow :
    let s := { st with cpu.cycles := 0xFFFFFFFFFFFFFFFF#64 }
    condHolds s.cpu.cpsr .al = true ∧ s.mode = some .svc ∧ s.cpu.pc.toNat % 4 = 0 ∧
    ¬InTime (baseCost s.config (.b ⟨.al, 0#24⟩)) s ∧ ¬InTime (baseCost s.config (.bl ⟨.al, 0#24⟩)) s ∧
    stops (exec (.bl ⟨.al, 0#24⟩) s)
      (fun r => r == .intCounterOverflow 0xFFFFFFFFFFFFFFFF#64 1 (some 0xEB000000#32) 0x100#32) = true ∧
    let u := { s with cpu.queue := .empty }
    u.fault = none ∧ configOk u = true ∧ u.turn = .run false ∧ selectException (pollLines u) = none ∧ u.cpu.queue.len < 2 ∧
    u.plainAccess .word u.cpu.pc = true ∧ ¬InTime 1 u ∧
    stops (step u) (fun r => r == .intCounterOverflow 0xFFFFFFFFFFFFFFFF#64 1 none 0x108#32) = true := by
  unfold InTime; decide

/-- ConditionFailedOnlyAdvances and InstructionsAreCharged: a failed condition, with time and without. -/
theorem test_witness_condition_failed :
    let i : Instr := .bl ⟨.eq, 0#24⟩
    i.checkWord = none ∧ condHolds st.cpu.cpsr i.cond = false ∧ InTime (baseCost st.config i) st ∧
    (let s := { st with cpu.cycles := 0xFFFFFFFFFFFFFFFF#64 }
     condHolds s.cpu.cpsr i.cond = false ∧ ¬InTime (baseCost s.config i) s) ∧
    ok (exec i st) (fun t => t.cpu.cycles == 1#64) = true := by unfold InTime; decide

/-- RestrictedWordsFault: one instruction for each fault, and one with none. -/
theorem test_witness_restrictions :
    (∀ p ∈ [(Form.dpi .adc ⟨.eq, false, 0#4, 0#4, 0#4, 0#8⟩, DecodeFault.unimpDpOpcode),
      (.dpi .tst ⟨.eq, false, 0#4, 0#4, 0#4, 0#8⟩, .intCompareNoS), (.dpi .mov ⟨.eq, true, 0#4, 15#4, 0#4, 0#8⟩, .unimpPcFlags),
      (.dps .mov ⟨.eq, true, 0#4, 0#4, 0#5, .ror, 0#4⟩, .unimpShift32),
      (.dpr .mov ⟨.eq, true, 0#4, 0#4, 15#4, .ror, 0#4⟩, .unimpRegShiftPc),
      (.lsi true true ⟨.eq, false, true, true, 0#4, 15#4, 0#12⟩, .unimpLsUser),
      (.lsi true true ⟨.eq, true, true, true, 15#4, 15#4, 0#12⟩, .unimpLsPc),
      (.lsi true true ⟨.eq, false, true, false, 15#4, 0#4, 0#12⟩, .unimpLsWbPc),
      (.lsi true true ⟨.eq, true, true, true, 3#4, 3#4, 0#12⟩, .unimpLsWbRd),
      (.lsr true true ⟨.eq, true, true, true, 3#4, 4#4, 0#5, .asr, 15#4⟩, .unimpLsRmPc),
      (.lsr true true ⟨.eq, true, true, true, 3#4, 4#4, 0#5, .asr, 1#4⟩, .unimpShift32),
      (.bt true ⟨.eq, true, true, true, true, 15#4, 0#16⟩, .unimpBtUser),
      (.bt true ⟨.eq, true, true, false, true, 15#4, 0#16⟩, .unimpBtEmpty),
      (.bt true ⟨.eq, true, true, false, true, 15#4, 0x8000#16⟩, .unimpBtPcBase),
      (.bt true ⟨.eq, true, true, false, true, 3#4, 8#16⟩, .unimpBtWbInList),
      (.mul true ⟨.eq, true, 1#4, 15#4, 1#4, 1#4⟩, .unimpMulPc), (.mul false ⟨.eq, true, 1#4, 15#4, 1#4, 1#4⟩, .unimpMulRdRm),
      (.mrs ⟨.eq, true, 15#4⟩, .unimpMrsPc), (.msrr ⟨.eq, true, 0#4, 15#4⟩, .unimpMsrPc)],
      firstOf (restrictions p.1) = some p.2) ∧
    firstOf (restrictions (.dpr .mov ⟨.al, true, 15#4, 0#4, 14#4, .ror, 15#4⟩)) = none := by decide

/-- ExceptionCycle: each class that can be pending. -/
theorem test_witness_exceptions :
    ∀ p ∈ [(Lines.mk true false, false, false, ExcClass.irq), (⟨true, true⟩, false, false, .fiq),
      (⟨false, false⟩, false, true, .swi), (⟨true, true⟩, true, true, .reset)],
      let s : State := { vec 0xE1A00000#32 0x10#32 [] [] with
        host.lines := p.1
        cpu.pending.reset := p.2.1
        cpu.pending.swi := p.2.2.1 }
      s.fault = none ∧ configOk s = true ∧ s.turn = .run false ∧ selectException (pollLines s) = some p.2.2.2 ∧
      s.plainAccess .word p.2.2.2.vector = true ∧ InTime 1 s := by unfold InTime; decide

/-- The engine's invariant holds of the harness's states, where the queue is full. -/
theorem test_witness_engine_inv : EngineInv st ∧ ∃ q0 q1, st.cpu.queue = .two q0 q1 :=
  ⟨⟨⟨by decide, by decide⟩, by decide, by decide, by decide, by decide⟩, _, _, rfl⟩

/-- ResetCycle, PowerOnState and the last clause of FaultsEndTheSession. -/
theorem test_witness_reset :
    configOk (State.powerOn Config.default) = true ∧ 2 ^ 64 ≤ lookahead { Config.default with clockScale := 2 ^ 60 } ∧ Config.default.cpuClockScale < 2 ^ 64 ∧
    lookahead Config.default < 2 ^ 64 := by decide

/-- StepRunsDecodedInstruction and FaultsEndTheSession. -/
theorem test_witness_step :
    (st.fault = none ∧ configOk st = true ∧ st.turn = .run false ∧
      (dispatched st).cpu.queue = .two ⟨0xE1A00000#32, 0x100#32⟩ ⟨0xE1A00000#32, 0x104#32⟩ ∧
      decodeWord 0xE1A00000#32 = .ok (.movSh ⟨.al, false, 0#4, 0#4, 0#5, .lsl, 0#4⟩) ∧
      st.plainAccess .word (dispatched st).cpu.pc = true) ∧
    let s := vec 0xE7F000F0#32 0xD3#32 [] []
    s.fault = none ∧ configOk s = true ∧ s.turn = .run false ∧
      (dispatched s).cpu.queue = .two ⟨0xE7F000F0#32, 0x100#32⟩ ⟨0xE1A00000#32, 0x104#32⟩ ∧
      decodeWord 0xE7F000F0#32 = .error (.noEntry 0xE7F000F0#32) ∧ s.plainAccess .word (dispatched s).cpu.pc = true ∧
      stops (step s) (fun r => r == .unimpNoDecode 0xE7F000F0#32 0x100#32) = true := by decide

/-- FillStepFetches: an empty queue and a queue of one. -/
theorem test_witness_fill :
    ∀ q ∈ [Queue.empty, .one ⟨0#32, 0x104#32⟩],
      let s := { st with cpu.queue := q }
      s.fault = none ∧ configOk s = true ∧ s.turn = .run false ∧ selectException (pollLines s) = none ∧ s.cpu.queue.len < 2 ∧
      s.plainAccess .word s.cpu.pc = true ∧ InTime 1 s := by unfold InTime; decide

/-- FillStepFetches, ExceptionCycle: each line's bit follows its level at the poll, whatever it was, and a script's head is the
level before the lines are; the other bits stay. Both lines are masked, so that no class is selected. -/
theorem test_witness_poll :
    ∀ p ∈ [((⟨false, false⟩ : Lines), ([] : List Lines), Lines.mk false false, ([] : List Lines)),
      (⟨true, false⟩, [], ⟨true, false⟩, []), (⟨true, true⟩, [⟨false, true⟩, ⟨true, false⟩], ⟨false, true⟩, [⟨true, false⟩])],
    ∀ old ∈ [false, true],
      let s : State := { st with
        cpu.queue := .empty, cpu.pending.irq := old, cpu.pending.fiq := old
        host.lines := p.1, host.lineScript := p.2.1 }
      s.cpu.cpsr.i = true ∧ s.cpu.cpsr.f = true ∧ selectException (pollLines s) = none ∧
      ok (step s) (fun t => t.cpu.pending == ⟨false, false, p.2.2.1.fiq, p.2.2.1.irq, false, false⟩ &&
        t.host.lines == p.2.2.1 && t.host.lineScript == p.2.2.2) = true := by decide

/-- A domain at stamp 100 with event 1 at 110 and event 0 at 120, event 2 unscheduled. -/
def timed : State :=
  { State.reset with
    cpu.pending.reset := false
    cpu.cpsr.m := 0x13#5
    turn := .run false
    sched := ⟨[⟨100#64, 110#64, [1, 0]⟩], [⟨120#64, 5, .inDomain 0⟩, ⟨110#64, 6, .inDomain 0⟩, ⟨0#64, 7, .unscheduled⟩]⟩ }

/-- ScheduleInserts, CancelRemoves, PopTakesEarliest, AdvanceStampMovesForward, InitEventSetsHandler: every clause. -/
theorem test_witness_scheduler :
    let loose := { timed with config.integrityChecks := false }
    let late : State := { timed with sched := ⟨[⟨0xFFFFFFFFFFFFFFFF#64, 110#64, [1]⟩], timed.sched.events⟩ }
    (timed.clock 0).isSome ∧ (timed.event 0).isSome ∧ (timed.event 2).isSome ∧ timed.config.tieOrder = .fifo ∧
    stops (schedule 0 1 130#64 timed) (fun r => r == .intScheduleLinked 1 0 100#64) = true ∧
    stops (schedule 0 2 99#64 timed) (fun r => r == .intSchedulePast 2 99#64 100#64) = true ∧
    ok (schedule 0 2 110#64 timed) (fun t => t.clock 0 == some ⟨100#64, 110#64, [1, 2, 0]⟩) = true ∧
    ok (schedule 0 2 100#64 timed) (fun t => t.clock 0 == some ⟨100#64, 100#64, [2, 1, 0]⟩) = true ∧
    ok (schedule 0 2 99#64 loose) (fun t => t.clock 0 == some ⟨100#64, 99#64, [2, 1, 0]⟩) = true ∧
    stops (cancel 0 2 timed) (fun r => r == .intCancelUnlinked 2 0 100#64) = true ∧
    stops (cancel 0 1 late) (fun r => r == .intCancelPast 1 110#64 0xFFFFFFFFFFFFFFFF#64) = true ∧
    ok (cancel 0 1 timed) (fun t => t.clock 0 == some ⟨100#64, 120#64, [0]⟩) = true ∧
    stops (cancel 0 1 { late with config.integrityChecks := false })
      (fun r => r == .intStampOverflow 0xFFFFFFFFFFFFFFFF#64 16) = true ∧
    stops (andThen (popEarliest 0 late) fun p => .next p.2) (fun r => r == .intPopPast 1 110#64 0xFFFFFFFFFFFFFFFF#64) = true ∧
    ok (andThen (popEarliest 0 timed) fun p => .next p.2) (fun t => t.clock 0 == some ⟨100#64, 120#64, [0]⟩) = true ∧
    stops (andThen (popEarliest 0 { late with config.integrityChecks := false }) fun p => .next p.2)
      (fun r => r == .intStampOverflow 0xFFFFFFFFFFFFFFFF#64 16) = true ∧
    ok (andThen (popEarliest 0 State.reset) fun p => .next p.2) (fun t => t == State.reset) = true ∧
    leaves (cancel 0 1 { late with config.integrityChecks := false })
      (fun w => w.sched.clocks == [⟨0xFFFFFFFFFFFFFFFF#64, 110#64, []⟩]) = true ∧
    stops (advanceStamp 0 99#64 timed) (fun r => r == .intStampRollback 99#64 100#64) = true ∧
    stops (advanceStamp 0 111#64 timed) (fun r => r == .intStampOverrun 111#64 110#64) = true ∧
    ok (advanceStamp 0 110#64 timed) (fun t => t.clock 0 == some ⟨110#64, 110#64, [1, 0]⟩) = true ∧
    stops (advanceStamp 0 0xFFFFFFFFFFFFFFF0#64 State.reset) (fun r => r == .intStampOverflow 0xFFFFFFFFFFFFFFF0#64 16) = true ∧
    ok (advanceStamp 0 0xFFFFFFFFFFFFFFEF#64 State.reset)
      (fun t => t.clock 0 == some ⟨0xFFFFFFFFFFFFFFEF#64, 0xFFFFFFFFFFFFFFFF#64, []⟩) = true ∧
    stops (initEvent 0 9 timed) (fun r => r == .intEventMutateLinked 0) = true ∧
    ok (initEvent 2 9 timed) (fun t => t.event 2 == some ⟨0#64, 9, .unscheduled⟩) = true ∧
    ok (hostCall (.cancel 0 1) timed) (fun t => t.event 1 == some ⟨110#64, 6, .unscheduled⟩) = true := by decide

/-- SchedulerLaws, DriverIteration and StepKeepsSchedulerInv: a state with two linked events meets the invariants. -/
theorem test_witness_scheduler_inv : SchedulerInv timed where
  clocks d c h := by
    match d, h with
    | 0, h =>
      cases h
      exact ⟨by decide, by decide, by unfold Clock.targetRight; decide, by decide, fun e he => by
        simp only [List.mem_cons, List.not_mem_nil, or_false] at he
        rcases he with rfl | rfl
        · exact ⟨_, rfl, rfl⟩
        · exact ⟨_, rfl, rfl⟩⟩
    | _ + 1, h => cases h
  listed e x d h hl := by
    match e, h with
    | 0, h => cases h; cases hl; exact ⟨_, rfl, by decide⟩
    | 1, h => cases h; cases hl; exact ⟨_, rfl, by decide⟩
    | 2, h => cases h; cases hl
    | _ + 3, h => cases h

/-- SchedulerLaws: cancel and schedule of event 1 at its own stamp. -/
theorem test_witness_reschedule :
    (∀ g ∈ [1, 0], g ≠ 1 → whenOf timed.sched.events g ≠ 110#64) ∧
    ok (andThen (cancel 0 1 timed) (schedule 0 1 110#64)) (fun t => t == timed) = true ∧
    peekEarliest 0 timed = some 1 ∧ peekEarliest 0 State.reset = none := by decide

/-- SchedulerLaws: with any order among equals, event 2 at the stamp of event 1 stands before or after it. -/
theorem test_witness_any_order :
    let s := { timed with config.tieOrder := .anyOrder }
    (∃ c x, s.clock 0 = some c ∧ s.event 2 = some x ∧ x.link = .unscheduled ∧ c.stamp ≤ 110#64) ∧
    insertAny s.sched.events 110#64 2 0 [1, 0] = [2, 1, 0] ∧ insertAny s.sched.events 110#64 2 5 [1, 0] = [1, 2, 0] :=
  ⟨⟨_, _, rfl, rfl, rfl, by decide⟩, by decide, by decide⟩

/-- DriverIteration: its turns before the first iteration, between iterations and in the drain: the handler's script, the
host's calls, a chosen order. -/
theorem test_witness_turns :
    let due : State := { timed with
      turn := .drain 0
      sched := ⟨[⟨110#64, 110#64, [1, 0]⟩], timed.sched.events⟩
      host.handlerScript := [(5, []), (6, [.setIrqLine true, .schedule 0 1 110#64])] }
    let waiting := { timed with host.inbox := [.setFiqLine true], host.order := [7] }
    ok (step due) (fun t => t.turn == .drain 0 && t.host.lines.irq && t.clock 0 == some ⟨110#64, 110#64, [1, 0]⟩ &&
      t.host.handlerScript == [(5, [])]) = true ∧
    ok (step { waiting with turn := .drain 0 }) (fun t => t.turn == .host && t.host.inbox == [.setFiqLine true]) = true ∧
    ok (step { waiting with turn := .host }) (fun t => t.turn == .host && t.host.inbox == [] && t.host.lines.fiq) = true ∧
    ok (step { waiting with turn := .host, host.inbox := [] }) (fun t => t.turn == .advance 7 && t.host.order == []) = true ∧
    ok (step { timed with turn := .boot, host.boot := [.call (.cancel 0 1)] })
      (fun t => t.turn == .boot && t.clock 0 == some ⟨100#64, 120#64, [0]⟩) = true ∧
    ok (step { timed with turn := .boot, host.boot := [.runCpu], cpu.cycles := 110#64 }) (fun t => t.turn == .boot) = true := by
  decide

/-- StepRunsDecodedInstruction, DriverIteration: the turn after a cycle of cost 1 that stays below the target 110, and after one
that reaches it, in an iteration and before the first one. -/
theorem test_witness_next_turn :
    ∀ p ∈ [(108#64, false, Turn.run false), (108#64, true, .run true), (109#64, false, .advance 0), (109#64, true, .boot)],
      ok (step { timed with cpu.cycles := p.1, turn := .run p.2.1 }) (fun t => t.cpu.cycles == p.1 + 1 && t.turn == p.2.2) = true := by
  decide

/-- StampsNeverRollBack: the counter's invariant holds of the engine's run and where the driver is about to advance. -/
theorem test_witness_counter : CounterInv { timed with cpu.cycles := 110#64, turn := .advance 0 } :=
  ⟨fun _ h => by cases h; decide, fun _ _ h => by cases h; decide⟩

/-- DriverIteration: its three turns, the first with a list and with none. -/
theorem test_witness_driver :
    let due : State := { timed with turn := .drain 0, sched := ⟨[⟨110#64, 110#64, [1, 0]⟩], timed.sched.events⟩ }
    timed.fault = none ∧ configOk timed = true ∧ timed.config.integrityChecks = true ∧
    ok (step { timed with turn := .advance 0 }) (fun t => t.turn == .drain 0 && t.clock 0 == some ⟨110#64, 110#64, [1, 0]⟩) = true ∧
    ok (step { State.reset with turn := .advance 0 }) (fun t => t.clock 0 == some ⟨16#64, 32#64, []⟩) = true ∧
    whenOf due.sched.events 1 ≤ 110#64 ∧ due.host.handlerScript = [] ∧
    ok (step due) (fun t => t.turn == .drain 0 && t.clock 0 == some ⟨110#64, 120#64, [0]⟩) = true ∧
    (∀ h ∈ [1, 0].head?, 100#64 < whenOf timed.sched.events h) ∧ timed.host.inbox = [] ∧ timed.host.order = [] ∧
    ok (step { timed with turn := .drain 0 }) (fun t => t.turn == .run false) = true ∧
    ok (step { timed with turn := .drain 0, cpu.cycles := 110#64 }) (fun t => t.turn == .advance 0) = true := by decide

/-- LittleEndianMemory, at the top of the address space too. -/
theorem test_witness_memory :
    Memory.wf [(0x1000, 1#8), (0xFFFFFFFF, 2#8)] ∧
    (Memory.writeWord [] 0xFFFFFFFE#32 0x11223344#32) = [(0, 0x22#8), (1, 0x11#8), (0xFFFFFFFE, 0x44#8), (0xFFFFFFFF, 0x33#8)] := by
  decide

/-- ModesAreConfined: an instruction that completes in USR, and a register USR does not see. -/
theorem test_witness_modes :
    let s := vec 0xE1A00000#32 0x10#32 [] []
    s.mode = some .usr ∧ ok (exec (.msrImm ⟨.al, false, 0b1001#4, 0#4, 0xD3#8⟩) s) (status 0x10#32) = true ∧
    ∀ r : RegNum, phys .usr r ≠ some (.sp .svc) := by decide

/-- StepKeepsEngineInv, StepKeepsMemoryForm, StampsNeverRollBack: steps that answer a next state, of the engine and of the
driver. -/
theorem test_witness_invariants :
    ok (step st) (fun t => t.cpu.pc == 0x10C#32) = true ∧ st.mem.wf ∧
    ok (step { timed with turn := .advance 0 }) (fun t => t.turn == .drain 0) = true ∧
    (Instr.movImm ⟨.al, false, 0#4, 0#4, 0#4, 0#8⟩).wellFormed = true := by decide

end Sys2Proof.Tests
end

/-!
PROOFS. What a step can do to the engine and to the turn, said once; and from it the invariants of the engine (10_state.md R47,
R39, R42) and of the scheduler (R50), which every step keeps.
-/

namespace Sys2Proof.Machine

open Sys2Proof

/-! ## What a step can do -/

/-- A step is taken only by a session with no fault and parameters the model runs with (R54, 41_pipeline.md R234). -/
theorem step_next {s t : State} (h : step s = .next t) : s.fault = none ∧ configOk s = true ∧ turnStep s = .next t := by
  unfold step at h
  split at h
  · cases h
  · rename_i hf
    split at h
    · exact ⟨hf, by assumption, h⟩
    · cases h

/-- The engine's domain exists wherever a step is taken. -/
theorem engineDomain_clock {s : State} (h : configOk s = true) : ∃ c, s.clock s.config.engineDomain = some c := by
  obtain ⟨-, hd⟩ := Bool.and_eq_true_iff.1 h
  exact ⟨_, List.getElem?_eq_getElem (of_decide_eq_true hd)⟩

/-- What a step from `s` to `t` can be (41_pipeline.md R201, R217, R232; log 6). -/
inductive StepTaken (s t : State) : Prop
  /-- An iteration begins: nothing but the host's inputs and the turn has moved. -/
  | begins (d : Nat) (u : State) (cpu : u.cpu = s.cpu) (turn : t = enterIteration d u)
  /-- A fetch cycle, and then the next turn. -/
  | cycle (boot : Bool) (u : State) (turn : s.turn = .run boot) (ran : fetchCycle s = .next u) (next : t = afterCycle boot u)
  /-- The driver advances the stamp of the domain whose turn it is. -/
  | advances (d : Nat) (turn : s.turn = .advance d) (moved : driverAdvance d s = .next t)
  /-- Any other step of the driver or the host: the engine is as it was, and no advance follows. -/
  | waits (cpu : t.cpu = s.cpu) (turn : ∀ d, t.turn ≠ .advance d)

/-- The next iteration begins. -/
theorem StepTaken.ofStart (s : State) : StepTaken s (startIteration s) := by
  unfold startIteration
  split
  · exact .begins _ s rfl rfl
  · rename_i d ds _
    exact .begins d { s with host.order := ds } rfl rfl

/-- The drain leaves its loop. -/
theorem StepTaken.ofEnd (s : State) : StepTaken s (endIteration s) := by
  unfold endIteration
  split
  · exact .ofStart s
  · exact .waits rfl nofun

/-- The calls of a handler, a device or the host, in a turn that is no advance. -/
theorem StepTaken.ofKept {s u t : State} (h : HostKeeps u t) (hu : u.cpu = s.cpu) (hn : ∀ d, u.turn ≠ .advance d) :
    StepTaken s t :=
  .waits (h.cpu.trans hu) fun d => h.turn ▸ hn d

theorem driverDrain_taken {d : Nat} {s t : State} (hd : s.turn = .drain d) (h : driverDrain d s = .next t) :
    StepTaken s t := by
  have hn : ∀ k, s.turn ≠ .advance k := by simp [hd]
  unfold driverDrain at h
  split at h
  · cases h
  split at h
  · cases h; exact .ofEnd s
  split at h
  · cases h; exact .ofEnd s
  obtain ⟨⟨o, u⟩, hp, ht⟩ := andThen_eq_next.1 h
  have hk := popEarliest_keeps hp
  dsimp only at ht
  split at ht
  · unfold invokeHandler at ht
    split at ht
    · cases ht
    · exact .ofKept (hostCalls_keeps ht) hk.cpu (hk.turn ▸ hn)
  · cases ht; exact .ofKept hk rfl hn

/-- Every step is one of `StepTaken`. -/
theorem step_taken {s t : State} (h : step s = .next t) : StepTaken s t := by
  obtain ⟨-, -, h⟩ := step_next h
  unfold turnStep at h
  split at h
  case h_1 hb =>
    unfold bootTurn at h
    split at h
    · cases h; exact .ofStart s
    · exact .ofKept (hostCall_keeps h) rfl (by simp [hb])
    · cases h
      refine .waits rfl fun d => ?_
      dsimp only
      split <;> nofun
  case h_2 boot hr =>
    obtain ⟨u, hu, ht⟩ := andThen_eq_next.1 h
    cases ht
    exact .cycle boot u hr hu rfl
  case h_3 d hd => exact .advances d hd h
  case h_4 d hd => exact driverDrain_taken hd h
  case h_5 hh =>
    unfold hostTurn at h
    split at h
    · cases h; exact .ofStart s
    · exact .ofKept (hostCall_keeps h) rfl (by simp [hh])

/-- All the driver's advance does: it moves the stamp to the larger of target and stamp, and the drain follows (R232). -/
theorem driverAdvance_next {d : Nat} {s t : State} (h : driverAdvance d s = .next t) :
    ∃ c u, s.clock d = some c ∧ advanceStamp d (if c.stamp < c.target then c.target else c.stamp) s = .next u ∧
      t = { u with turn := .drain d } := by
  unfold driverAdvance at h
  split at h
  · cases h
  · rename_i c hc
    obtain ⟨u, hu, ht⟩ := andThen_eq_next.1 h
    cases ht
    exact ⟨c, u, hc, hu, rfl⟩

theorem driverAdvance_cpu {d : Nat} {s t : State} (h : driverAdvance d s = .next t) : t.cpu = s.cpu := by
  obtain ⟨c, u, -, hu, rfl⟩ := driverAdvance_next h
  exact (advanceStamp_keeps hu).cpu

/-! ## The engine's invariant -/

/-- The invariant sees the engine alone. -/
theorem EngineInv.congr {s t : State} (h : EngineInv s) (hc : t.cpu = s.cpu) : EngineInv t := by
  obtain ⟨hq, ha, hm, hd, hp⟩ := h
  rw [← hc] at hq ha hd hp
  exact ⟨hq, ha, by rwa [State.mode, hc], hd, hp⟩

/-- The word after an aligned one is aligned, across the top of the address space too. -/
theorem aligned_add_four {a : Word} (h : a.toNat % 4 = 0) : (a + 4).toNat % 4 = 0 := by
  rw [BitVec.toNat_add, show (4 : Word).toNat = 4 from rfl]
  omega

/-- The poll writes the two interrupt bits of the pending mask alone. -/
theorem EngineInv.pollLines {s : State} (h : EngineInv s) : EngineInv (pollLines s) where
  queue := by simpa using h.queue
  aligned := by simpa using h.aligned
  mode := by simpa [State.mode, pendingAfterPoll] using h.mode
  dabt := by simpa [pendingAfterPoll] using h.dabt
  pabt := by simpa [pendingAfterPoll] using h.pabt

/-- Exception entry empties the queue, goes to an aligned vector in a valid mode, and sets no pending bit. -/
theorem EngineInv.service {s : State} (h : EngineInv s) (c : ExcClass) : EngineInv (service c s) where
  queue := trivial
  aligned := by rw [service_pc]; cases c <;> rfl
  mode := by cases c <;> exact .inl rfl
  dabt := by cases c <;> simp [Pending.set, h.dabt]
  pabt := by cases c <;> simp [Pending.set, h.pabt]

theorem EngineInv.dispatched {s : State} (h : EngineInv s) : EngineInv (dispatched s) := by
  unfold Machine.dispatched takeException
  split
  · exact h.pollLines.service _
  · exact h.pollLines

/-- A word fetched from `pc` joins a queue that is not full, and `pc` passes it (10_state.md R47). -/
theorem Queue.agrees_push {q : Queue} {pc : Word} (h : q.agrees pc) (hl : q.len ≠ 2) (w : Word) :
    (q.push ⟨w, pc⟩).agrees (pc + 4) := by
  cases q with
  | empty => simp [Queue.push, Queue.agrees]
  | one q0 =>
    have h0 : q0.addr = pc - 4 := h
    refine ⟨?_, by simp⟩
    rw [h0]
    bv_omega
  | two q0 q1 => exact absurd rfl hl

/-- A fill step keeps the invariant. -/
theorem EngineInv.fillStep {s t : State} (h : EngineInv s) (hl : s.cpu.queue.len ≠ 2) (e : fillStep s = .next t) :
    EngineInv t := by
  obtain ⟨⟨w, u⟩, hu, ha⟩ := andThen_eq_next.1 e
  obtain ⟨-, rfl⟩ := account_next ha
  have hcpu : u.cpu = s.cpu := (busRead_keeps hu).cpu
  obtain ⟨hq, hpc, hm, hd, hp⟩ := h.congr hcpu
  refine ⟨?_, aligned_add_four hpc, hm, hd, hp⟩
  rw [← hcpu] at hl ⊢
  exact Queue.agrees_push hq hl w

/-- Shift, fetch and execute keep the invariant: the words left in the queue are those before an advanced `pc`, and a PC write
empties the queue. -/
theorem EngineInv.decodeExecute {s t : State} {q0 q1 : Fetched} (h : EngineInv s) (hq : s.cpu.queue = .two q0 q1)
    (e : decodeExecute q0 q1 s = .next t) : EngineInv t := by
  obtain ⟨⟨w, u⟩, hu, he⟩ := andThen_eq_next.1 e
  have hcpu : u.cpu = s.cpu := (busRead_keeps hu).cpu
  obtain ⟨hqu, hpc, hm, hd, hp⟩ := h.congr hcpu
  rw [hcpu, hq] at hqu
  have h1 : q1.addr = u.cpu.pc - 4 := by rw [hcpu]; exact hqu.2
  dsimp only at he
  split at he
  swap
  · cases he
  obtain ⟨hflow, hr, hda, hpa, hmo⟩ := exec_flow he
  have hmode : t.mode.isSome ∨ t.cpu.pending.reset = true := hm.imp hmo fun hres => hr.trans hres
  have hdabt : t.cpu.pending.dabt = false := hda.trans hd
  have hpabt : t.cpu.pending.pabt = false := hpa.trans hp
  obtain ⟨hpc', hq'⟩ | ⟨hal, hempty⟩ := hflow
  · rw [shifted_pc] at hpc'
    rw [shifted_queue] at hq'
    refine ⟨?_, by rw [hpc']; exact aligned_add_four hpc, hmode, hdabt, hpabt⟩
    rw [hq', hpc']
    refine ⟨?_, by simp⟩
    rw [h1]
    bv_omega
  · exact ⟨by rw [hempty]; trivial, hal, hmode, hdabt, hpabt⟩

/-- A fetch cycle keeps the engine's invariant. -/
theorem EngineInv.fetchCycle {s t : State} (h : EngineInv s) (e : fetchCycle s = .next t) : EngineInv t := by
  have hd := h.dispatched
  unfold Machine.fetchCycle at e
  split at e
  · rename_i hq; exact hd.decodeExecute hq e
  · rename_i hq; exact hd.fillStep (by simp [hq, Queue.len]) e
  · rename_i hq; exact hd.fillStep (by simp [hq, Queue.len]) e

/-- Settles O55: only a fetch cycle touches the engine, and its dispatch, its fill step and its execution each keep the
invariant. -/
theorem stepKeepsEngineInv : Obligations.StepKeepsEngineInv := by
  intro s t h e
  cases step_taken e with
  | begins d u cpu turn => exact h.congr (by rw [turn]; exact cpu)
  | cycle boot u turn ran next => exact (h.fetchCycle ran).congr (by rw [next]; rfl)
  | advances d turn moved => exact h.congr (driverAdvance_cpu moved)
  | waits cpu turn => exact h.congr cpu

/-! ## The scheduler invariants -/

/-- The second state meets the scheduler invariants if the first does. -/
def KeepsSchedulerInv (s t : State) : Prop := SchedulerInv s → SchedulerInv t

/-- Keeping the scheduler invariants is a relation of the world: every host call keeps them, and nothing else but the driver's
advance touches what they see. -/
theorem keepsSchedulerInv_worldRel : WorldRel KeepsSchedulerInv where
  quiet _ _ hs _ hc h := h.congr hs hc
  trans _ _ _ a b h := b (a h)
  call _ _ _ e h := hostCall_inv h e
  store _ _ _ _ h := h.congr rfl rfl

/-- Settles O56: `WorldRel` carries the invariants through every step, the driver's advance by `advanceStamp_inv`. -/
theorem stepKeepsSchedulerInv : Obligations.StepKeepsSchedulerInv := fun _ _ hs e =>
  keepsSchedulerInv_worldRel.step (fun _ _ _ _ ha h => advanceStamp_inv h ha) e hs

end Sys2Proof.Machine

/-!
PROOFS. Registers and modes (10_state.md R33, R58): the table of the banks, and the part of the engine an instruction of a mode
may write.
-/

namespace Sys2Proof.Machine

open Sys2Proof

/-! ## Banks -/

/-- Settles O48: the table of R33 is finite, seven modes by sixteen registers, and is checked entry by entry; that two registers
of a mode share no storage is `readReg_writeReg`. -/
theorem bankSelection : Obligations.BankSelection := by
  refine ⟨fun m r => ?_, readReg_writeReg, fun m r s => ⟨readReg_15 m s, rfl⟩⟩
  revert r
  cases m <;> decide

/-! ## What a mode confines -/

/-- What an instruction of mode `m` keeps (R58, 46_branch_system.md R393): every register not visible in `m`; in USR the control
bits and the SPSRs; and the counter never goes back (41_pipeline.md R213). -/
structure Confined (m : Mode) (s t : State) : Prop where
  regs : ∀ p, (∀ r, phys m r ≠ some p) → t.cpu.regs.get p = s.cpu.regs.get p
  control : m = .usr → ControlSame s t
  spsr : m = .usr → t.cpu.spsr = s.cpu.spsr
  cycles : s.cpu.cycles ≤ t.cpu.cycles

section
variable {m : Mode} {s t u : State} {i : Instr}

theorem Confined.trans (a : Confined m s t) (b : Confined m t u) : Confined m s u where
  regs p hp := (b.regs p hp).trans (a.regs p hp)
  control hm := by
    obtain ⟨ai, af, am⟩ := a.control hm
    obtain ⟨bi, bf, bm⟩ := b.control hm
    exact ⟨bi.trans ai, bf.trans af, bm.trans am⟩
  spsr hm := (b.spsr hm).trans (a.spsr hm)
  cycles := BitVec.le_trans a.cycles b.cycles

/-- An update of R15, the queue, the pending mask or the world is confined. -/
theorem Confined.ofSame (hr : t.cpu.regs = s.cpu.regs) (hc : t.cpu.cpsr = s.cpu.cpsr) (hs : t.cpu.spsr = s.cpu.spsr)
    (hn : t.cpu.cycles = s.cpu.cycles) : Confined m s t :=
  ⟨fun _ _ => by rw [hr], fun _ => by simp [ControlSame, hc], fun _ => hs, by rw [hn]; exact BitVec.le_refl _⟩

theorem Confined.ofCpu (h : t.cpu = s.cpu) : Confined m s t := .ofSame (by rw [h]) (by rw [h]) (by rw [h]) (by rw [h])

theorem Confined.advance (h : Confined m s u) : Confined m s (advance u) := h.trans (.ofSame rfl rfl rfl rfl)

theorem Confined.writeReg (h : Confined m s u) (r : RegNum) (v : Word) : Confined m s (writeReg m r v u) :=
  h.trans ⟨fun p hp => by rw [writeReg_get, if_neg (hp r)], fun _ => by simp [ControlSame], fun _ => by simp, by simp⟩

theorem Confined.setFlags (h : Confined m s u) (b : Bool) (o : AluOut) : Confined m s (setFlags b o u) :=
  h.trans ⟨fun _ _ => by simp, fun _ => by cases b <;> exact ⟨rfl, rfl, rfl⟩, fun _ => by simp, by simp⟩

theorem Confined.pcWrite {v : Word} (h : Confined m s u) (e : pcWrite i v u = .next t) : Confined m s t := by
  obtain ⟨-, rfl⟩ := pcWrite_next e
  exact h.trans (.ofSame rfl rfl rfl rfl)

/-- The charge only adds to the counter. -/
theorem Confined.account {n : Nat} {word : Option Word} {pc : Word} (h : Confined m s u)
    (e : account n word pc u = .next t) : Confined m s t := by
  obtain ⟨hn, rfl⟩ := account_next e
  refine h.trans ⟨fun _ _ => rfl, fun _ => .refl _, fun _ => rfl, ?_⟩
  rw [BitVec.le_def, cycles_add hn]
  exact Nat.le_add_right _ _

/-- `retire` adds the charge to its body; a failed condition leaves the advance. The mode is `m`, or an invalid one, in which no
body runs. -/
theorem Confined.retire {body : Mode → Result State} (hb : ∀ m u, body m = .next u → Confined m s u)
    (e : retire i s body = .next t) : Confined (s.mode.getD .usr) s t := by
  obtain ⟨-, ⟨-, m, u, hm, hu, ha⟩ | ⟨-, ha⟩⟩ := retire_next e
  · rw [hm]; exact (hb m u hu).account ha
  · exact Confined.account (Confined.ofCpu rfl).advance ha

theorem Confined.dpFinish {w b : Bool} {rd : RegNum} {o : AluOut} (e : dpFinish i w b rd m o s = .next t) :
    Confined m s t := by
  have h : Confined m s s := .ofCpu rfl
  unfold Machine.dpFinish at e
  split at e
  · exact h.pcWrite e
  · cases e
    refine (Confined.setFlags ?_ b o).advance
    split
    · exact h.writeReg rd o.res
    · exact h

theorem Confined.ldr {rd : RegNum} {a : Word} (e : ldrAccess i rd m a s = .next t) : Confined m s t := by
  obtain ⟨⟨v, u⟩, hu, ht⟩ := andThen_eq_next.1 e
  cases ht
  exact (Confined.ofCpu (loadWord_cpu hu)).writeReg rd v

theorem Confined.ldrb {rd : RegNum} {a : Word} (e : ldrbAccess i rd m a s = .next t) : Confined m s t := by
  obtain ⟨⟨v, u⟩, hu, ht⟩ := andThen_eq_next.1 e
  cases ht
  exact (Confined.ofCpu (busRead_keeps hu).cpu).writeReg rd v

theorem Confined.str {rd : RegNum} {a : Word} (e : strAccess i rd m a s = .next t) : Confined m s t :=
  .ofCpu (storeWord_cpu e)

theorem Confined.strb {rd : RegNum} {a : Word} (e : strbAccess i rd m a s = .next t) : Confined m s t :=
  .ofCpu (busWrite_keeps e).cpu

/-- A single load or store adds the writeback of Rn to its access. -/
theorem Confined.lsExecute {p up w : Bool} {rn : RegNum} {off : Word} {access : Word → State → Result State}
    (ha : ∀ a v, access a s = .next v → Confined m s v) (e : lsExecute p up w rn off m access s = .next t) :
    Confined m s t := by
  obtain ⟨v, hv, ht⟩ := andThen_eq_next.1 e
  cases ht
  have h := ha _ _ hv
  refine Confined.advance ?_
  split
  · exact h.writeReg _ _
  · exact h

theorem Confined.writeRegs (h : Confined m s u) (l : List (RegNum × Word)) : Confined m s (writeRegs m l u) := by
  induction l generalizing u with
  | nil => exact h
  | cons p rest ih => exact ih (h.writeReg p.1 p.2)

theorem Confined.writeback (h : Confined m s u) (f : BtFields) (base : Word) : Confined m s (btWriteback f base m u) := by
  unfold btWriteback
  split
  · exact h.writeReg _ _
  · exact h

theorem Confined.stm {f : BtFields} (e : execStm f s = .next t) : Confined (s.mode.getD .usr) s t := by
  refine Confined.retire (fun m u hu => ?_) e
  dsimp only at hu
  split at hu
  · cases hu
  · obtain ⟨v, hv, ht⟩ := andThen_eq_next.1 hu
    cases ht
    exact ((Confined.ofCpu (storeSlots_cpu hv)).writeback f _).advance

theorem Confined.ldm {f : BtFields} (e : execLdm f s = .next t) : Confined (s.mode.getD .usr) s t := by
  refine Confined.retire (fun m u hu => ?_) e
  dsimp only at hu
  split at hu
  · cases hu
  · obtain ⟨⟨l, v⟩, hv, ht⟩ := andThen_eq_next.1 hu
    have hw := ((Confined.ofCpu (m := m) (loadSlots_cpu hv)).writeRegs l).writeback f (readReg m f.rn s)
    simp only [ldmFinish] at ht
    split at ht
    · exact hw.pcWrite ht
    · cases ht
      exact hw.advance

/-- In USR an MSR to CPSR writes no control bit, and there is no SPSR to write (R393). -/
theorem Confined.msr {b : Bool} {k : BitVec 4} {v : Word} (e : msrWrite i b k v m s = .next t) : Confined m s t := by
  have le : s.cpu.cycles ≤ s.cpu.cycles := BitVec.le_refl _
  unfold msrWrite at e
  split at e
  · split at e
    · rename_i p hp
      cases e
      exact ⟨fun _ _ => rfl, fun _ => ⟨rfl, rfl, rfl⟩, fun hm => (by subst hm; cases hp), le⟩
    · cases e
  · dsimp only at e
    split at e
    · cases e
      refine ⟨fun _ _ => rfl, fun hm => ?_, fun _ => rfl, le⟩
      subst hm
      cases maskF k <;> simp [ControlSame, msrMerge, Psr.withFlagsOf]
    · cases e

/-- Every instruction is confined to its mode (in an invalid mode, in which it can only advance, to any). -/
theorem exec_confined (e : exec i s = .next t) : Confined (s.mode.getD .usr) s t := by
  have h (m : Mode) : Confined m s s := .ofCpu rfl
  cases i with
  | andRsh f | eorRsh f | subRsh f | rsbRsh f | addRsh f | tstRsh f | cmpRsh f | cmnRsh f | orrRsh f | movRsh f
  | bicRsh f | mvnRsh f =>
    refine Confined.retire (fun m u hu => ?_) e
    split at hu
    · cases hu
    · exact Confined.dpFinish hu
  | andSh f | eorSh f | subSh f | rsbSh f | addSh f | tstSh f | cmpSh f | cmnSh f | orrSh f | movSh f | bicSh f
  | mvnSh f => exact Confined.retire (fun m u hu => Confined.dpFinish hu) e
  | andImm f | eorImm f | subImm f | rsbImm f | addImm f | tstImm f | cmpImm f | cmnImm f | orrImm f | movImm f
  | bicImm f | mvnImm f => exact Confined.retire (fun m u hu => Confined.dpFinish hu) e
  | adcRsh f | sbcRsh f | rscRsh f | teqRsh f | adcSh f | sbcSh f | rscSh f | teqSh f | adcImm f | sbcImm f | rscImm f
  | teqImm f => cases e
  | mul f | mla f =>
    refine Confined.retire (fun m u hu => ?_) e
    cases hu
    exact (((h m).writeReg _ _).setFlags _ _).advance
  | strImm f | strReg f => exact Confined.retire (fun m u hu => Confined.lsExecute (fun a v hv => Confined.str hv) hu) e
  | ldrImm f | ldrReg f => exact Confined.retire (fun m u hu => Confined.lsExecute (fun a v hv => Confined.ldr hv) hu) e
  | strbImm f | strbReg f =>
    exact Confined.retire (fun m u hu => Confined.lsExecute (fun a v hv => Confined.strb hv) hu) e
  | ldrbImm f | ldrbReg f =>
    exact Confined.retire (fun m u hu => Confined.lsExecute (fun a v hv => Confined.ldrb hv) hu) e
  | stm f => exact Confined.stm e
  | ldm f => exact Confined.ldm e
  | b f => exact Confined.retire (i := .b f) (fun m u hu => (h m).pcWrite hu) e
  | bl f => exact Confined.retire (i := .bl f) (fun m u hu => ((h m).writeReg _ _).pcWrite hu) e
  | mrs f =>
    refine Confined.retire (fun m u hu => ?_) e
    split at hu
    · split at hu
      · cases hu; exact ((h m).writeReg _ _).advance
      · cases hu
    · cases hu; exact ((h m).writeReg _ _).advance
  | msrReg f => exact Confined.retire (i := .msrReg f) (fun m u hu => Confined.msr hu) e
  | msrImm f => exact Confined.retire (i := .msrImm f) (fun m u hu => Confined.msr hu) e
  | swi f =>
    refine Confined.retire (i := .swi f) (fun m u hu => ?_) e
    cases hu
    have hp : Confined m s (s.setPending .swi true) := .ofSame rfl rfl rfl rfl
    exact hp.advance

end

/-- Settles O54: each ending of an instruction is confined to its mode, and the charge touches the counter alone. -/
theorem modesAreConfined : Obligations.ModesAreConfined := by
  intro i m s t hm e
  have h := exec_confined e
  rw [hm] at h
  exact ⟨h.regs, fun hu => ⟨h.control hu, h.spsr hu⟩⟩

end Sys2Proof.Machine

/-!
PROOFS. Stamps and the counter (10_state.md R48, R53; 41_pipeline.md R218, R233): how far each step moves them.
-/

namespace Sys2Proof.Machine

open Sys2Proof

/-! ## Stamps -/

/-- Every domain of `s` is one of `t`, its stamp no smaller, and the same unless the turn is the driver's advance of it. -/
def StampsOnward (turn : Turn) (s t : State) : Prop :=
  ∀ d c, s.clock d = some c →
    ∃ k, t.clock d = some k ∧ c.stamp ≤ k.stamp ∧ (turn ≠ .advance d → k.stamp = c.stamp)

theorem SameStamps.onward {s t : State} (h : SameStamps s t) (turn : Turn) : StampsOnward turn s t := fun d c hc => by
  obtain ⟨k, hk, e⟩ := h d c hc
  exact ⟨k, hk, by rw [e]; exact BitVec.le_refl _, fun _ => e⟩

/-- No agent but the driver moves a stamp, so `StampsOnward` is a relation of the world. -/
theorem stampsOnward_worldRel (turn : Turn) : WorldRel (StampsOnward turn) where
  quiet s t hs _ _ := SameStamps.onward (fun d c hc => ⟨c, by rwa [State.clock, hs], rfl⟩) turn
  trans s t u a b d c hc := by
    obtain ⟨k, hk, hle, he⟩ := a d c hc
    obtain ⟨l, hl, hle', he'⟩ := b d k hk
    exact ⟨l, hl, BitVec.le_trans hle hle', fun hn => (he' hn).trans (he hn)⟩
  call _ _ _ h := (hostCall_stamps h).onward turn
  store s _ _ _ := SameStamps.onward (fun _ c hc => ⟨c, hc, rfl⟩) turn

/-- The stamp the advance of domain `d` leaves there is the one it was given. -/
theorem advanceStamp_stamp {d : Nat} {w : Stamp} {s t : State} (h : advanceStamp d w s = .next t) :
    ∃ k, t.clock d = some k ∧ k.stamp = w := by
  obtain ⟨c, hc, -, -, hr⟩ := advanceStamp_next h
  exact recomputeTarget_stamps hr d _ (clock_setClock_self hc _)

/-- The driver's advance of domain `d` moves `d`'s stamp alone, and forward (40_scheduler.md R158). -/
theorem advanceStamp_onward {d : Nat} {w : Stamp} {s t : State} (h : advanceStamp d w s = .next t) :
    StampsOnward (.advance d) s t := by
  obtain ⟨c, hc, hw, -, hr⟩ := advanceStamp_next h
  refine (stampsOnward_worldRel _).trans _ _ _ (fun d' c' hc' => ?_) ((recomputeTarget_stamps hr).onward _)
  by_cases e : d' = d
  · subst e
    rw [hc] at hc'
    cases hc'
    exact ⟨_, clock_setClock_self hc _, hw, fun hn => absurd rfl hn⟩
  · exact ⟨c', by rw [clock_setClock_ne e]; exact hc', BitVec.le_refl _, fun _ => rfl⟩

theorem step_stamps {s t : State} (e : step s = .next t) : StampsOnward s.turn s t :=
  (stampsOnward_worldRel s.turn).step (fun d _ _ hd h => by rw [hd]; exact advanceStamp_onward h) e

theorem sameConfig_worldRel : WorldRel fun s t => t.config = s.config where
  quiet _ _ _ _ h := h
  trans _ _ _ a b := b.trans a
  call _ _ _ h := (hostCall_keeps h).config
  store _ _ _ _ := rfl

/-- No step changes the parameters. -/
theorem step_config {s t : State} (e : step s = .next t) : t.config = s.config :=
  sameConfig_worldRel.step (fun _ _ _ _ h => (advanceStamp_keeps h).config) e

/-! ## The counter -/

theorem account_cycles_le {n : Nat} {word : Option Word} {pc : Word} {s t : State} (e : account n word pc s = .next t) :
    s.cpu.cycles ≤ t.cpu.cycles :=
  (Confined.account (m := .usr) (.ofCpu rfl) e).cycles

theorem dispatched_cycles (s : State) : (dispatched s).cpu.cycles = s.cpu.cycles := by
  unfold dispatched takeException
  split <;> simp

theorem fillStep_cycles_le {s t : State} (e : fillStep s = .next t) : s.cpu.cycles ≤ t.cpu.cycles := by
  obtain ⟨⟨w, u⟩, hu, ha⟩ := andThen_eq_next.1 e
  have hle := account_cycles_le ha
  dsimp only at hle
  rwa [(busRead_keeps hu).cpu] at hle

theorem decodeExecute_cycles_le {q0 q1 : Fetched} {s t : State} (e : decodeExecute q0 q1 s = .next t) :
    s.cpu.cycles ≤ t.cpu.cycles := by
  obtain ⟨⟨w, u⟩, hu, he⟩ := andThen_eq_next.1 e
  dsimp only at he
  split at he
  · have hle := (exec_confined he).cycles
    rwa [shifted_cycles, (busRead_keeps hu).cpu] at hle
  · cases he

/-- A fetch cycle charges and never refunds (41_pipeline.md R213). -/
theorem fetchCycle_cycles_le {s t : State} (e : fetchCycle s = .next t) : s.cpu.cycles ≤ t.cpu.cycles := by
  rw [← dispatched_cycles s]
  unfold fetchCycle at e
  split at e
  · exact decodeExecute_cycles_le e
  · exact fillStep_cycles_le e
  · exact fillStep_cycles_le e

theorem step_cycles_le {s t : State} (e : step s = .next t) : s.cpu.cycles ≤ t.cpu.cycles := by
  have same (h : t.cpu = s.cpu) : s.cpu.cycles ≤ t.cpu.cycles := by rw [h]; exact BitVec.le_refl _
  cases step_taken e with
  | begins d u cpu turn => exact same (by rw [turn]; exact cpu)
  | cycle boot u turn ran next => rw [next]; exact fetchCycle_cycles_le (t := u) ran
  | advances d turn moved => exact same (driverAdvance_cpu moved)
  | waits cpu turn => exact same cpu

/-! ## The counter beside the stamp -/

/-- Where the engine may not run another cycle, its counter has reached its domain's target (R217). -/
theorem target_le_of_not_belowTarget {s : State} {c : Clock} (h : ¬belowTarget s = true)
    (hc : s.clock s.config.engineDomain = some c) : c.target ≤ s.cpu.cycles := by
  simpa [belowTarget, hc] using h

/-- A step that leaves the driver about to advance the engine's domain has found the counter at or past the target. -/
theorem step_target_le {s t : State} (e : step s = .next t) (ht : t.turn = .advance t.config.engineDomain) {c : Clock}
    (hc : t.clock t.config.engineDomain = some c) : c.target ≤ t.cpu.cycles := by
  cases step_taken e with
  | begins d u cpu turn =>
    subst turn
    refine target_le_of_not_belowTarget (fun hb => ?_) hc
    have hb : belowTarget u = true := hb
    simp only [enterIteration, hb, and_true] at ht
    split at ht
    · cases ht
    · rename_i hd
      exact hd (Turn.advance.inj ht)
  | cycle boot u turn ran next =>
    subst next
    refine target_le_of_not_belowTarget (fun hb => ?_) hc
    have hb : belowTarget u = true := hb
    simp [afterCycle, hb] at ht
  | advances d turn moved =>
    obtain ⟨c, u, -, -, rfl⟩ := driverAdvance_next moved
    cases ht
  | waits cpu turn => exact absurd ht (turn _)

/-- The driver's advance of the engine's domain moves the stamp to a value the counter has reached (R232, R233). -/
theorem driverAdvance_stamp_le {s t : State} (h : CounterInv s) (hs : s.turn = .advance s.config.engineDomain)
    (e : driverAdvance s.config.engineDomain s = .next t) {k : Clock} (hk : t.clock s.config.engineDomain = some k) :
    k.stamp ≤ s.cpu.cycles := by
  obtain ⟨c, u, hc, hu, rfl⟩ := driverAdvance_next e
  obtain ⟨k', hk', hw⟩ := advanceStamp_stamp hu
  have hkk : k = k' := Option.some.inj (hk.symm.trans hk')
  rw [hkk, hw]
  split
  · exact h.target hs c hc
  · exact h.stamp c hc

/-- The counter's invariant is kept: the stamp of the engine's domain moves by the driver's advance alone, and the driver comes
to that advance with the counter at or past the target. -/
theorem CounterInv.step {s t : State} (h : CounterInv s) (e : step s = .next t) : CounterInv t where
  target ht _ hc := step_target_le e ht hc
  stamp k hk := by
    rw [step_config e] at hk
    obtain ⟨-, hok, hstep⟩ := step_next e
    obtain ⟨c, hc⟩ := engineDomain_clock hok
    refine BitVec.le_trans ?_ (step_cycles_le e)
    by_cases hs : s.turn = .advance s.config.engineDomain
    · rw [turnStep, hs] at hstep
      exact driverAdvance_stamp_le h hs hstep hk
    · obtain ⟨k', hk', -, hsame⟩ := step_stamps e _ c hc
      have hkk : k = k' := Option.some.inj (hk.symm.trans hk')
      rw [hkk, hsame hs]
      exact h.stamp c hc

/-- Settles O58: the stamps by `WorldRel`, the counter by what a fetch cycle charges, the invariant from both. -/
theorem stampsNeverRollBack : Obligations.StampsNeverRollBack := fun _ _ e =>
  ⟨step_stamps e, step_cycles_le e, fun h => h.step e⟩

end Sys2Proof.Machine

/-!
PROOFS. Power-on (10_state.md R56): what every piece of state holds, and that the invariants of the engine, the scheduler,
memory and the counter begin to hold there.
-/

namespace Sys2Proof.Machine

open Sys2Proof

section
variable {config : Config}

theorem regFile_zero_get (p : PhysReg) : RegFile.zero.get p = 0 := by
  cases p with
  | low i | midUsr i | midFiq i => simp [RegFile.zero, RegFile.get]
  | sp b | lr b => cases b <;> rfl

theorem psr_zero_toWord : Psr.zero.toWord = 0 := by decide

theorem spsrs_zero_get {m : Mode} {p : Psr} (h : Spsrs.zero.get m = some p) : p = Psr.zero := by
  cases m <;> cases h <;> rfl

theorem lookaheadFits_of_lt (h : lookahead config < 2 ^ 64) : lookaheadFits config = true :=
  decide_eq_true (Nat.le_sub_one_of_lt h)

/-- Every domain at power-on is the one of R56. -/
theorem powerOn_clock {d : Nat} {c : Clock} (h : (State.powerOn config).clock d = some c) : c = Clock.powerOn config :=
  List.eq_of_mem_replicate (List.mem_of_getElem? h)

/-- Every slot at power-on is the one of R56. -/
theorem powerOn_event {e : Nat} {x : EventSlot} (h : (State.powerOn config).event e = some x) : x = EventSlot.powerOn :=
  List.eq_of_mem_replicate (List.mem_of_getElem? h)

/-- Where LOOKAHEAD is a stamp it is the target of every domain (40_scheduler.md R151). -/
theorem clock_powerOn_target (h : lookahead config < 2 ^ 64) : (Clock.powerOn config).target.toNat = lookahead config := by
  rw [Clock.powerOn, if_pos (lookaheadFits_of_lt h), BitVec.toNat_ofNat]
  exact Nat.mod_eq_of_lt h

/-- The reset exception is pending, so that the mode need not be valid yet. -/
theorem powerOn_engineInv (config : Config) : EngineInv (State.powerOn config) := ⟨trivial, rfl, .inr rfl, rfl, rfl⟩

/-- No event is linked and every list is empty, so that the targets alone have something to meet. -/
theorem powerOn_schedulerInv (h : lookahead config < 2 ^ 64) : SchedulerInv (State.powerOn config) where
  clocks d c hc := by
    rw [powerOn_clock hc]
    refine ⟨fun _ => by simp [Clock.powerOn], .nil, ?_, .nil, by simp [Clock.powerOn]⟩
    show (Clock.powerOn config).target.toNat = 0 + lookahead config
    rw [clock_powerOn_target h, Nat.zero_add]
  listed e x d he hx := by
    rw [powerOn_event he] at hx
    cases hx

/-- Counter and stamps are 0, and the first turn is the host's. -/
theorem powerOn_counterInv (config : Config) : CounterInv (State.powerOn config) where
  stamp c hc := by rw [powerOn_clock hc]; exact BitVec.le_refl _
  target := nofun

end

/-- Settles O49: every domain and slot is a copy of the one R56 gives, and the rest is read off `State.powerOn`. -/
theorem powerOnState : Obligations.PowerOnState := by
  intro config h
  have hfault : (State.powerOn config).fault = none := by
    simp [State.powerOn, constructionFault, lookaheadFits_of_lt h]
  refine ⟨regFile_zero_get, rfl, psr_zero_toWord, fun m p hp => ?_, rfl, rfl, rfl, hfault, rfl, List.length_replicate,
    List.length_replicate, fun d c hc => ?_, fun e x hx => ?_⟩
  · rw [spsrs_zero_get hp]; exact psr_zero_toWord
  · rw [powerOn_clock hc]; exact ⟨rfl, rfl, clock_powerOn_target h⟩
  · rw [powerOn_event hx]; rfl

/-- Settles O59: the four invariants at power-on, with the default parameters. -/
theorem invariantsAtReset : Obligations.InvariantsAtReset :=
  ⟨powerOn_engineInv _, powerOn_schedulerInv (by decide), Memory.wf_nil, powerOn_counterInv _⟩

end Sys2Proof.Machine

/-!
PROOFS. Memory (20_memory.md R80, R83 to R85): every step keeps the canonical form, and a word is its four bytes in little-endian
order.
-/

namespace Sys2Proof.Machine

open Sys2Proof

/-! ## The canonical form -/

/-- Recomputing a target writes a Clock, and no memory. -/
theorem recomputeTarget_mem {d : Nat} {s t : State} (h : recomputeTarget d s = .next t) : t.mem = s.mem := by
  obtain ⟨c, w, -, -, rfl⟩ := recomputeTarget_next h
  rfl

/-- A host call keeps the canonical form: a bus write to plain memory is a store, and every other call leaves memory alone. -/
theorem hostCall_mem_wf {c : HostCall} {s t : State} (hs : s.mem.wf) (h : hostCall c s = .next t) : t.mem.wf := by
  cases c with
  | schedule d e w =>
    obtain ⟨c, x, -, -, -, -, hr⟩ := schedule_next h
    simpa [recomputeTarget_mem hr] using hs
  | cancel d e =>
    obtain ⟨c, x, -, -, -, -, hr⟩ := cancel_next h
    simpa [recomputeTarget_mem hr] using hs
  | popEarliest d =>
    obtain ⟨⟨o, u⟩, hp, ht⟩ := andThen_eq_next.1 h
    cases ht
    obtain ⟨c, -, ⟨-, -, rfl⟩ | ⟨e, rest, x, -, -, -, -, hr⟩⟩ := popEarliest_next hp
    · exact hs
    · simpa [recomputeTarget_mem hr] using hs
  | peekEarliest d | targetStamp d =>
    simp only [hostCall] at h
    split at h
    · cases h; exact hs
    · cases h
  | initEvent e k =>
    obtain ⟨x, -, -, rfl⟩ := initEvent_next h
    exact hs
  | setIrqLine l | setFiqLine l | busRead a w => cases h; exact hs
  | busWrite a w v =>
    simp only [hostCall] at h
    split at h
    · cases h; exact Memory.wf_store hs w a v
    · cases h; exact hs

/-- The second state's memory is canonical if the first's is. -/
def KeepsMemoryForm (s t : State) : Prop := s.mem.wf → t.mem.wf

/-- Keeping the canonical form is a relation of the world: only host calls and plain stores touch memory. -/
theorem keepsMemoryForm_worldRel : WorldRel KeepsMemoryForm where
  quiet _ _ _ hm _ h := by rw [hm]; exact h
  trans _ _ _ a b h := b (a h)
  call _ _ _ e h := hostCall_mem_wf h e
  store _ width a v h := Memory.wf_store h width a v

/-- The driver's advance writes a Clock, and no memory. -/
theorem advanceStamp_mem {d : Nat} {w : Stamp} {s t : State} (h : advanceStamp d w s = .next t) : t.mem = s.mem := by
  obtain ⟨c, -, -, -, hr⟩ := advanceStamp_next h
  rw [recomputeTarget_mem hr, setClock_mem]

/-- Settles O57: `WorldRel` carries the canonical form through every step; the driver's advance leaves memory alone. -/
theorem stepKeepsMemoryForm : Obligations.StepKeepsMemoryForm := fun _ _ hs e =>
  keepsMemoryForm_worldRel.step (fun _ _ _ _ ha h => by rw [advanceStamp_mem ha]; exact h) e hs

/-! ## Byte order -/

/-- Bytes 0 and 3 of a word around another byte 1: the word with its bits 15:8 replaced. -/
theorem wordOfBytes_replace_one (v : Word) (b : Byte) :
    wordOfBytes (byteOfWord v 0) b (byteOfWord v 2) (byteOfWord v 3) = v.extractLsb' 16 16 ++ b ++ v.extractLsb' 0 8 := by
  have high : byteOfWord v 3 ++ byteOfWord v 2 = v.extractLsb' 16 16 :=
    BitVec.extractLsb'_append_extractLsb'_eq_extractLsb' rfl
  rw [← high]
  rfl

/-- Settles O47: the bytes of a word write are `Memory.readByte_writeWord`, the rest of memory is
`Memory.readByte_store_other`, and a byte written at `a + 1` is read back in the second place of the word at `a`. -/
theorem littleEndianMemory : Obligations.LittleEndianMemory := by
  intro m a v hm
  obtain ⟨h0, h1, h2, h3⟩ := Memory.readByte_writeWord hm a v
  have byte : ∀ c : Word, ∀ b : Byte, ((m.writeWord a v).writeByte (a + 1) b).readByte c =
      if c = a + 1 then b else (m.writeWord a v).readByte c := fun c b =>
    Memory.readByte_writeByte (Memory.wf_writeWord hm a v) _ _ _
  refine ⟨fun k hk => ?_, Memory.readWord_writeWord hm a v, fun b hb => Memory.readByte_store_other m .word a v hb,
    fun b => ?_⟩
  · interval_cases k
    · rw [BitVec.add_zero]; exact h0
    · exact h1
    · exact h2
    · exact h3
  · rw [Memory.readWord, byte, byte, byte, byte, if_neg (by simp), if_pos rfl, if_neg (by simp), if_neg (by simp),
      h0, h2, h3, wordOfBytes_replace_one]

end Sys2Proof.Machine

/-!
PROOFS. Accesses to a device (20_memory.md R83; log 3): `DeviceReads`, `DeviceWrites` and `DeviceFails` are what the bus does.
-/

namespace Sys2Proof.Machine

open Sys2Proof

section
variable {width : Width} {a : Word} {s u : State}

theorem busRead_of_deviceReads {v : Word} (h : busKind s.host.regions a width.bytes = .device)
    (hr : DeviceReads width s v u) (word : Option Word) (pc : Word) : busRead width a word pc s = .next (v, u) := by
  obtain ⟨hfree, hscript⟩ := busRead_device h word pc
  obtain ⟨he, rfl, rfl⟩ | ⟨r, rs, he, hok, rfl, hc⟩ := hr
  · exact hfree he
  · rw [hscript r rs he, hc, andThen_next, if_pos hok]

theorem busRead_of_deviceFails (h : busKind s.host.regions a width.bytes = .device) (hr : DeviceFails s u)
    (word : Option Word) (pc : Word) : busRead width a word pc s = raise (.bus a width.bytes word pc) u := by
  obtain ⟨r, rs, he, hok, hc⟩ := hr
  rw [(busRead_device h word pc).2 r rs he, hc, andThen_next, if_neg (by simp [hok])]

theorem busWrite_of_deviceWrites (h : busKind s.host.regions a width.bytes = .device) (hr : DeviceWrites s u) (v : Word)
    (word : Option Word) (pc : Word) : busWrite width a v word pc s = .next u := by
  obtain ⟨hfree, hscript⟩ := busWrite_device h v word pc
  obtain ⟨he, rfl⟩ | ⟨r, rs, he, hok, hc⟩ := hr
  · exact hfree he
  · rw [hscript r rs he, hc, andThen_next, if_pos hok]

theorem busWrite_of_deviceFails (h : busKind s.host.regions a width.bytes = .device) (hr : DeviceFails s u) (v : Word)
    (word : Option Word) (pc : Word) : busWrite width a v word pc s = raise (.bus a width.bytes word pc) u := by
  obtain ⟨r, rs, he, hok, hc⟩ := hr
  rw [(busWrite_device h v word pc).2 r rs he, hc, andThen_next, if_neg (by simp [hok])]

end

end Sys2Proof.Machine

/-!
PROOFS. Single loads and stores (43_load_store.md R300 to R308, 20_memory.md R87, R88), all four accesses and both formats at
once: what the access gives to the bus, and what the instruction leaves when the access completes or stops.
-/

namespace Sys2Proof.Machine

open Sys2Proof

/-! ## What an instruction's end leaves alone -/

/-- `t` is `s` but for R15, the queue and the counter, which the end of an instruction writes (41_pipeline.md R212, R213). -/
structure FlowOnly (s t : State) : Prop where
  regs : t.cpu.regs = s.cpu.regs
  cpsr : t.cpu.cpsr = s.cpu.cpsr
  spsr : t.cpu.spsr = s.cpu.spsr
  pending : t.cpu.pending = s.cpu.pending
  world : t.world = s.world
  fault : t.fault = s.fault
  turn : t.turn = s.turn
  config : t.config = s.config

theorem FlowOnly.advanced (i : Instr) (s u : State) : FlowOnly u (charge i s (advance u)) :=
  ⟨rfl, rfl, rfl, rfl, rfl, rfl, rfl, rfl⟩

theorem FlowOnly.jumped (i : Instr) (s u : State) (v : Word) : FlowOnly u (charge i s (flush { u with cpu.pc := v })) :=
  ⟨rfl, rfl, rfl, rfl, rfl, rfl, rfl, rfl⟩

/-- A register other than R15 reads as before. -/
theorem FlowOnly.readReg {s t : State} (h : FlowOnly s t) (m : Mode) {r : RegNum} (hr : r ≠ 15#4) :
    readReg m r t = readReg m r s := by
  obtain ⟨p, hp⟩ := phys_isSome (m := m) hr
  rw [readReg_some hp, readReg_some hp, h.regs]

section
variable {l : List PhysReg} {s t u v : State}

theorem EngineKeeps.ofCpu (h : t.cpu = s.cpu) : EngineKeeps [] s t :=
  ⟨fun _ _ => by rw [h], by rw [h], by rw [h], by rw [h]⟩

theorem EngineKeeps.flow (h : EngineKeeps l s u) (hf : FlowOnly u t) : EngineKeeps l s t :=
  ⟨fun p hp => by rw [hf.regs, h.regs p hp], hf.cpsr.trans h.cpsr, hf.spsr.trans h.spsr, hf.pending.trans h.pending⟩

theorem EngineKeeps.writeReg (h : EngineKeeps l s u) (m : Mode) (r : RegNum) (x : Word) :
    EngineKeeps (l ++ (phys m r).toList) s (writeReg m r x u) :=
  ⟨h.regs.trans (writeReg_regsBut m r x u), by simp [h.cpsr], by simp [h.spsr], by simp [h.pending]⟩

/-- A writeback under its frame. -/
theorem EngineKeeps.writeback (h : EngineKeeps l s u) (b : Bool) (m : Mode) (r : RegNum) (x : Word) :
    EngineKeeps (l ++ if b then (phys m r).toList else []) s (if b then Machine.writeReg m r x u else u) := by
  cases b
  · simpa using h
  · exact h.writeReg m r x

theorem LeftBy.refl (u : State) : LeftBy u u := ⟨rfl, rfl, rfl, rfl⟩

theorem LeftBy.flow (h : LeftBy u v) (hf : FlowOnly v t) : LeftBy u t :=
  ⟨hf.world.trans h.world, hf.fault.trans h.fault, hf.turn.trans h.turn, hf.config.trans h.config⟩

theorem LeftBy.writeReg (h : LeftBy u v) (m : Mode) (r : RegNum) (x : Word) : LeftBy u (writeReg m r x v) :=
  ⟨by simp [h.world], by simp [h.fault], by simp [h.turn], by simp [h.config]⟩

theorem LeftBy.writeback (h : LeftBy u v) (b : Bool) (m : Mode) (r : RegNum) (x : Word) :
    LeftBy u (if b then Machine.writeReg m r x v else v) := by
  cases b
  · exact h
  · exact h.writeReg m r x

end

/-! ## The access -/

/-- The fields of a single load or store, in either format; `off` is the offset its format gives. -/
structure SingleAccess where
  byte : Bool
  isLoad : Bool
  p : Bool
  u : Bool
  w : Bool
  rn : RegNum
  rd : RegNum
  off : Word

namespace SingleAccess

/-- The address accessed (R300). -/
def addr (x : SingleAccess) (m : Mode) (s : State) : Word := accessAddr x.p x.u (readReg m x.rn s) x.off

/-- The access itself (R304 to R307). -/
def run (x : SingleAccess) (i : Instr) (m : Mode) : Word → State → Result State :=
  match x.byte, x.isLoad with
  | false, false => strAccess i x.rd m
  | false, true => ldrAccess i x.rd m
  | true, false => strbAccess i x.rd m
  | true, true => ldrbAccess i x.rd m

def width (x : SingleAccess) : Width := if x.byte then .byte else .word

/-- The access is not the one `UNALIGNED_WORD = FAULT` stops (20_memory.md R88). -/
def allowed (x : SingleAccess) (m : Mode) (s : State) : Bool :=
  x.byte || wordAllowed s.config.unalignedWord (x.addr m s)

/-- The address given to the bus (R88). -/
def bus (x : SingleAccess) (m : Mode) (s : State) : Word :=
  if x.byte then x.addr m s else busAddr s.config.unalignedWord (x.addr m s)

/-- The state in which the bus is accessed: the log record of an unaligned word has been emitted (R87). -/
def logged (x : SingleAccess) (i : Instr) (m : Mode) (s : State) : State :=
  if x.byte then s else { s with log := s.log ++ recordsOf i (!x.isLoad) (x.addr m s) s }

/-- The value a load puts in Rd when the bus answers `v` (R304, R306). -/
def value (x : SingleAccess) (m : Mode) (s : State) (v : Word) : Word :=
  if x.byte then v else loadedValue s.config.unalignedWord (x.addr m s) v

/-- The state after the writeback that follows an access which has left `v` (R300). -/
def writeback (x : SingleAccess) (m : Mode) (s v : State) : State :=
  if !x.p || x.w then writeReg m x.rn (offsetAddr x.u (readReg m x.rn s) x.off) v else v

end SingleAccess

section
variable {x : SingleAccess} {i : Instr} {m : Mode} {s u v : State}

@[simp] theorem SingleAccess.logged_cpu : (x.logged i m s).cpu = s.cpu := by unfold logged; split <;> rfl

@[simp] theorem SingleAccess.logged_host : (x.logged i m s).host = s.host := by unfold logged; split <;> rfl

@[simp] theorem SingleAccess.logged_config : (x.logged i m s).config = s.config := by unfold logged; split <;> rfl

@[simp] theorem SingleAccess.logged_instrAddr : (x.logged i m s).instrAddr = s.instrAddr := by
  rw [State.instrAddr, State.instrAddr, logged_cpu]

@[simp] theorem andThen_next_right {α : Type} (o : Result α) : (andThen o fun a => .next a) = o := by
  cases o <;> rfl

theorem andThen_assoc {α β γ : Type} (o : Result α) (f : α → Result β) (g : β → Result γ) :
    andThen (andThen o f) g = andThen o fun a => andThen (f a) g := by
  cases o <;> rfl

/-- `load_word` where it does not fault: one read of the bus, after the log record, its answer rotated as the policy says. -/
theorem loadWord_allowed {a : Word} (h : wordAllowed s.config.unalignedWord a = true) :
    loadWord i a s =
      andThen (load i .word (busAddr s.config.unalignedWord a) { s with log := s.log ++ recordsOf i false a s })
        fun p => .next (loadedValue s.config.unalignedWord a p.1, p.2) := by
  unfold loadWord
  cases ha : isAligned a
  · cases hp : s.config.unalignedWord
    case fault => simp [wordAllowed, ha, hp] at h
    case busBytes => simp [busAddr, loadedValue, recordsOf, ha]; rfl
    case rotate => simp [busAddr, loadedValue, recordsOf, ha]; rfl
  · simp [busAddr, loadedValue, recordsOf, ha]

/-- `store_word` where it does not fault: one write of the bus, after the log record. -/
theorem storeWord_allowed {a : Word} (h : wordAllowed s.config.unalignedWord a = true) (w : Word) :
    storeWord i a w s =
      store i .word (busAddr s.config.unalignedWord a) w { s with log := s.log ++ recordsOf i true a s } := by
  unfold storeWord
  cases ha : isAligned a
  · cases hp : s.config.unalignedWord
    case fault => simp [wordAllowed, ha, hp] at h
    case busBytes | rotate => simp [busAddr, recordsOf, ha]; rfl
  · simp [busAddr, recordsOf, ha]

/-- A load that is allowed: the bus read, then Rd. -/
theorem SingleAccess.run_load (hl : x.isLoad = true) (h : x.allowed m s = true) :
    x.run i m (x.addr m s) s = andThen (load i x.width (x.bus m s) (x.logged i m s)) fun p =>
      .next (writeReg m x.rd (x.value m s p.1) p.2) := by
  unfold run width bus logged value
  unfold allowed at h
  cases hb : x.byte
  · simp only [hb, Bool.false_or] at h
    simp only [hl]
    unfold ldrAccess
    rw [loadWord_allowed h, andThen_assoc]
    rfl
  · simp only [hl]
    rfl

/-- A store that is allowed: the bus write of Rd. -/
theorem SingleAccess.run_store (hl : x.isLoad = false) (h : x.allowed m s = true) :
    x.run i m (x.addr m s) s = store i x.width (x.bus m s) (readReg m x.rd s) (x.logged i m s) := by
  unfold run width bus logged
  unfold allowed at h
  cases hb : x.byte
  · simp only [hb, Bool.false_or] at h
    simp only [hl]
    exact storeWord_allowed h _
  · simp only [hl]
    rfl

end

/-! ## The instruction -/

/-- Instruction `i`, ready in mode `m`, is the single load or store `x`; the registers are those R303 lets through. -/
structure RunsAs (i : Instr) (m : Mode) (x : SingleAccess) (s : State) : Prop where
  ready : Ready i m s
  meaning : exec i s = andThen (lsExecute x.p x.u x.w x.rn x.off m (x.run i m) s) (accountInstr i s)
  rd : x.rd ≠ 15#4
  rn : (!x.p || x.w) = true → x.rn ≠ 15#4 ∧ x.rn ≠ x.rd

/-- A load or store in format LSI (R301). -/
def lsiAccess (byte isLoad : Bool) (f : LsImmFields) : SingleAccess :=
  ⟨byte, isLoad, f.p, f.u, f.w, f.rn, f.rd, BitVec.ofNat 32 f.offset12.toNat⟩

/-- A load or store in format LSR (R302). -/
def lsrAccess (byte isLoad : Bool) (f : LsRegFields) (m : Mode) (s : State) : SingleAccess :=
  ⟨byte, isLoad, f.p, f.u, f.w, f.rn, f.rd, (immShift f.shift (readReg m f.rm s) f.shiftImm s.cpu.cpsr.c).b⟩

/-- What R303 leaves of the registers of a load or store. -/
theorem checkLs_none {p w : Bool} {rn rd : RegNum} {rest : Option DecodeFault} (h : checkLs p w rn rd rest = none) :
    rd ≠ 15#4 ∧ ((!p || w) = true → rn ≠ 15#4 ∧ rn ≠ rd) := by
  unfold checkLs at h
  split_ifs at h with _ hrd hrn hne
  exact ⟨by simpa using hrd, fun hw => ⟨by simpa [hw] using hrn, by simpa [hw] using hne⟩⟩

theorem runsAs_lsi {byte isLoad : Bool} {f : LsImmFields} {m : Mode} {s : State}
    (h : Ready (Form.instr (.lsi byte isLoad f)) m s) :
    RunsAs (Form.instr (.lsi byte isLoad f)) m (lsiAccess byte isLoad f) s := by
  have hw : checkLs f.p f.w f.rn f.rd none = none := by
    have := h.word
    cases byte <;> cases isLoad <;> exact this
  refine ⟨h, ?_, (checkLs_none hw).1, (checkLs_none hw).2⟩
  rw [lsiAccess, BitVec.ofNat_toNat]
  cases byte <;> cases isLoad <;> exact retire_ready h _

theorem runsAs_lsr {byte isLoad : Bool} {f : LsRegFields} {m : Mode} {s : State}
    (h : Ready (Form.instr (.lsr byte isLoad f)) m s) :
    RunsAs (Form.instr (.lsr byte isLoad f)) m (lsrAccess byte isLoad f m s) s := by
  have hw : checkLs f.p f.w f.rn f.rd (if f.rm == 15#4 then some .unimpLsRmPc
      else if isShift32 f.shift f.shiftImm then some .unimpShift32 else none) = none := by
    have := h.word
    cases byte <;> cases isLoad <;> exact this
  refine ⟨h, ?_, (checkLs_none hw).1, (checkLs_none hw).2⟩
  cases byte <;> cases isLoad <;> exact retire_ready h _

theorem RegsOnly.cycles {a b : Cpu} (h : RegsOnly a b) : b.cycles = a.cycles := by
  obtain ⟨-, -, -, -, -, hcycles⟩ := h
  exact hcycles

/-- A ready instruction can be charged for wherever its body has kept counter and parameters. -/
theorem Ready.account {i : Instr} {m : Mode} {s u : State} (h : Ready i m s) (hc : u.cpu.cycles = s.cpu.cycles)
    (hk : u.config = s.config) : accountInstr i s u = .next (charge i s u) := by
  have := retire_completes h (body := fun _ => .next u) rfl hc hk
  rwa [retire_ready h] at this

section
variable {i : Instr} {m : Mode} {x : SingleAccess} {s t u v : State} {w : Word} {why : Fatal}

/-- The registers after the writeback, which R303 keeps off R15 and off Rd. -/
theorem RunsAs.reads (h : RunsAs i m x s) (hf : FlowOnly (x.writeback m s v) t) :
    readReg m x.rd t = readReg m x.rd v ∧
      ((!x.p || x.w) = true → readReg m x.rn t = offsetAddr x.u (readReg m x.rn s) x.off) := by
  constructor
  · rw [hf.readReg m h.rd, SingleAccess.writeback]
    split
    · rename_i hw
      rw [readReg_writeReg _ _ _ _ _ (h.rn hw).1, if_neg (h.rn hw).2.symm]
    · rfl
  · intro hw
    rw [hf.readReg m (h.rn hw).1, SingleAccess.writeback, if_pos hw, readReg_writeReg _ _ _ _ _ (h.rn hw).1, if_pos rfl]

/-- An access that completes: the instruction does its writeback, advances and is charged (R300). -/
theorem RunsAs.completes (h : RunsAs i m x s) (ha : x.run i m (x.addr m s) s = .next v) (hc : RegsOnly s.cpu v.cpu)
    (hk : v.config = s.config) :
    exec i s = .next (charge i s (advance (x.writeback m s v))) ∧
      Advanced i s (charge i s (advance (x.writeback m s v))) := by
  have hb : RegsOnly s.cpu (x.writeback m s v).cpu := by
    unfold SingleAccess.writeback
    split
    · exact hc.writeReg m _ _
    · exact hc
  have hcfg : (x.writeback m s v).config = s.config := by
    unfold SingleAccess.writeback
    split <;> simp [hk]
  refine ⟨?_, advanced_of h.ready.time hb⟩
  have he : lsExecute x.p x.u x.w x.rn x.off m (x.run i m) s = .next (advance (x.writeback m s v)) := by
    rw [lsExecute, ← SingleAccess.addr, ha]
    rfl
  rw [h.meaning, he, andThen_next]
  exact h.ready.account hb.cycles hcfg

/-- An access that stops is the instruction's fault. -/
theorem RunsAs.stops (h : RunsAs i m x s) (ha : x.run i m (x.addr m s) s = raise why u) : exec i s = raise why u := by
  rw [h.meaning, lsExecute, ← SingleAccess.addr, ha, andThen_raise, andThen_raise]

/-- A load whose bus read answers `w` and leaves `u` (R300, R304, R306). -/
theorem RunsAs.load_completes (h : RunsAs i m x s) (hl : x.isLoad = true) (ha : x.allowed m s = true)
    (hr : load i x.width (x.bus m s) (x.logged i m s) = .next (w, u)) :
    ∃ t, exec i s = .next t ∧ readReg m x.rd t = x.value m s w ∧
      ((!x.p || x.w) = true → readReg m x.rn t = offsetAddr x.u (readReg m x.rn s) x.off) ∧
      EngineKeeps ((phys m x.rd).toList ++ writtenBack x.p x.w m x.rn) s t ∧ LeftBy u t ∧ Advanced i s t := by
  have hk := busRead_keeps hr
  have hcpu : u.cpu = s.cpu := by rw [hk.cpu, SingleAccess.logged_cpu]
  obtain ⟨he, hadv⟩ := h.completes (by rw [SingleAccess.run_load hl ha, hr]; rfl) ((RegsOnly.ofEq hcpu).writeReg m _ _)
    (by simp [hk.config])
  have hf := FlowOnly.advanced i s (x.writeback m s (writeReg m x.rd (x.value m s w) u))
  obtain ⟨hrd, hrn⟩ := h.reads hf
  refine ⟨_, he, ?_, hrn, ?_, ?_, hadv⟩
  · rw [hrd, readReg_writeReg _ _ _ _ _ h.rd, if_pos rfl]
  · exact (((EngineKeeps.ofCpu hcpu).writeReg m _ _).writeback _ m _ _).flow hf
  · exact (((LeftBy.refl u).writeReg m _ _).writeback _ m _ _).flow hf

/-- A store whose bus write leaves `u` (R300, R305, R307). -/
theorem RunsAs.store_completes (h : RunsAs i m x s) (hl : x.isLoad = false) (ha : x.allowed m s = true)
    (hr : store i x.width (x.bus m s) (readReg m x.rd s) (x.logged i m s) = .next u) :
    ∃ t, exec i s = .next t ∧
      ((!x.p || x.w) = true → readReg m x.rn t = offsetAddr x.u (readReg m x.rn s) x.off) ∧
      EngineKeeps (writtenBack x.p x.w m x.rn) s t ∧ LeftBy u t ∧ Advanced i s t := by
  have hk := busWrite_keeps hr
  have hcpu : u.cpu = s.cpu := by rw [hk.cpu, SingleAccess.logged_cpu]
  obtain ⟨he, hadv⟩ := h.completes (by rw [SingleAccess.run_store hl ha, hr]) (RegsOnly.ofEq hcpu) (by simp [hk.config])
  have hf := FlowOnly.advanced i s (x.writeback m s u)
  exact ⟨_, he, (h.reads hf).2, ((EngineKeeps.ofCpu hcpu).writeback _ m _ _).flow hf,
    ((LeftBy.refl u).writeback _ m _ _).flow hf, hadv⟩

/-- A load whose bus read stops. -/
theorem RunsAs.load_stops (h : RunsAs i m x s) (hl : x.isLoad = true) (ha : x.allowed m s = true)
    (hr : load i x.width (x.bus m s) (x.logged i m s) = raise why u) : exec i s = raise why u :=
  h.stops (by rw [SingleAccess.run_load hl ha, hr, andThen_raise])

/-- A store whose bus write stops. -/
theorem RunsAs.store_stops (h : RunsAs i m x s) (hl : x.isLoad = false) (ha : x.allowed m s = true)
    (hr : store i x.width (x.bus m s) (readReg m x.rd s) (x.logged i m s) = raise why u) : exec i s = raise why u :=
  h.stops (by rw [SingleAccess.run_store hl ha, hr])

/-- With `UNALIGNED_WORD = FAULT` an unaligned word access stops, its log record emitted (R309, 20_memory.md R87, R88). -/
theorem RunsAs.unaligned (h : RunsAs i m x s) (hb : x.byte = false) (hp : s.config.unalignedWord = .fault)
    (ha : (x.addr m s).toNat % 4 ≠ 0) :
    exec i s = raise (.unimpUnaligned (encode i) s.instrAddr) (s.emit (unalignedRecord i (!x.isLoad) (x.addr m s) s)) := by
  have hal : ¬isAligned (x.addr m s) = true := fun hc => ha (isAligned_iff.1 hc)
  refine h.stops ?_
  unfold SingleAccess.run
  cases hl : x.isLoad <;> simp only [hb]
  · rw [strAccess, storeWord, if_neg hal, hp]
    rfl
  · rw [ldrAccess, loadWord, if_neg hal, hp]
    rfl

/-- Where the bus fails, the access stops with BUS, its log record emitted (R308, 20_memory.md R82). -/
theorem RunsAs.busFails (h : RunsAs i m x s) (ha : x.allowed m s = true)
    (hf : busKind s.host.regions (x.bus m s) x.width.bytes = .fails) :
    exec i s = raise (.bus (x.bus m s) x.width.bytes (some (encode i)) s.instrAddr) (x.logged i m s) := by
  have hf' : busKind (x.logged i m s).host.regions (x.bus m s) x.width.bytes = .fails := by simpa using hf
  rw [← SingleAccess.logged_instrAddr (x := x) (i := i) (m := m)]
  cases hl : x.isLoad
  · exact h.store_stops hl ha (busWrite_fails hf' _ _ _)
  · exact h.load_stops hl ha (busRead_fails hf' _ _)

end

end Sys2Proof.Machine

/-!
PROOFS. Block transfers (44_block_transfer.md R340 to R346): the walk's slots read and written one after the other, the registers
an LDM leaves, and where a transfer stops.
-/

namespace Sys2Proof.Machine

open Sys2Proof

/-! ## The base -/

/-- What R342 leaves of a block transfer's base: it is not R15, and a writeback does not meet a listed base. -/
theorem checkWord_bt_none {isLoad : Bool} {f : BtFields} (h : (Form.bt isLoad f).checkWord = none) :
    f.rn ≠ 15#4 ∧ (f.w = true → f.listed f.rn = false) := by
  simp only [Form.checkWord] at h
  split_ifs at h with _ _ hrn hlist
  exact ⟨by simpa using hrn, fun hw => by simpa [hw] using hlist⟩

section
variable {f : BtFields} {m : Mode} {s u : State}

theorem exec_stm_aligned (h : Ready (.stm f) m s) (ha : (readReg m f.rn s).toNat % 4 = 0) :
    exec (.stm f) s = andThen (andThen (storeSlots (.stm f) (storedSlots m (btSlots f (readReg m f.rn s)) s) s)
      fun u => .next (advance (btWriteback f (readReg m f.rn s) m u))) (accountInstr (.stm f) s) := by
  refine (retire_ready h _).trans ?_
  dsimp only
  rw [isAligned_iff.2 ha]
  rfl

theorem exec_ldm_aligned (h : Ready (.ldm f) m s) (ha : (readReg m f.rn s).toNat % 4 = 0) :
    exec (.ldm f) s = andThen (andThen (loadSlots (.ldm f) (btSlots f (readReg m f.rn s)) s)
      fun p => ldmFinish (.ldm f) f (readReg m f.rn s) m p.1 p.2) (accountInstr (.ldm f) s) := by
  refine (retire_ready h _).trans ?_
  dsimp only
  rw [isAligned_iff.2 ha]
  rfl

/-- An unaligned base stops either transfer before its first slot (R340). -/
theorem exec_bt_unaligned {isLoad : Bool} (h : Ready (Form.instr (.bt isLoad f)) m s)
    (ha : (readReg m f.rn s).toNat % 4 ≠ 0) :
    exec (Form.instr (.bt isLoad f)) s =
      raise (.unimpBtUnaligned (encode (Form.instr (.bt isLoad f))) s.instrAddr (readReg m f.rn s)) s := by
  have hal : isAligned (readReg m f.rn s) = false := Bool.eq_false_iff.2 fun hc => ha (isAligned_iff.1 hc)
  cases isLoad <;>
  · refine (retire_ready h _).trans ?_
    dsimp only
    rw [hal]
    rfl

/-! ## The walk -/

theorem mem_allRegs (r : RegNum) : r ∈ allRegs := by revert r; decide

theorem allRegs_nodup : allRegs.Nodup := by decide

theorem mem_walkRegs {r : RegNum} : r ∈ walkRegs f ↔ f.listed r = true := by
  unfold walkRegs
  split <;> simp [mem_allRegs]

theorem walkRegs_nodup (f : BtFields) : (walkRegs f).Nodup := by
  unfold walkRegs
  split
  · exact allRegs_nodup.filter _
  · exact (List.nodup_reverse.2 allRegs_nodup).filter _

theorem walkSlots_regs (p up : Bool) (rs : List RegNum) (a : Word) : (walkSlots p up rs a).map Prod.fst = rs := by
  induction rs generalizing a with
  | nil => rfl
  | cons r rs ih => rw [walkSlots, List.map_cons, ih]

/-- The slots name each listed register once. -/
theorem btSlots_regs (f : BtFields) (base : Word) : (btSlots f base).map Prod.fst = walkRegs f := walkSlots_regs _ _ _ _

/-! ## The slots' accesses -/

theorem load_of_wordReads {i : Instr} {a v : Word} (h : WordReads a s v u) : load i .word a s = .next (v, u) := by
  obtain ⟨hp, rfl, rfl⟩ | ⟨hd, hr⟩ := h
  · exact busRead_plain hp _ _
  · exact busRead_of_deviceReads hd hr _ _

theorem store_of_wordWrites {i : Instr} {a v : Word} (h : WordWrites a v s u) : store i .word a v s = .next u := by
  obtain ⟨hp, rfl⟩ | ⟨hd, hr⟩ := h
  · exact busWrite_plain hp _ _ _
  · exact busWrite_of_deviceWrites hd hr _ _ _

theorem loadSlots_of_slotsRead {i : Instr} {slots : List (RegNum × Word × Word)} (h : SlotsRead slots s u) :
    loadSlots i (slots.map fun q => (q.1, q.2.1)) s = .next (slots.map fun q => (q.1, q.2.2), u) := by
  induction slots generalizing s with
  | nil => cases h; rfl
  | cons q rest ih =>
    obtain ⟨w, hw, hr⟩ := h
    simp only [List.map_cons, loadSlots, load_of_wordReads hw, andThen_next, ih hr]

theorem storeSlots_of_slotsWritten {i : Instr} {slots : List (Word × Word)} (h : SlotsWritten slots s u) :
    storeSlots i slots s = .next u := by
  induction slots generalizing s with
  | nil => cases h; rfl
  | cons q rest ih =>
    obtain ⟨w, hw, hr⟩ := h
    simp only [storeSlots, store_of_wordWrites hw, andThen_next, ih hr]

/-- Slots of plain memory and then one where the bus fails: the loads change nothing before the fault (R346). -/
theorem loadSlots_fails {i : Instr} {before after : List (RegNum × Word)} {r : RegNum} {a : Word}
    (hp : ∀ q ∈ before, s.plainAccess .word q.2 = true) (hf : busKind s.host.regions a 4 = .fails) :
    loadSlots i (before ++ (r, a) :: after) s = raise (.bus a 4 (some (encode i)) s.instrAddr) s := by
  induction before with
  | nil =>
    have : load i .word a s = raise (.bus a 4 (some (encode i)) s.instrAddr) s := busRead_fails hf _ _
    rw [List.nil_append, loadSlots, this, andThen_raise]
  | cons q rest ih =>
    have : load i .word q.2 s = .next (s.mem.load .word q.2, s) := busRead_plain (hp q List.mem_cons_self) _ _
    rw [List.cons_append, loadSlots, this, andThen_next, ih fun p hm => hp p (List.mem_cons_of_mem _ hm), andThen_raise]

/-- The stores of the slots before the failing one have happened (R346). -/
theorem storeSlots_fails {i : Instr} {before after : List (Word × Word)} {a v : Word}
    (hp : ∀ q ∈ before, s.plainAccess .word q.1 = true) (hf : busKind s.host.regions a 4 = .fails) :
    storeSlots i (before ++ (a, v) :: after) s = raise (.bus a 4 (some (encode i)) s.instrAddr)
      { s with mem := before.foldl (fun mem q => mem.writeWord q.1 q.2) s.mem } := by
  induction before generalizing s with
  | nil =>
    have : store i .word a v s = raise (.bus a 4 (some (encode i)) s.instrAddr) s := busWrite_fails hf _ _ _
    rw [List.nil_append, storeSlots, this, andThen_raise]
    rfl
  | cons q rest ih =>
    have : store i .word q.1 q.2 s = .next { s with mem := s.mem.writeWord q.1 q.2 } :=
      busWrite_plain (hp q List.mem_cons_self) _ _ _
    rw [List.cons_append, storeSlots, this, andThen_next,
      ih (s := { s with mem := s.mem.writeWord q.1 q.2 }) (fun p hm => hp p (List.mem_cons_of_mem _ hm)) hf]
    rfl

/-- Slots of an STM: the memory their stores leave. -/
theorem foldl_storedSlots (m : Mode) (slots : List (RegNum × Word)) (s : State) :
    (storedSlots m slots s).foldl (fun mem q => mem.writeWord q.1 q.2) s.mem = memStored m slots s := by
  rw [storedSlots, List.foldl_map]
  rfl

/-- LDM and STM at the first slot where the bus fails (R346, 20_memory.md R82). -/
theorem exec_bt_fails {isLoad : Bool} {before after : List (RegNum × Word)} {r : RegNum} {a : Word}
    (h : Ready (Form.instr (.bt isLoad f)) m s) (ha : (readReg m f.rn s).toNat % 4 = 0)
    (hs : btSlots f (readReg m f.rn s) = before ++ (r, a) :: after)
    (hp : ∀ q ∈ before, s.plainAccess .word q.2 = true) (hf : busKind s.host.regions a 4 = .fails) :
    exec (Form.instr (.bt isLoad f)) s = raise (.bus a 4 (some (encode (Form.instr (.bt isLoad f)))) s.instrAddr)
      (if isLoad then s else { s with mem := memStored m before s }) := by
  cases isLoad
  · have hp' : ∀ q ∈ storedSlots m before s, s.plainAccess .word q.1 = true := by
      intro q hq
      obtain ⟨p, hm, rfl⟩ := List.mem_map.1 hq
      exact hp p hm
    have hsplit : storedSlots m (before ++ (r, a) :: after) s =
        storedSlots m before s ++ (a, storedValue m r s) :: storedSlots m after s := by
      simp [storedSlots]
    refine (exec_stm_aligned h ha).trans ?_
    rw [hs, hsplit, storeSlots_fails hp' hf, foldl_storedSlots]
    rfl
  · refine (exec_ldm_aligned h ha).trans ?_
    rw [hs, loadSlots_fails hp hf]
    rfl

/-! ## Registers loaded -/

theorem readReg_writeRegs_other {l : List (RegNum × Word)} {q : RegNum} (h : q ∉ l.map Prod.fst) :
    readReg m q (writeRegs m l s) = readReg m q s := by
  induction l generalizing s with
  | nil => rfl
  | cons p rest ih =>
    obtain ⟨hp, hrest⟩ := not_or.1 (List.mem_cons.not.1 h)
    rw [writeRegs, ih hrest]
    by_cases hr : p.1 = 15#4
    · rw [hr, writeReg_15]
    · rw [readReg_writeReg _ _ _ _ _ hr, if_neg hp]

/-- A register loaded once holds the value loaded. -/
theorem readReg_writeRegs_mem {l : List (RegNum × Word)} {q : RegNum} {v : Word} (hq : q ≠ 15#4)
    (hn : (l.map Prod.fst).Nodup) (h : (q, v) ∈ l) : readReg m q (writeRegs m l s) = v := by
  induction l generalizing s with
  | nil => cases h
  | cons p rest ih =>
    obtain ⟨hp, hrest⟩ := List.nodup_cons.1 hn
    rw [writeRegs]
    rcases List.mem_cons.1 h with rfl | hm
    · rw [readReg_writeRegs_other hp, readReg_writeReg _ _ _ _ _ hq, if_pos rfl]
    · exact ih hrest hm

theorem loadedPc_mem {l : List (RegNum × Word)} {v : Word} (h : loadedPc l = some v) : (15#4, v) ∈ l := by
  induction l with
  | nil => cases h
  | cons p rest ih =>
    obtain ⟨r, w⟩ := p
    rw [loadedPc] at h
    split at h
    · rename_i hr
      cases h
      rw [hr]
      exact List.mem_cons_self
    · exact List.mem_cons_of_mem _ (ih h)

theorem loadedPc_none {l : List (RegNum × Word)} (h : loadedPc l = none) : 15#4 ∉ l.map Prod.fst := by
  induction l with
  | nil => exact List.not_mem_nil
  | cons p rest ih =>
    obtain ⟨r, w⟩ := p
    rw [loadedPc] at h
    split at h
    · cases h
    · rename_i hr
      exact List.mem_cons.not.2 (not_or.2 ⟨Ne.symm hr, ih h⟩)

theorem EngineKeeps.writeRegs {l : List PhysReg} (h : EngineKeeps l s u) (m : Mode) (regs : List (RegNum × Word)) :
    EngineKeeps (l ++ regs.filterMap fun q => phys m q.1) s (writeRegs m regs u) := by
  induction regs generalizing l u with
  | nil => simpa [Machine.writeRegs] using h
  | cons p rest ih =>
    have e : l ++ (p :: rest).filterMap (fun q => phys m q.1) =
        (l ++ (phys m p.1).toList) ++ rest.filterMap fun q => phys m q.1 := by
      cases hp : phys m p.1 <;> simp [hp]
    rw [e]
    exact ih (h.writeReg m p.1 p.2)

theorem LeftBy.writeRegs {v : State} (h : LeftBy u v) (m : Mode) (regs : List (RegNum × Word)) :
    LeftBy u (writeRegs m regs v) := by
  induction regs generalizing v with
  | nil => exact h
  | cons p rest ih => exact ih (h.writeReg m p.1 p.2)

/-! ## The transfers that complete -/

/-- An STM whose slots' writes leave `u` (R344). -/
theorem stm_completes (h : Ready (.stm f) m s) (ha : (readReg m f.rn s).toNat % 4 = 0)
    (hw : storeSlots (.stm f) (storedSlots m (btSlots f (readReg m f.rn s)) s) s = .next u) :
    ∃ t, exec (.stm f) s = .next t ∧ (f.w = true → readReg m f.rn t = btFinal f (readReg m f.rn s)) ∧
      EngineKeeps (if f.w then (phys m f.rn).toList else []) s t ∧ LeftBy u t ∧ Advanced (.stm f) s t := by
  have hrn : f.rn ≠ 15#4 := (checkWord_bt_none h.word).1
  have hcpu : u.cpu = s.cpu := storeSlots_cpu hw
  have hreg : RegsOnly s.cpu (btWriteback f (readReg m f.rn s) m u).cpu := (RegsOnly.ofEq hcpu).writeback f _ m
  have hleft : LeftBy u (btWriteback f (readReg m f.rn s) m u) := (LeftBy.refl u).writeback f.w m _ _
  have hf := FlowOnly.advanced (.stm f) s (btWriteback f (readReg m f.rn s) m u)
  refine ⟨_, ?_, fun hwb => ?_, ((EngineKeeps.ofCpu hcpu).writeback f.w m _ _).flow hf, hleft.flow hf,
    advanced_of h.time hreg⟩
  · rw [exec_stm_aligned h ha, hw]
    exact h.account hreg.cycles (hleft.config.trans (sameConfig_worldRel.storeSlots hw))
  · rw [hf.readReg m hrn, btWriteback, if_pos hwb, readReg_writeReg _ _ _ _ _ hrn, if_pos rfl]

/-- The state an LDM's registers and writeback leave, its slots read with the values `loaded` and the state `u` (R343). -/
def ldmBody (f : BtFields) (base : Word) (m : Mode) (loaded : List (RegNum × Word)) (u : State) : State :=
  btWriteback f base m (writeRegs m loaded u)

/-- The values loaded stand in their registers after the writeback, which R342 keeps off the list. -/
theorem readReg_ldmBody {loaded : List (RegNum × Word)} (h : Ready (.ldm f) m s) (base : Word)
    (hl : loaded.map Prod.fst = walkRegs f) {q : RegNum × Word} (hq : q ∈ loaded) (hne : q.1 ≠ 15#4) :
    readReg m q.1 (ldmBody f base m loaded u) = q.2 := by
  obtain ⟨hrn, hlist⟩ := checkWord_bt_none h.word
  have hv : readReg m q.1 (writeRegs m loaded u) = q.2 := readReg_writeRegs_mem hne (hl ▸ walkRegs_nodup f) hq
  unfold ldmBody btWriteback
  split
  · rename_i hw
    have hlisted : f.listed q.1 = true := mem_walkRegs.1 (hl ▸ List.mem_map_of_mem hq)
    have hbase : q.1 ≠ f.rn := fun e => by
      rw [e, hlist hw] at hlisted
      cases hlisted
    rw [readReg_writeReg _ _ _ _ _ hrn, if_neg hbase, hv]
  · exact hv

/-- Everything an LDM leaves but R15, the queue and the counter, whichever way it ends (R343). -/
theorem ldm_leaves {loaded : List (RegNum × Word)} {base : Word} {t : State} (h : Ready (.ldm f) m s)
    (hl : loaded.map Prod.fst = walkRegs f) (hcpu : u.cpu = s.cpu) (ht : FlowOnly (ldmBody f base m loaded u) t) :
    (∀ q ∈ loaded, q.1 ≠ 15#4 → readReg m q.1 t = q.2) ∧ (f.w = true → readReg m f.rn t = btFinal f base) ∧
      EngineKeeps ((loaded.filterMap fun q => phys m q.1) ++ if f.w then (phys m f.rn).toList else []) s t ∧
      LeftBy u t := by
  have hrn : f.rn ≠ 15#4 := (checkWord_bt_none h.word).1
  refine ⟨fun q hq hne => (ht.readReg m hne).trans (readReg_ldmBody h base hl hq hne), fun hw => ?_,
    (((EngineKeeps.ofCpu hcpu).writeRegs m loaded).writeback f.w m _ _).flow ht,
    (((LeftBy.refl u).writeRegs m loaded).writeback f.w m _ _).flow ht⟩
  rw [ht.readReg m hrn, ldmBody, btWriteback, if_pos hw, readReg_writeReg _ _ _ _ _ hrn, if_pos rfl]

/-- An LDM whose slots' reads answer `loaded` and leave `u`, R15's value, if loaded, being aligned (R343). -/
theorem ldm_completes {loaded : List (RegNum × Word)} (h : Ready (.ldm f) m s) (ha : (readReg m f.rn s).toNat % 4 = 0)
    (hr : loadSlots (.ldm f) (btSlots f (readReg m f.rn s)) s = .next (loaded, u))
    (hl : loaded.map Prod.fst = walkRegs f) (hpc : ∀ q ∈ loaded, q.1 = 15#4 → q.2.toNat % 4 = 0) :
    ∃ t, exec (.ldm f) s = .next t ∧ (∀ q ∈ loaded, q.1 ≠ 15#4 → readReg m q.1 t = q.2) ∧
      (f.w = true → readReg m f.rn t = btFinal f (readReg m f.rn s)) ∧
      EngineKeeps ((loaded.filterMap fun q => phys m q.1) ++ if f.w then (phys m f.rn).toList else []) s t ∧
      LeftBy u t ∧ (∀ q ∈ loaded, q.1 = 15#4 → Jumped (.ldm f) q.2 s t) ∧
      (f.listed 15#4 = false → Advanced (.ldm f) s t) := by
  have hcpu : u.cpu = s.cpu := loadSlots_cpu hr
  have hreg : RegsOnly s.cpu (ldmBody f (readReg m f.rn s) m loaded u).cpu :=
    ((RegsOnly.ofEq hcpu).writeRegs m loaded).writeback f _ m
  have hleft : LeftBy u (ldmBody f (readReg m f.rn s) m loaded u) :=
    ((LeftBy.refl u).writeRegs m loaded).writeback f.w m _ _
  have hconfig := hleft.config.trans (sameConfig_worldRel.loadSlots hr)
  rw [exec_ldm_aligned h ha, hr, andThen_next]
  unfold ldmFinish
  cases hv : loadedPc loaded with
  | some v =>
    have hmem := loadedPc_mem hv
    obtain ⟨hvals, hbase, hkeep, hleft⟩ := ldm_leaves h hl hcpu (FlowOnly.jumped (.ldm f) s _ v)
    refine ⟨_, ?_, hvals, hbase, hkeep, hleft, fun q hq h15 => ?_, fun h15 => ?_⟩
    · dsimp only
      rw [pcWrite_aligned (isAligned_iff.2 (hpc _ hmem rfl)), andThen_next]
      exact h.account hreg.cycles hconfig
    · obtain rfl : q = (15#4, v) := List.inj_on_of_nodup_map (hl ▸ walkRegs_nodup f) hq hmem h15
      exact jumped_of h.time hreg v
    · have hlisted : f.listed 15#4 = true := mem_walkRegs.1 (hl ▸ List.mem_map_of_mem hmem)
      rw [h15] at hlisted
      cases hlisted
  | none =>
    obtain ⟨hvals, hbase, hkeep, hleft⟩ := ldm_leaves h hl hcpu (FlowOnly.advanced (.ldm f) s _)
    exact ⟨_, h.account hreg.cycles hconfig, hvals, hbase, hkeep, hleft,
      fun q hq h15 => absurd (h15 ▸ List.mem_map_of_mem hq) (loadedPc_none hv), fun _ => advanced_of h.time hreg⟩

end

end Sys2Proof.Machine

/-!
PROOFS. The bus seen from the engine (20_memory.md R82, R83, R87 to R89): unaligned accesses, accesses where nothing answers, and
accesses to devices, each for every instruction that makes one.
-/

namespace Sys2Proof.Machine

open Sys2Proof

/-- Settles O19: a word access with the policy FAULT is `RunsAs.unaligned` in either format, an unaligned base is
`exec_bt_unaligned`. -/
theorem unalignedAccessesFault : Obligations.UnalignedAccessesFault := by
  refine ⟨fun isLoad f m s => ?_, fun isLoad f m s => ?_, fun isLoad f m s h ha => exec_bt_unaligned h ha⟩
  · intro i a h hp ha
    exact (runsAs_lsi h).unaligned rfl hp ha
  · intro i a h hp ha
    exact (runsAs_lsr h).unaligned rfl hp ha

/-- Settles O20: the fetch is a bus read, a single access is `RunsAs.busFails` in either format, and a block transfer stops at its
first failing slot by `exec_bt_fails`. -/
theorem busFailureIsFatal : Obligations.BusFailureIsFatal := by
  refine ⟨fun s h => busRead_fails h _ _, fun byte isLoad f m s => ?_, fun byte isLoad f m s => ?_,
    fun isLoad f m s before after r a => ?_⟩
  · intro i a bus n h ha hf
    cases byte <;> exact (runsAs_lsi h).busFails ha hf
  · intro i a bus n h ha hf
    cases byte <;> exact (runsAs_lsr h).busFails ha hf
  · intro i h ha hs hp hf
    exact exec_bt_fails h ha hs hp hf

/-! ## Devices -/

section
variable {i : Instr} {m : Mode} {x : SingleAccess} {s : State}

/-- A load of a device, in either format. -/
theorem RunsAs.deviceLoads (h : RunsAs i m x s) (hl : x.isLoad = true) :
    DeviceLoads i x.byte m x.p x.u x.w x.rn x.rd x.off s := by
  unfold DeviceLoads
  intro base a bus width logged ha hd
  have hlog : x.logged i m s = logged := by rw [SingleAccess.logged, hl]; rfl
  have hd' : busKind (x.logged i m s).host.regions (x.bus m s) x.width.bytes = .device := by
    rw [SingleAccess.logged_host]
    exact hd
  rw [← hlog]
  constructor
  · intro v u hr
    exact h.load_completes hl ha (busRead_of_deviceReads hd' hr _ _)
  · intro u hr
    rw [h.load_stops hl ha (busRead_of_deviceFails hd' hr _ _), SingleAccess.logged_instrAddr]
    rfl

/-- A store to a device, in either format. -/
theorem RunsAs.deviceStores (h : RunsAs i m x s) (hl : x.isLoad = false) :
    DeviceStores i x.byte m x.p x.u x.w x.rn x.off s := by
  unfold DeviceStores
  intro base a bus width logged ha hd
  have hlog : x.logged i m s = logged := by rw [SingleAccess.logged, hl]; rfl
  have hd' : busKind (x.logged i m s).host.regions (x.bus m s) x.width.bytes = .device := by
    rw [SingleAccess.logged_host]
    exact hd
  rw [← hlog]
  constructor
  · intro u hr
    exact h.store_completes hl ha (busWrite_of_deviceWrites hd' hr _ _ _)
  · intro u hr
    rw [h.store_stops hl ha (busWrite_of_deviceFails hd' hr _ _ _), SingleAccess.logged_instrAddr]
    rfl

end

/-- Settles O21: what the bus answers is `busRead_of_deviceReads`, and each load passes it on: the fetch as it is, LDR and LDRB by
`RunsAs.deviceLoads`, LDM slot by slot. -/
theorem deviceAnswersLoad : Obligations.DeviceAnswersLoad := by
  refine ⟨fun width a word pc s h => ⟨fun v u hr => busRead_of_deviceReads h hr _ _,
      fun u hr => busRead_of_deviceFails h hr _ _, fun r rs why he hc => ?_⟩,
    fun s v u h => ⟨fun hr => busRead_of_deviceReads h hr _ _, fun hr => busRead_of_deviceFails h hr _ _⟩,
    fun byte f m s h => (runsAs_lsi h).deviceLoads rfl, fun byte f m s h => (runsAs_lsr h).deviceLoads rfl,
    fun f m s u slots h => ?_⟩
  · rw [(busRead_device h word pc).2 r rs he, hc, andThen_fault]
  · intro base ha hs hr hpc
    have hload := loadSlots_of_slotsRead (i := .ldm f) hr
    rw [hs] at hload
    have hregs : (slots.map fun q => (q.1, q.2.2)).map Prod.fst = walkRegs f := by
      rw [← btSlots_regs f base, ← hs, List.map_map, List.map_map]
      rfl
    have hpc' : ∀ q ∈ slots.map fun q => (q.1, q.2.2), q.1 = 15#4 → q.2.toNat % 4 = 0 :=
      List.forall_mem_map.2 hpc
    simpa only [List.filterMap_map, List.forall_mem_map, Function.comp_def] using ldm_completes h ha hload hregs hpc'

/-- Settles O60: what the bus does is `busWrite_of_deviceWrites`, and each store passes it on: STR and STRB by
`RunsAs.deviceStores`, STM slot by slot. -/
theorem deviceTakesStore : Obligations.DeviceTakesStore := by
  refine ⟨fun width a v word pc s h => ⟨fun u hr => busWrite_of_deviceWrites h hr _ _ _,
      fun u hr => busWrite_of_deviceFails h hr _ _ _, fun r rs why he hc => ?_⟩,
    fun byte f m s h => (runsAs_lsi h).deviceStores rfl, fun byte f m s h => (runsAs_lsr h).deviceStores rfl,
    fun f m s u h ha hw => stm_completes h ha (storeSlots_of_slotsWritten hw)⟩
  rw [(busWrite_device h v word pc).2 r rs he, hc, andThen_fault]

end Sys2Proof.Machine

/-!
PROOFS. The encoding (30_encoding.md R110 to R143): a word matches an entry of the decode table exactly when its fixed fields are
the format's; decoding and encoding are inverse to each other between the words that decode and the well-formed instructions; and
which words match no entry.
-/

namespace Sys2Proof

/-! ## Codes and names -/

@[simp] theorem Cond.ofBits_bits (c : Cond) : Cond.ofBits c.bits = c := by cases c <;> rfl

@[simp] theorem Cond.bits_ofBits : ∀ b : BitVec 4, (Cond.ofBits b).bits = b := by decide

@[simp] theorem ShiftKind.ofBits_bits (k : ShiftKind) : ShiftKind.ofBits k.bits = k := by cases k <;> rfl

@[simp] theorem ShiftKind.bits_ofBits : ∀ b : BitVec 2, (ShiftKind.ofBits b).bits = b := by decide

@[simp] theorem DpOp.ofBits_bits (op : DpOp) : DpOp.ofBits op.bits = op := by cases op <;> rfl

@[simp] theorem DpOp.bits_ofBits : ∀ b : BitVec 4, (DpOp.ofBits b).bits = b := by decide

@[simp] theorem Form.form_instr (f : Form) : f.instr.form = f := by
  cases f with
  | mrs f | msrr f | msri f | swi f => rfl
  | mul a f | bt a f | br a f => cases a <;> rfl
  | dpr op f | dps op f | dpi op f => cases op <;> rfl
  | lsi b l f | lsr b l f => cases b <;> cases l <;> rfl

@[simp] theorem Instr.instr_form (i : Instr) : i.form.instr = i := by cases i <;> rfl

@[simp] theorem Entry.entry_formOf (e : Entry) (w : Word) : (e.formOf w).entry = e := by cases e <;> rfl

/-! ## The fields an entry fixes -/

theorem Entry.matchesWord_iff {e : Entry} {w : Word} : e.matchesWord w = true ↔ w &&& e.mask = e.value := beq_iff_eq

/-- A match seen through any field: the field's masked bits are the entry's. -/
theorem Entry.maskedField_of_matchesWord {e : Entry} {w : Word} (h : e.matchesWord w = true) (start len : Nat) :
    w.extractLsb' start len &&& e.mask.extractLsb' start len = e.value.extractLsb' start len := by
  rw [← matchesWord_iff.1 h, BitVec.extractLsb'_and]

/-- A field that lies wholly in an entry's mask has the entry's value in every word the entry matches. -/
theorem Entry.field_of_matchesWord {e : Entry} {w : Word} (h : e.matchesWord w = true) (start len : Nat)
    (hm : e.mask.extractLsb' start len = BitVec.allOnes len) :
    w.extractLsb' start len = e.value.extractLsb' start len := by
  rw [← maskedField_of_matchesWord h, hm, BitVec.and_allOnes]

/-- The fixed fields of the entry's format have their values (R112 to R124). -/
def Entry.Fixed (w : Word) : Entry → Prop
  | .mrs => w.extractLsb' 23 5 = 0b00010#5 ∧ w.extractLsb' 16 6 = 0b001111#6 ∧ w.extractLsb' 0 12 = 0#12
  | .msrr =>
    w.extractLsb' 23 5 = 0b00010#5 ∧ w.extractLsb' 20 2 = 0b10#2 ∧ w.extractLsb' 12 4 = 0b1111#4 ∧ w.extractLsb' 4 8 = 0#8
  | .msri => w.extractLsb' 23 5 = 0b00110#5 ∧ w.extractLsb' 20 2 = 0b10#2 ∧ w.extractLsb' 12 4 = 0b1111#4
  | .mul => w.extractLsb' 22 6 = 0#6 ∧ w.extractLsb' 4 4 = 0b1001#4
  | .dpr => w.extractLsb' 25 3 = 0b000#3 ∧ w.extractLsb' 7 1 = 0b0#1 ∧ w.extractLsb' 4 1 = 0b1#1
  | .dps => w.extractLsb' 25 3 = 0b000#3 ∧ w.extractLsb' 4 1 = 0b0#1
  | .dpi => w.extractLsb' 25 3 = 0b001#3
  | .lsi => w.extractLsb' 25 3 = 0b010#3
  | .lsr => w.extractLsb' 25 3 = 0b011#3 ∧ w.extractLsb' 4 1 = 0b0#1
  | .bt => w.extractLsb' 25 3 = 0b100#3
  | .br => w.extractLsb' 25 3 = 0b101#3
  | .swi => w.extractLsb' 24 4 = 0b1111#4

theorem Entry.fixed_of_matchesWord {e : Entry} {w : Word} (h : e.matchesWord w = true) : e.Fixed w := by
  have field := field_of_matchesWord h
  cases e with
  | mrs => exact ⟨field 23 5 rfl, field 16 6 rfl, field 0 12 rfl⟩
  | msrr => exact ⟨field 23 5 rfl, field 20 2 rfl, field 12 4 rfl, field 4 8 rfl⟩
  | msri => exact ⟨field 23 5 rfl, field 20 2 rfl, field 12 4 rfl⟩
  | mul => exact ⟨field 22 6 rfl, field 4 4 rfl⟩
  | dpr => exact ⟨field 25 3 rfl, field 7 1 rfl, field 4 1 rfl⟩
  | dps | lsr => exact ⟨field 25 3 rfl, field 4 1 rfl⟩
  | dpi | lsi | bt | br => exact field 25 3 rfl
  | swi => exact field 24 4 rfl

/-! ## Fields and words -/

/-- A flag's place in the encoding is a field of one bit. -/
theorem ofBool_getLsbD (w : Word) (k : Nat) : BitVec.ofBool (w.getLsbD k) = w.extractLsb' k 1 := by
  ext j hj
  obtain rfl : j = 0 := by omega
  simp

/-- A word whose fixed fields are those of a format is the encoding of its own fields: the fields of a format cover the word. -/
theorem Entry.encode_formOf {e : Entry} {w : Word} (h : e.Fixed w) : (e.formOf w).encode = w := by
  cases e <;> simp only [Fixed] at h <;>
    simp only [formOf, Form.encode, mrsOf, msrRegOf, msrImmOf, mulOf, dprOf, dpsOf, dpiOf, lsImmOf, lsRegOf, btOf, brOf,
      swiOf, condOf, shiftOf, opOf, Cond.bits_ofBits, ShiftKind.bits_ofBits, DpOp.bits_ofBits, ofBool_getLsbD, ← h,
      BitVec.extractLsb'_append_extractLsb'_eq_extractLsb', BitVec.extractLsb'_eq_self]

/-- Each field of a format is read back from where the encoder put it. -/
theorem Form.formOf_encode (f : Form) : f.entry.formOf f.encode = f := by
  cases f <;>
    simp (disch := decide) only [entry, Entry.formOf, encode, mrsOf, msrRegOf, msrImmOf, mulOf, dprOf, dpsOf, dpiOf,
      lsImmOf, lsRegOf, btOf, brOf, swiOf, condOf, shiftOf, opOf, BitVec.extractLsb'_append_eq_of_add_le,
      BitVec.extractLsb'_append_eq_of_le, BitVec.extractLsb'_eq_self, BitVec.getLsbD_append, BitVec.getLsbD_ofBool,
      Nat.reduceSub, Nat.reduceLT, ↓reduceIte, decide_true, Bool.true_and, Cond.ofBits_bits, ShiftKind.ofBits_bits,
      DpOp.ofBits_bits]

/-! ## The words an entry matches -/

/-- The encoding of every format has its row's fixed bits. -/
theorem Form.row (f : Form) : f.encode &&& f.rowMask = f.rowMatch := by
  cases f with
  | mrs f => exact Laws.RowMatch.form_mrs f
  | msrr f => exact Laws.RowMatch.form_msrr f
  | msri f => exact Laws.RowMatch.form_msri f
  | mul a f => exact Laws.RowMatch.form_mul a f
  | dpr op f => exact Laws.RowMatch.form_dpr op f
  | dps op f => exact Laws.RowMatch.form_dps op f
  | dpi op f => exact Laws.RowMatch.form_dpi op f
  | lsi b l f => exact Laws.RowMatch.form_lsi b l f
  | lsr b l f => exact Laws.RowMatch.form_lsr b l f
  | bt l f => exact Laws.RowMatch.form_bt l f
  | br k f => exact Laws.RowMatch.form_br k f
  | swi f => exact Laws.RowMatch.form_swi f

/-- The word of an instruction matches the entry of its format: the entry asks for a part of what the row fixes. -/
theorem Form.matchesWord_encode (f : Form) : f.entry.matchesWord f.encode = true := by
  have mask : f.rowMask &&& f.entry.mask = f.entry.mask := by
    cases f <;> simp only [rowMask, entry, Entry.mask] <;> decide
  have value : f.rowMatch &&& f.entry.mask = f.entry.value := by
    cases f <;> simp only [rowMatch, entry, Entry.mask, Entry.value]
    case mul a f | bt a f | br a f => cases a <;> decide
    case dpr op f | dps op f | dpi op f => cases op <;> decide
    case lsi b l f | lsr b l f => cases b <;> cases l <;> decide
    all_goals decide
  rw [Entry.matchesWord_iff, ← mask, ← BitVec.and_assoc, f.row, value]

theorem Entry.matchesWord_iff_fixed {e : Entry} {w : Word} : e.matchesWord w = true ↔ e.Fixed w := by
  refine ⟨fixed_of_matchesWord, fun h => ?_⟩
  have hw := (e.formOf w).matchesWord_encode
  rwa [entry_formOf, encode_formOf h] at hw

/-! ## The entry a word matches first -/

/-- First match wins: the entry matches, and none before it in the table (R133). -/
theorem findEntry_eq_some_iff {w : Word} {e : Entry} :
    findEntry w = some e ↔ e.matchesWord w = true ∧ ∀ k : Entry, k.index < e.index → k.matchesWord w = false := by
  have at_index (k : Entry) : decodeTable[k.index.val]'k.index.isLt = k := by cases k <;> rfl
  have index_at : ∀ j : Fin 12, (decodeTable[j.val]'j.isLt).index = j := by decide
  rw [findEntry, List.find?_eq_some_iff_getElem]
  refine and_congr_right fun _ => ⟨fun ⟨j, hj, he, hb⟩ k hk => ?_, fun hb =>
    ⟨e.index, e.index.isLt, at_index e, fun j hj => ?_⟩⟩
  · have hej : e.index = ⟨j, hj⟩ := by rw [← he]; exact index_at ⟨j, hj⟩
    have hkj : k.index.val < j := by rw [hej] at hk; exact hk
    have hk' := hb k.index hkj
    rwa [Bool.not_eq_true', show decodeTable[k.index.val] = k from at_index k] at hk'
  · have hj' : j < 12 := hj.trans e.index.isLt
    rw [Bool.not_eq_true']
    exact hb (decodeTable[j]'hj') (by rw [index_at ⟨j, hj'⟩]; exact hj)

theorem findEntry_eq_none_iff {w : Word} : findEntry w = none ↔ ∀ e : Entry, e.matchesWord w = false := by
  have mem (e : Entry) : e ∈ decodeTable := by cases e <;> decide
  simp [findEntry, mem]

/-- Two entries are apart when they ask for different values of some bit, and so match no word both. -/
theorem Entry.not_matchesWord_of_apart {k e : Entry} {w : Word} (ha : k.value &&& e.mask ≠ e.value &&& k.mask)
    (h : e.matchesWord w = true) : k.matchesWord w = false := by
  rw [Bool.eq_false_iff]
  intro hk
  apply ha
  rw [← matchesWord_iff.1 hk, ← matchesWord_iff.1 h, BitVec.and_assoc, BitVec.and_assoc, BitVec.and_comm k.mask]

/-- The table's order matters for the words of MRS and MSR alone (R134): every other entry is apart from those before it. -/
theorem Entry.apart_of_index_lt {k e : Entry} (h : k.index < e.index) :
    k.value &&& e.mask ≠ e.value &&& k.mask ∨ k = .mrs ∧ e = .dps ∨ k = .msrr ∧ e = .dps ∨ k = .msri ∧ e = .dpi := by
  revert h
  cases k <;> cases e <;> decide

/-! ## The words that two entries share -/

theorem and_eq_self_of_ones {n : Nat} {m : BitVec n} (h : m = BitVec.allOnes n) (x : BitVec n) : x &&& m = x := by
  rw [h, BitVec.and_allOnes]

theorem ofBool_eq_zero (b : Bool) : BitVec.ofBool b = 0#1 ↔ b = false := BitVec.ofBool_eq_iff_eq (b' := false)

theorem ShiftKind.bits_eq_zero (k : ShiftKind) : k.bits = 0#2 ↔ k = .lsl := by cases k <;> decide

/-- TST and CMP differ in the R bit of MRS. -/
theorem DpOp.sharesMrs_iff (op : DpOp) : op.sharesMrs = true ↔ op.bits &&& 0b1101#4 = 0b1000#4 := by
  cases op <;> decide

/-- TEQ and CMN differ in the R bit of MSR. -/
theorem DpOp.sharesMsr_iff (op : DpOp) : op.sharesMsr = true ↔ op.bits &&& 0b1101#4 = 0b1001#4 := by
  cases op <;> decide

/-- The fields of format DPS, start and length (R113); they cover the word. -/
def dpsFields : List (Nat × Nat) :=
  [(28, 4), (25, 3), (21, 4), (20, 1), (16, 4), (12, 4), (7, 5), (5, 2), (4, 1), (0, 4)]

/-- A match field by field, along the fields of DPS. -/
theorem Entry.matchesWord_iff_fields {e : Entry} {w : Word} : e.matchesWord w = true ↔
    ∀ p ∈ dpsFields, w.extractLsb' p.1 p.2 &&& e.mask.extractLsb' p.1 p.2 = e.value.extractLsb' p.1 p.2 := by
  refine ⟨fun h p _ => maskedField_of_matchesWord h p.1 p.2, fun h => ?_⟩
  have whole (x : Word) : x.extractLsb' 28 4 ++ x.extractLsb' 25 3 ++ x.extractLsb' 21 4 ++ x.extractLsb' 20 1 ++
      x.extractLsb' 16 4 ++ x.extractLsb' 12 4 ++ x.extractLsb' 7 5 ++ x.extractLsb' 5 2 ++ x.extractLsb' 4 1 ++
      x.extractLsb' 0 4 = x := by
    simp only [BitVec.extractLsb'_append_extractLsb'_eq_extractLsb', BitVec.extractLsb'_eq_self]
  simp only [dpsFields, List.forall_mem_cons, ← BitVec.extractLsb'_and] at h
  obtain ⟨h28, h25, h21, h20, h16, h12, h7, h5, h4, h0, -⟩ := h
  rw [matchesWord_iff, ← whole (w &&& e.mask), h28, h25, h21, h20, h16, h12, h7, h5, h4, h0, whole]

section
variable (op : DpOp)

/-- The words of DPS that are MRS's. -/
theorem matchesWord_mrs_dps (f : Dps) :
    Entry.mrs.matchesWord (Form.dps op f).encode = (op.sharesMrs && f.isMrsWord) := by
  rw [Bool.eq_iff_iff, Entry.matchesWord_iff_fields]
  simp (disch := decide) only [dpsFields, List.forall_mem_cons, Form.encode, BitVec.extractLsb'_append_eq_of_add_le,
    BitVec.extractLsb'_append_eq_of_le, BitVec.extractLsb'_eq_self, Nat.reduceSub]
  simp (disch := decide) [Entry.mask, Entry.value, Dps.isMrsWord, DpOp.sharesMrs_iff, ShiftKind.bits_eq_zero,
    ofBool_eq_zero, and_assoc, and_eq_self_of_ones]

/-- The words of DPS that are MSR's, register form. -/
theorem matchesWord_msrr_dps (f : Dps) :
    Entry.msrr.matchesWord (Form.dps op f).encode = (op.sharesMsr && f.isMsrWord) := by
  rw [Bool.eq_iff_iff, Entry.matchesWord_iff_fields]
  simp (disch := decide) only [dpsFields, List.forall_mem_cons, Form.encode, BitVec.extractLsb'_append_eq_of_add_le,
    BitVec.extractLsb'_append_eq_of_le, BitVec.extractLsb'_eq_self, Nat.reduceSub]
  simp (disch := decide) [Entry.mask, Entry.value, Dps.isMsrWord, DpOp.sharesMsr_iff, ShiftKind.bits_eq_zero,
    ofBool_eq_zero, and_assoc, and_eq_self_of_ones]

/-- The words of DPI that are MSR's, immediate form. -/
theorem matchesWord_msri_dpi (f : Dpi) :
    Entry.msri.matchesWord (Form.dpi op f).encode = (op.sharesMsr && f.isMsrWord) := by
  rw [Bool.eq_iff_iff, Entry.matchesWord_iff_fields]
  simp (disch := decide) only [dpsFields, List.forall_mem_cons, Form.encode, BitVec.extractLsb'_append_eq_of_add_le,
    BitVec.extractLsb'_append_eq_of_le, BitVec.extractLsb'_eq_self, Nat.reduceSub]
  simp (disch := decide) [Entry.mask, Entry.value, Dpi.isMsrWord, DpOp.sharesMsr_iff, ofBool_eq_zero,
    and_eq_self_of_ones]

end

/-! ## Decoding and encoding -/

/-- The well-formed instructions are those whose word matches no entry before their own. -/
theorem Form.wellFormed_iff (f : Form) : f.wellFormed = true ↔ findEntry f.encode = some f.entry := by
  rw [findEntry_eq_some_iff, and_iff_right f.matchesWord_encode]
  have before {k : Entry} (hk : k.index < f.entry.index) := Entry.apart_of_index_lt hk
  have other {k : Entry} (ha : k.value &&& f.entry.mask ≠ f.entry.value &&& k.mask) : k.matchesWord f.encode = false :=
    Entry.not_matchesWord_of_apart ha f.matchesWord_encode
  cases f with
  | dps op f =>
    have hmrs : Entry.mrs.index < Entry.dps.index := by decide
    have hmsrr : Entry.msrr.index < Entry.dps.index := by decide
    rw [wellFormed, ← matchesWord_mrs_dps, ← matchesWord_msrr_dps, Bool.and_eq_true, Bool.not_eq_true', Bool.not_eq_true']
    refine ⟨fun ⟨h₁, h₂⟩ k hk => ?_, fun h => ⟨h .mrs hmrs, h .msrr hmsrr⟩⟩
    obtain ha | ⟨rfl, -⟩ | ⟨rfl, -⟩ | ⟨-, he⟩ := before hk
    · exact other ha
    · exact h₁
    · exact h₂
    · cases he
  | dpi op f =>
    have hmsri : Entry.msri.index < Entry.dpi.index := by decide
    rw [wellFormed, ← matchesWord_msri_dpi, Bool.not_eq_true']
    refine ⟨fun h k hk => ?_, fun h => h .msri hmsri⟩
    obtain ha | ⟨-, he⟩ | ⟨-, he⟩ | ⟨rfl, -⟩ := before hk
    · exact other ha
    · cases he
    · cases he
    · exact h
  | _ =>
    refine iff_of_true rfl fun k hk => ?_
    obtain ha | ⟨-, he⟩ | ⟨-, he⟩ | ⟨-, he⟩ := before hk
    · exact other ha
    all_goals cases he

/-- Decoding and encoding are inverse to each other between the words that decode and the well-formed instructions. -/
theorem decodeWord_eq_ok_iff {w : Word} {i : Instr} : decodeWord w = .ok i ↔ encode i = w ∧ i.wellFormed = true := by
  unfold decodeWord
  constructor
  · intro h
    split at h
    · rename_i e he
      cases h
      have hw : (e.formOf w).encode = w :=
        Entry.encode_formOf (Entry.fixed_of_matchesWord (findEntry_eq_some_iff.1 he).1)
      refine ⟨by rw [encode, Form.form_instr, hw], ?_⟩
      rw [Instr.wellFormed, Form.form_instr, Form.wellFormed_iff, hw, Entry.entry_formOf, he]
    · cases h
  · rintro ⟨rfl, hi⟩
    rw [encode, i.form.wellFormed_iff.1 hi]
    simp only [Form.formOf_encode, Instr.instr_form]

/-- The bytes of a word that decodes, and whatever follows them (R110). -/
theorem decode_bytesOfWord {w : Word} {i : Instr} (h : decodeWord w = .ok i) (rest : List Byte) :
    decode (bytesOfWord w ++ rest) = .ok (i, rest) := by
  simp [bytesOfWord, decode, Machine.wordOfBytes_bytesOfWord, h]

/-- Settles O50: `decodeWord_eq_ok_iff` read from right to left, and the word is its four bytes. -/
theorem decodeOfEncode : Obligations.DecodeOfEncode := fun _ rest hi =>
  have h := decodeWord_eq_ok_iff.2 ⟨rfl, hi⟩
  ⟨h, decode_bytesOfWord h rest⟩

/-- Settles O51: `decodeWord_eq_ok_iff` read from left to right. -/
theorem encodeOfDecode : Obligations.EncodeOfDecode := fun _ _ => decodeWord_eq_ok_iff.1

/-! ## The words that match no entry -/

/-- The decoder refuses the words that match no entry (R137). -/
theorem decodeWord_eq_error_iff {w : Word} :
    decodeWord w = .error (.noEntry w) ↔ ∀ e : Entry, e.matchesWord w = false := by
  rw [← findEntry_eq_none_iff, decodeWord]
  cases findEntry w <;> simp

theorem field_one_iff {w : Word} {k : Nat} : w.extractLsb' k 1 = 1#1 ↔ w.getLsbD k = true := by
  rw [BitVec.getLsbD_eq_extractLsb', beq_iff_eq]

/-- The three classes of R138. -/
def InUndecodableSpace (w : Word) : Prop :=
  (w.extractLsb' 25 3 = 0b000#3 ∧ w.getLsbD 7 = true ∧ w.getLsbD 4 = true ∧ ¬Entry.mul.Fixed w) ∨
  (w.extractLsb' 25 3 = 0b011#3 ∧ w.getLsbD 4 = true) ∨
  (w.extractLsb' 25 3 = 0b110#3 ∨ w.extractLsb' 24 4 = 0b1110#4)

/-- By bits 27:25: outside the three classes some entry has its fixed fields in the word. -/
theorem inUndecodableSpace_of_unmatched {w : Word} (h : ∀ e : Entry, e.matchesWord w = false) : InUndecodableSpace w := by
  have unfixed (e : Entry) : ¬e.Fixed w := by rw [← Entry.matchesWord_iff_fixed, h e]; simp
  have bit : ∀ b : BitVec 1, b = 0#1 ∨ b = 1#1 := by decide
  have space : ∀ b : BitVec 3, b = 0b000#3 ∨ b = 0b001#3 ∨ b = 0b010#3 ∨ b = 0b011#3 ∨ b = 0b100#3 ∨ b = 0b101#3 ∨
      b = 0b110#3 ∨ b = 0b111#3 := by decide
  obtain t | t | t | t | t | t | t | t := space (w.extractLsb' 25 3)
  · obtain b4 | b4 := bit (w.extractLsb' 4 1)
    · exact absurd ⟨t, b4⟩ (unfixed .dps)
    obtain b7 | b7 := bit (w.extractLsb' 7 1)
    · exact absurd ⟨t, b7, b4⟩ (unfixed .dpr)
    exact .inl ⟨t, field_one_iff.1 b7, field_one_iff.1 b4, unfixed .mul⟩
  · exact absurd t (unfixed .dpi)
  · exact absurd t (unfixed .lsi)
  · obtain b4 | b4 := bit (w.extractLsb' 4 1)
    · exact absurd ⟨t, b4⟩ (unfixed .lsr)
    exact .inr (.inl ⟨t, field_one_iff.1 b4⟩)
  · exact absurd t (unfixed .bt)
  · exact absurd t (unfixed .br)
  · exact .inr (.inr (.inl t))
  · have join : w.extractLsb' 25 3 ++ w.extractLsb' 24 1 = w.extractLsb' 24 4 :=
      BitVec.extractLsb'_append_extractLsb'_eq_extractLsb' rfl
    obtain b24 | b24 := bit (w.extractLsb' 24 1) <;> rw [t, b24] at join
    · exact .inr (.inr (.inr join.symm))
    · exact absurd join.symm (unfixed .swi)

/-- In each class every entry asks for another value of bits 27:24, 7 or 4, but MUL, which the first class leaves out. -/
theorem unmatched_of_inUndecodableSpace {w : Word} (h : InUndecodableSpace w) (e : Entry) : e.matchesWord w = false := by
  rw [Bool.eq_false_iff]
  intro he
  have field := Entry.maskedField_of_matchesWord he
  obtain ⟨t, b7, b4, hm⟩ | ⟨t, b4⟩ | t | t := h
  · have f25 := t ▸ field 25 3
    have f7 := field_one_iff.2 b7 ▸ field 7 1
    have f4 := field_one_iff.2 b4 ▸ field 4 1
    cases e with
    | mul => exact hm (Entry.fixed_of_matchesWord he)
    | dpr => exact absurd f7 (by decide)
    | mrs | msrr | dps => exact absurd f4 (by decide)
    | _ => exact absurd f25 (by decide)
  · have f25 := t ▸ field 25 3
    have f4 := field_one_iff.2 b4 ▸ field 4 1
    cases e with
    | lsr => exact absurd f4 (by decide)
    | _ => exact absurd f25 (by decide)
  · have f25 := t ▸ field 25 3
    cases e <;> exact absurd f25 (by decide)
  · have f24 := t ▸ field 24 4
    cases e <;> exact absurd f24 (by decide)

/-- Settles O52: the decoder refuses a word when no entry matches it, which is so in the three classes alone. -/
theorem undecodableWords : Obligations.UndecodableWords := fun _ =>
  decodeWord_eq_error_iff.trans ⟨inUndecodableSpace_of_unmatched, unmatched_of_inUndecodableSpace⟩

/-- Settles O53: the decoder run on the twelve words. -/
theorem exampleWordsDecode : Obligations.ExampleWordsDecode := by
  unfold Obligations.ExampleWordsDecode
  decide

end Sys2Proof

/-!
PROOFS. The right operands bit by bit (30_encoding.md R126, 42_data_processing.md R243, R246).
-/

namespace Sys2Proof.Machine

open Sys2Proof

/-- A rotation moves every bit down, modulo the width. -/
theorem getLsbD_rotateRight_mod (v : Word) (r : Nat) {k : Nat} (hk : k < 32) :
    (v.rotateRight r).getLsbD k = v.getLsbD ((k + r) % 32) := by
  rw [BitVec.getLsbD_rotateRight, Bool.cond_decide, decide_eq_true hk, Bool.true_and]
  split <;> congr 1 <;> omega

/-- R126, bit by bit. -/
theorem getLsbD_rotatedImm (rotate : BitVec 4) (imm8 : BitVec 8) {k : Nat} (hk : k < 32) :
    (rotatedImm rotate imm8).getLsbD k =
      (decide ((k + 2 * rotate.toNat) % 32 < 8) && imm8.getLsbD ((k + 2 * rotate.toNat) % 32)) := by
  rw [rotatedImm, getLsbD_rotateRight_mod _ _ hk, BitVec.getLsbD_setWidth]
  generalize (k + 2 * rotate.toNat) % 32 = j
  obtain hj | hj := Nat.lt_or_ge j 8
  · rw [decide_eq_true hj, decide_eq_true (hj.trans (by decide))]
  · rw [BitVec.getLsbD_of_ge _ _ hj, Bool.and_false, Bool.and_false]

/-- An immediate amount that is not 0 shifts as R243. -/
theorem immShift_of_ne_zero (kind : ShiftKind) (v : Word) {n : BitVec 5} (hn : n ≠ 0#5) (c : Bool) :
    immShift kind v n c = shiftBy kind v n.toNat := if_neg hn

/-- Settles O13: the bits of a rotation by `getLsbD_rotateRight_mod`, those of the other shifts by the library; the carries are
read off `shiftBy` and `immOperand`. -/
theorem operandBits : Obligations.OperandBits := by
  refine ⟨fun f c => ⟨fun k hk => getLsbD_rotatedImm _ _ hk, rfl⟩, fun v c => rfl, fun v c n hn k hk => ?_⟩
  rw [immShift_of_ne_zero _ _ hn, immShift_of_ne_zero _ _ hn, immShift_of_ne_zero _ _ hn, immShift_of_ne_zero _ _ hn]
  refine ⟨?_, rfl, ?_, rfl, ?_, rfl, getLsbD_rotateRight_mod _ _ hk, rfl⟩
  · rw [shiftBy, BitVec.getLsbD_shiftLeft, decide_eq_true hk, Bool.true_and]
    simp only [← decide_not, Nat.not_lt]
  · rw [shiftBy, BitVec.getLsbD_ushiftRight, Nat.add_comm]
  · rw [shiftBy, BitVec.getLsbD_sshiftRight, Nat.add_comm, BitVec.msb_eq_getLsbD_last]
    simp [hk]

end Sys2Proof.Machine

/-!
PROOFS. What ends a session (10_state.md R54, 30_encoding.md R137): a word that matches no entry, and any fault once recorded.
-/

namespace Sys2Proof.Machine

open Sys2Proof

/-- The poll and the exception service leave the regions behind the bus alone. -/
theorem dispatched_plainAccess (s : State) (width : Width) (a : Word) :
    (dispatched s).plainAccess width a = s.plainAccess width a := by
  unfold dispatched takeException
  split <;> simp [State.plainAccess, hostAfterPoll]

/-- A fetch cycle that shifts out a word that matches no entry stops after the fetch (R137). -/
theorem fetchCycle_noDecode {s : State} {q0 q1 : Fetched} {e : DecodeError} (hq : (dispatched s).cpu.queue = .two q0 q1)
    (he : decodeWord q0.word = .error e) (hp : s.plainAccess .word (dispatched s).cpu.pc = true) :
    fetchCycle s = raise (.unimpNoDecode q0.word q0.addr) (dispatched s) := by
  have fetched : fetchWord (dispatched s) = .next ((dispatched s).mem.load .word (dispatched s).cpu.pc, dispatched s) :=
    busRead_plain (by rw [dispatched_plainAccess, hp]) _ _
  simp only [fetchCycle, hq, decodeExecute, fetched, andThen_next, he]

/-- A session that has faulted answers its fault (R54). -/
theorem step_of_fault {s : State} {f : Fatal} (h : s.fault = some f) : step s = raise f s := by
  simp only [step, h]

/-- A session whose LOOKAHEAD is no stamp has faulted at construction (log 22). -/
theorem powerOn_fault {config : Config} (hd : 0 < config.nDomains) (hl : 2 ^ 64 ≤ lookahead config) :
    (State.powerOn config).fault = some (.intStampOverflow 0 (lookahead config)) := by
  have fits : lookaheadFits config = false := decide_eq_false (by unfold lookahead at hl; omega)
  have domains : (config.nDomains == 0) = false := beq_false_of_ne (Nat.ne_of_gt hd)
  simp only [State.powerOn, constructionFault, fits, domains]
  rfl

/-- Settles O39: a word that matches no entry stops the fetch cycle, and `step` looks at the session's fault first. -/
theorem faultsEndTheSession : Obligations.FaultsEndTheSession := by
  refine ⟨fun s boot q0 q1 e hf hc ht hq he hp => ?_, fun s r _ => ⟨rfl, rfl, step_of_fault rfl⟩,
    fun config hd hl => step_of_fault (powerOn_fault hd hl)⟩
  simp only [step, hf, hc, turnStep, ht, fetchCycle_noDecode hq he hp, andThen_raise, ↓reduceIte]

end Sys2Proof.Machine

/-!
PROOFS. The operations of the scheduler (40_scheduler.md): what each one leaves where no fault stops it, and the laws of R163.
-/

namespace Sys2Proof.Machine

open Sys2Proof

/-! ## The target (R151) -/

/-- A list with an event, or a stamp whose fallback is a stamp, has a target, and it is the right one. -/
theorem targetFor_fits {config : Config} (events : List EventSlot) (c : Clock)
    (fits : c.list = [] → c.stamp.toNat + lookahead config < 2 ^ 64) :
    ∃ w, targetFor config events c.stamp c.list = some w ∧ { c with target := w }.targetRight config events := by
  unfold targetFor Clock.targetRight
  cases hl : c.list with
  | nil =>
    have hlt := fits hl
    refine ⟨_, if_neg (by omega), ?_⟩
    simp only [BitVec.toNat_add, BitVec.toNat_ofNat]
    omega
  | cons h rest => exact ⟨_, rfl, rfl⟩

theorem targetFor_nil_overflow {config : Config} (events : List EventSlot) {stamp : Stamp}
    (h : 2 ^ 64 ≤ stamp.toNat + lookahead config) : targetFor config events stamp [] = none := if_pos (by omega)

/-- The right target is determined by stamp and list. -/
theorem Clock.eq_of_targetRight {config : Config} {events : List EventSlot} {c k : Clock} (hs : k.stamp = c.stamp)
    (hl : k.list = c.list) (hk : k.targetRight config events) (hc : c.targetRight config events) : k = c := by
  obtain ⟨stamp, target, list⟩ := c
  obtain ⟨stamp', target', list'⟩ := k
  obtain rfl : stamp' = stamp := hs
  obtain rfl : list' = list := hl
  have ht : target' = target := by
    cases list' with
    | nil => exact BitVec.eq_of_toNat_eq (hk.trans hc.symm)
    | cons h rest => exact hk.trans hc.symm
  rw [ht]

/-- A slot rewritten with the `when` it had makes no target right or wrong. -/
theorem targetRight_set_same {config : Config} {events : List EventSlot} {e : Nat} {x x' : EventSlot} {c : Clock}
    (hx : events[e]? = some x) (hw : x'.when = x.when) :
    c.targetRight config (events.set e x') ↔ c.targetRight config events := by
  simp only [Clock.targetRight, whenOf_set_same hx hw]

/-! ## Recomputing the target after a Clock has been replaced -/

section
variable {d : Nat} {u : State} {c : Clock} (hc : u.clock d = some c)
include hc

theorem recomputeTarget_setClock (k : Clock) (fits : k.list = [] → k.stamp.toNat + lookahead u.config < 2 ^ 64) :
    ∃ w, recomputeTarget d (u.setClock d k) = .next (u.setClock d { k with target := w }) ∧
      { k with target := w }.targetRight u.config u.sched.events := by
  obtain ⟨w, hw, right⟩ := targetFor_fits u.sched.events k fits
  refine ⟨w, ?_, right⟩
  simp only [recomputeTarget, clock_setClock_self hc, setClock_config, setClock_events, hw]
  simp only [State.setClock, List.set_set]

theorem recomputeTarget_setClock_overflow {k : Clock} (hl : k.list = [])
    (h : 2 ^ 64 ≤ k.stamp.toNat + lookahead u.config) :
    recomputeTarget d (u.setClock d k) = raise (.intStampOverflow k.stamp (lookahead u.config)) (u.setClock d k) := by
  simp only [recomputeTarget, clock_setClock_self hc, setClock_config, hl, targetFor_nil_overflow _ h]

/-- Where it completes, the Clock has the new stamp and list, and no event has changed. -/
theorem recomputeTarget_setClock_next {k : Clock} {t : State} (h : recomputeTarget d (u.setClock d k) = .next t) :
    t.sched.events = u.sched.events ∧ ∃ k', t.clock d = some k' ∧ k'.stamp = k.stamp ∧ k'.list = k.list := by
  obtain ⟨k', w, hk, -, rfl⟩ := recomputeTarget_next h
  cases hk.symm.trans (clock_setClock_self hc k)
  exact ⟨rfl, _, clock_setClock_self (clock_setClock_self hc k) _, rfl, rfl⟩

end

/-! ## What each operation does where no fault stops it -/

/-- The check that a stamp is past lets every other stamp through. -/
theorem not_checked_past {checks : Bool} {a b : Stamp} (h : checks = true → a ≤ b) : ¬(checks = true ∧ b < a) :=
  fun ⟨hk, hlt⟩ => BitVec.not_lt.2 (h hk) hlt

section
variable {d e : Nat} {w : Stamp} {s : State} {c : Clock} {x : EventSlot} {rest : List Nat} (hc : s.clock d = some c)
include hc

theorem schedule_eq (hx : s.event e = some x) (hl : x.link = .unscheduled)
    (hi : s.config.integrityChecks = true → c.stamp ≤ w) :
    schedule d e w s = recomputeTarget d ((s.setEvent e ⟨w, x.handler, .inDomain d⟩).afterInsert.setClock d
      { c with list := insertSorted s (s.sched.events.set e ⟨w, x.handler, .inDomain d⟩) w e c.list }) := by
  simp only [schedule, hc, hx, hl, ne_eq, not_true_eq_false, if_false, if_neg (not_checked_past hi), setEvent_events]

theorem cancel_eq (hx : s.event e = some x) (hl : x.link = .inDomain d)
    (hi : s.config.integrityChecks = true → c.stamp ≤ x.when) :
    cancel d e s = recomputeTarget d ((s.setEvent e { x with link := .unscheduled }).setClock d
      { c with list := c.list.filter (fun g => g != e) }) := by
  simp only [cancel, hc, hx, hl, ne_eq, not_true_eq_false, if_false, if_neg (not_checked_past hi), bne, beq_eq_decide,
    decide_not]

theorem popEarliest_eq (hl : c.list = e :: rest) (hx : s.event e = some x)
    (hi : s.config.integrityChecks = true → c.stamp ≤ x.when) :
    popEarliest d s = andThen (recomputeTarget d ((s.setEvent e { x with link := .unscheduled }).setClock d
      { c with list := rest })) fun t => .next (some e, t) := by
  simp only [popEarliest, hc, hl, hx, if_neg (not_checked_past hi)]

theorem advanceStamp_eq (hw : c.stamp ≤ w)
    (hi : s.config.integrityChecks = true → ∀ h ∈ c.list.head?, w ≤ whenOf s.sched.events h) :
    advanceStamp d w s = recomputeTarget d (s.setClock d { c with stamp := w }) := by
  simp only [advanceStamp, hc, if_neg (BitVec.not_lt.2 hw)]
  split
  · rfl
  · rename_i h rest hl
    exact if_neg (not_checked_past fun hk => hi hk h (by rw [hl]; rfl))

end

/-! ## schedule (R152, R153) -/

/-- Whatever the order among equals: the event takes the place `insertSorted` gives it, and the target is the new head's
`when`. -/
theorem schedule_inserts {d e : Nat} {w : Stamp} {s : State} {c : Clock} {x : EventSlot} {before after : List Nat}
    (hc : s.clock d = some c) (hx : s.event e = some x) (hl : x.link = .unscheduled)
    (hi : s.config.integrityChecks = true → c.stamp ≤ w)
    (place : insertSorted s (s.sched.events.set e ⟨w, x.handler, .inDomain d⟩) w e c.list = before ++ e :: after) :
    ∃ t, schedule d e w s = .next t ∧ t.sched.events = s.sched.events.set e ⟨w, x.handler, .inDomain d⟩ ∧
      t.clock d = some ⟨c.stamp, whenOf t.sched.events ((before ++ [e]).headD e), before ++ e :: after⟩ ∧
      t.event e = some ⟨w, x.handler, .inDomain d⟩ ∧ (∀ k, k ≠ e → t.event k = s.event k) ∧
      (∀ k, k ≠ d → t.clock k = s.clock k) ∧ t.draws = s.afterInsert.draws ∧ HostSame s t := by
  have hc' : (s.setEvent e ⟨w, x.handler, .inDomain d⟩).afterInsert.clock d = some c := by simpa using hc
  obtain ⟨target, next, right⟩ := recomputeTarget_setClock hc' { c with list := before ++ e :: after } (by simp)
  have head : target = whenOf (s.setEvent e ⟨w, x.handler, .inDomain d⟩).afterInsert.sched.events
      ((before ++ [e]).headD e) := by
    cases before <;> exact right
  refine ⟨_, by rw [schedule_eq hc hx hl hi, place, next], by simp, ?_, ?_, fun k hk => ?_, fun k hk => ?_, ?_,
    by constructor <;> simp⟩
  · rw [clock_setClock_self hc', head, setClock_events]
  · simpa using event_setEvent_self hx _
  · simpa using event_setEvent_ne hk _
  · rw [clock_setClock_ne hk, clock_afterInsert, clock_setEvent]
  · rw [setClock_draws]
    simp only [State.afterInsert, setEvent_config]
    split <;> rfl

/-- Settles O40: `insertFifo_split` gives the place, `schedule_inserts` the rest. -/
theorem scheduleInserts : Obligations.ScheduleInserts := by
  intro d e w s c x hc hx
  refine ⟨fun hl => ?_, fun hl hk hw => ?_, fun hl hi hf => ?_⟩
  · simp only [schedule, hc, hx, if_pos hl]
  · simp only [schedule, hc, hx, hl, hk, hw, ne_eq, not_true_eq_false, if_false, and_self, if_true]
  · obtain ⟨before, after, place, split, later, earlier⟩ :=
      insertFifo_split (s.sched.events.set e ⟨w, x.handler, .inDomain d⟩) w e c.list
    obtain ⟨t, next, events, clock, self, others, domains, -, same⟩ :=
      schedule_inserts hc hx hl hi (by simpa only [insertSorted, hf] using place)
    rw [← events] at later earlier
    exact ⟨t, before, after, next, split, clock, later, earlier, self, others, domains, same⟩

/-! ## cancel and pop_earliest (R154, R155) -/

/-- What cancel and pop end in, with the event unlinked and the Clock's list replaced: the target follows the new list. -/
theorem unlink_relist {d e : Nat} {s : State} {c : Clock} {x : EventSlot} {l : List Nat} (hc : s.clock d = some c)
    (hx : s.event e = some x) (fits : l = [] → c.stamp.toNat + lookahead s.config < 2 ^ 64) :
    ∃ t k, recomputeTarget d ((s.setEvent e { x with link := .unscheduled }).setClock d { c with list := l }) = .next t ∧
      t.clock d = some k ∧ k.stamp = c.stamp ∧ k.list = l ∧ k.targetRight s.config s.sched.events ∧
      t.event e = some ⟨x.when, x.handler, .unscheduled⟩ ∧ (∀ g, g ≠ e → t.event g = s.event g) ∧
      (∀ k, k ≠ d → t.clock k = s.clock k) ∧ HostSame s t := by
  have hc' : (s.setEvent e { x with link := .unscheduled }).clock d = some c := hc
  obtain ⟨w, next, right⟩ := recomputeTarget_setClock hc' { c with list := l } fits
  exact ⟨_, _, next, clock_setClock_self hc' _, rfl, rfl, (targetRight_set_same hx (by rfl)).1 right,
    event_setEvent_self hx _, fun g hg => event_setEvent_ne hg _, fun k hk => clock_setClock_ne hk _,
    ⟨rfl, rfl, rfl, rfl, rfl, rfl, rfl⟩⟩

/-- Settles O41: `cancel` is `unlink_relist` with the event filtered out of the list. -/
theorem cancelRemoves : Obligations.CancelRemoves := by
  intro d e s c x hc hx
  refine ⟨fun hl => ?_, fun hl hk hw => ?_, fun hl hi fits => ?_, fun hl hi empty hov => ?_⟩
  · simp only [cancel, hc, hx, if_pos hl]
  · simp only [cancel, hc, hx, hl, hk, hw, ne_eq, not_true_eq_false, if_false, and_self, if_true]
  · rw [cancel_eq hc hx hl hi]
    exact unlink_relist hc hx fits
  · rw [cancel_eq hc hx hl hi, empty]
    exact recomputeTarget_setClock_overflow (u := s.setEvent e _) hc rfl hov

/-- Settles O42: `popEarliest` is `unlink_relist` with the head dropped from the list. -/
theorem popTakesEarliest : Obligations.PopTakesEarliest := by
  intro d s c hc
  refine ⟨fun hl => ?_, fun h rest x hl hx => ⟨fun hk hw => ?_, fun hi fits => ?_, fun hi empty hov => ?_⟩⟩
  · simp only [popEarliest, hc, hl]
  · simp only [popEarliest, hc, hl, hx, hk, hw, and_self, if_true]
  · obtain ⟨t, k, next, left⟩ := unlink_relist hc hx fits
    exact ⟨t, k, by rw [popEarliest_eq hc hl hx hi, next, andThen_next], left⟩
  · rw [popEarliest_eq hc hl hx hi, empty]
    exact congrArg (andThen · _)
      (recomputeTarget_setClock_overflow (u := s.setEvent h _) (k := { c with list := [] }) hc rfl hov)

/-! ## advance_stamp (R158) -/

/-- Settles O43: the two faults are its own, and past them the target follows the moved stamp. -/
theorem advanceStampMovesForward : Obligations.AdvanceStampMovesForward := by
  intro d w s c hc
  refine ⟨fun hw => ?_, fun h rest hl hw hk ho => ?_, fun hw hi fits => ?_, fun hw hl hov => ?_⟩
  · simp only [advanceStamp, hc, if_pos hw]
  · simp only [advanceStamp, hc, if_neg (BitVec.not_lt.2 hw), hl, hk, ho, and_self, if_true]
  · obtain ⟨target, next, right⟩ := recomputeTarget_setClock hc { c with stamp := w } fits
    exact ⟨_, _, (advanceStamp_eq hc hw hi).trans next, clock_setClock_self hc _, rfl, rfl, right, rfl,
      fun k hk => clock_setClock_ne hk _, ⟨rfl, rfl, rfl, rfl, rfl, rfl, rfl⟩⟩
  · rw [advanceStamp_eq hc hw (by simp [hl])]
    exact recomputeTarget_setClock_overflow hc hl hov

/-! ## init_event and the slots of linked events (R159) -/

/-- A slot rewritten under its `when` and handler, or one that was not linked, leaves a linked event's `when` and handler. -/
theorem setEvent_slot {s : State} {e f : Nat} {x y x' : EventSlot} (hx : s.event e = some x) (hy : s.event f = some y)
    (keeps : f = e → x'.when = x.when ∧ x'.handler = x.handler) :
    ∃ y', (s.setEvent e x').event f = some y' ∧ y'.when = y.when ∧ y'.handler = y.handler := by
  by_cases he : f = e
  · subst he
    cases hx.symm.trans hy
    exact ⟨x', event_setEvent_self hx _, keeps rfl⟩
  · exact ⟨y, by rw [event_setEvent_ne he, hy], rfl, rfl⟩

/-- Recomputing a target writes no event slot. -/
theorem recomputeTarget_event {d : Nat} {s t : State} (h : recomputeTarget d s = .next t) (e : Nat) :
    t.event e = s.event e := by
  obtain ⟨c, w, -, -, rfl⟩ := recomputeTarget_next h
  rfl

/-- No host call writes the `when` or the handler of a linked event. -/
theorem hostCall_linked_slot {call : HostCall} {e : Nat} {s t : State} {x : EventSlot} (hx : s.event e = some x)
    (hl : x.link ≠ .unscheduled) (h : hostCall call s = .next t) :
    ∃ y, t.event e = some y ∧ y.when = x.when ∧ y.handler = x.handler := by
  have apart {f : Nat} {z : EventSlot} (hz : s.event f = some z) (hu : z.link = .unscheduled) : e ≠ f := by
    rintro rfl
    cases hx.symm.trans hz
    exact hl hu
  cases call with
  | schedule d f w =>
    obtain ⟨c, z, -, hz, hu, -, hr⟩ := schedule_next h
    rw [recomputeTarget_event hr, event_setClock, event_afterInsert]
    exact setEvent_slot hz hx fun he => absurd he (apart hz hu)
  | cancel d f =>
    obtain ⟨c, z, -, hz, -, -, hr⟩ := cancel_next h
    rw [recomputeTarget_event hr, event_setClock]
    exact setEvent_slot hz hx fun _ => ⟨rfl, rfl⟩
  | popEarliest d =>
    obtain ⟨⟨o, u⟩, hp, ht⟩ := andThen_eq_next.1 h
    cases ht
    obtain ⟨c, -, ⟨-, -, rfl⟩ | ⟨f, rest, z, -, -, hz, -, hr⟩⟩ := popEarliest_next hp
    · exact ⟨x, hx, rfl, rfl⟩
    · rw [recomputeTarget_event hr, event_setClock]
      exact setEvent_slot hz hx fun _ => ⟨rfl, rfl⟩
  | peekEarliest d | targetStamp d =>
    simp only [hostCall] at h
    split at h
    · cases h; exact ⟨x, hx, rfl, rfl⟩
    · cases h
  | initEvent f k =>
    obtain ⟨z, hz, hu, rfl⟩ := initEvent_next h
    exact setEvent_slot hz hx fun he => absurd he (apart hz hu)
  | setIrqLine l | setFiqLine l | busRead a w => cases h; exact ⟨x, hx, rfl, rfl⟩
  | busWrite a w v =>
    simp only [hostCall] at h
    split at h <;> (cases h; exact ⟨x, hx, rfl, rfl⟩)

/-- Settles O44: `hostCall_linked_slot`, and the two outcomes of `initEvent`. -/
theorem initEventSetsHandler : Obligations.InitEventSetsHandler := by
  intro e k s x hx
  refine ⟨fun hl _ _ => hostCall_linked_slot hx hl, fun hl => ?_, fun hl => ⟨s.setEvent e ⟨x.when, k, .unscheduled⟩, ?_,
    event_setEvent_self hx _, fun g hg => event_setEvent_ne hg _, rfl, ⟨rfl, rfl, rfl, rfl, rfl, rfl, rfl⟩⟩⟩
  · simp only [initEvent, hx, if_pos hl]
  · simp only [initEvent, hx, hl, ne_eq, not_true_eq_false, if_false]

/-! ## Peek and the target under the invariants (R156, R157, R163) -/

theorem peekEarliest_eq {d : Nat} {s : State} {c : Clock} (hc : s.clock d = some c) : peekEarliest d s = c.list.head? := by
  simp only [peekEarliest, hc]

theorem targetStamp_eq {d : Nat} {s : State} {c : Clock} (hc : s.clock d = some c) : targetStamp d s = some c.target := by
  simp only [targetStamp, hc, Option.map_some]

/-- The list names every event linked in the domain. -/
theorem SchedulerInv.mem_list {s : State} (h : SchedulerInv s) {d e : Nat} {c : Clock} {x : EventSlot}
    (hc : s.clock d = some c) (he : s.event e = some x) (hx : x.link = .inDomain d) : e ∈ c.list := by
  obtain ⟨c', hc', hm⟩ := h.listed e x d he hx
  cases hc.symm.trans hc'
  exact hm

/-- The head of the list has the least `when` of it. -/
theorem ClockInv.head_le {config : Config} {events : List EventSlot} {d h e : Nat} {c : Clock}
    (hi : ClockInv config events d c) (hh : c.list.head? = some h) (he : e ∈ c.list) :
    whenOf events h ≤ whenOf events e := by
  obtain ⟨rest, hl⟩ := List.head?_eq_some_iff.1 hh
  have sorted := hi.sorted
  rw [hl] at sorted he
  obtain rfl | he := List.mem_cons.1 he
  · exact BitVec.le_refl _
  · exact (List.pairwise_cons.1 sorted).1 e he

theorem ClockInv.target_of_head {config : Config} {events : List EventSlot} {d h : Nat} {c : Clock}
    (hi : ClockInv config events d c) (hh : c.list.head? = some h) : c.target = whenOf events h := by
  obtain ⟨rest, hl⟩ := List.head?_eq_some_iff.1 hh
  simpa only [Clock.targetRight, hl] using hi.target

theorem ClockInv.target_of_nil {config : Config} {events : List EventSlot} {d : Nat} {c : Clock}
    (hi : ClockInv config events d c) (hl : c.list = []) : c.target.toNat = c.stamp.toNat + lookahead config := by
  simpa only [Clock.targetRight, hl] using hi.target

/-! ## Cancel and schedule again (R163) -/

/-- A list cut between the elements at most `w` and those at least `w`: its first part, where no element is at `w`. -/
theorem filter_le_append {f : Nat → Stamp} {w : Stamp} {a b : List Nat} (ha : ∀ g ∈ a, f g ≤ w)
    (hb : ∀ g ∈ b, w ≤ f g) (apart : ∀ g ∈ b, f g ≠ w) : (a ++ b).filter (fun g => decide (f g ≤ w)) = a := by
  have none : b.filter (fun g => decide (f g ≤ w)) = [] :=
    List.filter_eq_nil_iff.2 fun g hg hw => apart g hg (BitVec.le_antisymm (of_decide_eq_true hw) (hb g hg))
  rw [List.filter_append, none, List.append_nil, List.filter_eq_self.2 fun g hg => decide_eq_true (ha g hg)]

/-- Between events no later and events no earlier, none at its stamp, an event has one place. -/
theorem insertSorted_between (s : State) {events : List EventSlot} {w : Stamp} (e : Nat) {p q : List Nat}
    (sorted : (p ++ q).Pairwise fun f g => whenOf events f ≤ whenOf events g) (hp : ∀ g ∈ p, whenOf events g ≤ w)
    (hq : ∀ g ∈ q, w ≤ whenOf events g) (apart : ∀ g ∈ p ++ q, whenOf events g ≠ w) :
    insertSorted s events w e (p ++ q) = p ++ e :: q := by
  obtain ⟨a, b, place, split, ha, hb⟩ := insertSorted_split s events w e (p ++ q) sorted
  have hap : a = p := by
    rw [← filter_le_append ha hb fun g hg => apart g (split ▸ List.mem_append_right a hg), ← split,
      filter_le_append hp hq fun g hg => apart g (List.mem_append_right p hg)]
  subst hap
  rw [place, List.append_cancel_left split]

/-- In a sorted list an event whose stamp no other has, taken out and inserted again, stands where it stood. -/
theorem insertSorted_filter_self (s : State) {events : List EventSlot} {e : Nat} {l : List Nat}
    (sorted : l.Pairwise fun f g => whenOf events f ≤ whenOf events g) (once : l.Nodup) (he : e ∈ l)
    (apart : ∀ g ∈ l, g ≠ e → whenOf events g ≠ whenOf events e) :
    insertSorted s events (whenOf events e) e (l.filter (· ≠ e)) = l := by
  obtain ⟨p, q, rfl⟩ := List.append_of_mem he
  have absent : e ∉ p ++ q := (List.nodup_cons.1 (List.nodup_middle.1 once)).1
  have ne {g : Nat} (hg : g ∈ p ++ q) : g ≠ e := fun h => absent (h ▸ hg)
  have out : (p ++ e :: q).filter (· ≠ e) = p ++ q := by
    rw [List.filter_append, List.filter_cons_of_neg (by simp), ← List.filter_append,
      List.filter_eq_self.2 fun g hg => decide_eq_true (ne hg)]
  have sub : (p ++ q).Sublist (p ++ e :: q) := (List.sublist_cons_self e q).append_left p
  obtain ⟨-, tail, cross⟩ := List.pairwise_append.1 sorted
  rw [out]
  exact insertSorted_between s e (sorted.sublist sub) (fun g hg => cross g hg e List.mem_cons_self)
    (List.pairwise_cons.1 tail).1 fun g hg => apart g (sub.subset hg) (ne hg)

/-- A slot rewritten with what it holds. -/
theorem set_event_self {s : State} {e : Nat} {x : EventSlot} (hx : s.event e = some x) :
    s.sched.events.set e x = s.sched.events := by
  obtain ⟨he, rfl⟩ := List.getElem?_eq_some_iff.1 hx
  exact List.set_getElem_self he

section
variable {d e : Nat} {s t : State} {c : Clock} {x : EventSlot} (hc : s.clock d = some c) (hx : s.event e = some x)
include hc hx

theorem cancel_leaves (h : cancel d e s = .next t) :
    x.link = .inDomain d ∧ t.sched.events = s.sched.events.set e { x with link := .unscheduled } ∧
      ∃ k, t.clock d = some k ∧ k.stamp = c.stamp ∧ k.list = c.list.filter (· ≠ e) := by
  obtain ⟨c', x', hc', hx', hl, -, hr⟩ := cancel_next h
  cases hc.symm.trans hc'
  cases hx.symm.trans hx'
  exact ⟨hl, recomputeTarget_setClock_next (u := s.setEvent e _) hc hr⟩

theorem schedule_leaves {w : Stamp} (h : schedule d e w s = .next t) :
    t.sched.events = s.sched.events.set e ⟨w, x.handler, .inDomain d⟩ ∧
      ∃ k, t.clock d = some k ∧ k.stamp = c.stamp ∧ k.list = insertSorted s t.sched.events w e c.list := by
  obtain ⟨c', x', hc', hx', -, -, hr⟩ := schedule_next h
  cases hc.symm.trans hc'
  cases hx.symm.trans hx'
  obtain ⟨events, left⟩ := recomputeTarget_setClock_next (u := (s.setEvent e _).afterInsert) (by simpa using hc) hr
  rw [afterInsert_sched] at events
  exact ⟨events, by rw [events]; exact left⟩

end

/-- Cancel, and schedule again at the event's own stamp: the list, the slot and the target are the ones before. -/
theorem cancel_schedule_restores {d e : Nat} {s t u : State} {c : Clock} {x : EventSlot} (hs : SchedulerInv s)
    (hc : s.clock d = some c) (hx : s.event e = some x)
    (apart : ∀ g ∈ c.list, g ≠ e → whenOf s.sched.events g ≠ x.when) (ht : cancel d e s = .next t)
    (hu : schedule d e x.when t = .next u) : u.clock d = some c ∧ u.event e = some x := by
  obtain ⟨hl, events_t, c', hc', stamp_t, list_t⟩ := cancel_leaves hc hx ht
  have hx' : t.event e = some { x with link := .unscheduled } := by
    rw [State.event, events_t]
    exact event_setEvent_self hx _
  obtain ⟨events_u, k, hk, stamp_u, list_u⟩ := schedule_leaves hc' hx' hu
  have slot : (⟨x.when, x.handler, .inDomain d⟩ : EventSlot) = x := by rw [← hl]
  have events : u.sched.events = s.sched.events := by
    rw [events_u, events_t, List.set_set, slot, set_event_self hx]
  have config : u.config = s.config :=
    ((hostCall_keeps (c := .cancel d e) ht).trans (hostCall_keeps (c := .schedule d e x.when) hu)).config
  have before := hs.clocks d c hc
  have list : k.list = c.list := by
    rw [list_u, events, list_t, ← whenOf_event hx]
    exact insertSorted_filter_self t before.sorted before.once (hs.mem_list hc hx hl) (by rwa [whenOf_event hx])
  have after := (schedule_inv (cancel_inv hs ht) hu).clocks d k hk
  rw [config, events] at after
  rw [hk, Clock.eq_of_targetRight (stamp_u.trans stamp_t) list after.target before.target, State.event, events]
  exact ⟨rfl, hx⟩

/-! ## Any order among equals (log 9) -/

/-- How many events of the list are at stamp `w`. -/
def countAt (events : List EventSlot) (w : Stamp) (l : List Nat) : Nat := (l.filter fun g => whenOf events g == w).length

theorem countAt_cons_ne {events : List EventSlot} {w : Stamp} {f : Nat} (h : whenOf events f ≠ w) (l : List Nat) :
    countAt events w (f :: l) = countAt events w l := by
  rw [countAt, List.filter_cons_of_neg (by simpa using h), countAt]

theorem countAt_cons_eq {events : List EventSlot} {w : Stamp} {f : Nat} (h : whenOf events f = w) (l : List Nat) :
    countAt events w (f :: l) = countAt events w l + 1 := by
  rw [countAt, List.filter_cons_of_pos (by simpa using h), List.length_cons, countAt]

/-- In a list of later events none is at `w`. -/
theorem countAt_eq_zero {events : List EventSlot} {w : Stamp} {l : List Nat} (h : ∀ g ∈ l, w < whenOf events g) :
    countAt events w l = 0 := by
  rw [countAt, List.filter_eq_nil_iff.2, List.length_nil]
  exact fun g hg hw => BitVec.ne_of_lt (h g hg) (beq_iff_eq.1 hw).symm

/-- In a sorted list the event goes after as many of its equals as the free value says, or after all of them. -/
theorem insertAny_count (events : List EventSlot) (w : Stamp) (e k : Nat) (l : List Nat)
    (sorted : l.Pairwise fun f g => whenOf events f ≤ whenOf events g) :
    ∃ a b, insertAny events w e k l = a ++ e :: b ∧ l = a ++ b ∧
      countAt events w a = min k (countAt events w l) := by
  induction l generalizing k with
  | nil => cases k <;> exact ⟨[], [], rfl, rfl, by simp [countAt]⟩
  | cons f fs ih =>
    obtain ⟨least, rest⟩ := List.pairwise_cons.1 sorted
    by_cases early : whenOf events f < w
    · obtain ⟨a, b, place, split, count⟩ := ih k rest
      refine ⟨f :: a, b, ?_, by rw [split, List.cons_append], ?_⟩
      · cases k <;> simp only [insertAny, if_pos early, place, List.cons_append]
      · rw [countAt_cons_ne (BitVec.ne_of_lt early), countAt_cons_ne (BitVec.ne_of_lt early), count]
    by_cases equal : whenOf events f = w
    · cases k with
      | zero => exact ⟨[], f :: fs, by simp only [insertAny, if_neg early, List.nil_append], rfl, by simp [countAt]⟩
      | succ k =>
        obtain ⟨a, b, place, split, count⟩ := ih k rest
        refine ⟨f :: a, b, by simp only [insertAny, if_neg early, if_pos equal, place, List.cons_append],
          by rw [split, List.cons_append], ?_⟩
        rw [countAt_cons_eq equal, countAt_cons_eq equal, count, Nat.add_min_add_right]
    · have late : w < whenOf events f := BitVec.lt_of_le_ne (BitVec.not_lt.1 early) (Ne.symm equal)
      have none : countAt events w (f :: fs) = 0 := countAt_eq_zero fun g hg => by
        obtain rfl | hg := List.mem_cons.1 hg
        · exact late
        · exact Nat.lt_of_lt_of_le late (least g hg)
      refine ⟨[], f :: fs, ?_, rfl, by rw [none, Nat.min_zero]; rfl⟩
      cases k <;> simp only [insertAny, if_neg early, if_neg equal, List.nil_append]

/-- The place of an event that is not in the list, by `insertAny_split` and `insertAny_count`. -/
theorem insertAny_place (events : List EventSlot) (w : Stamp) {e : Nat} {l : List Nat} (absent : e ∉ l) (k : Nat)
    (sorted : l.Pairwise fun f g => whenOf events f ≤ whenOf events g) :
    ∃ a b, insertAny events w e k l = a ++ e :: b ∧ l = a ++ b ∧ (∀ g ∈ a, whenOf events g ≤ w) ∧
      (∀ g ∈ b, w ≤ whenOf events g) ∧ countAt events w a = min k (countAt events w l) := by
  obtain ⟨a, b, place, split, ha, hb⟩ := insertAny_split events w e k l sorted
  obtain ⟨a', b', place', split', count⟩ := insertAny_count events w e k l sorted
  obtain ⟨absent_a, absent_b⟩ : e ∉ a ∧ e ∉ b := by rwa [split, List.mem_append, not_or] at absent
  obtain ⟨rfl, -, -⟩ := (List.append_cons_inj_of_notMem absent_a absent_b).1 (place.symm.trans place')
  exact ⟨a, b, place, split, ha, hb, count⟩

/-- Settles O45: peek and target are read off the invariants, cancel and schedule off `cancel_schedule_restores`, the order
among equals off `insertAny_split` and `insertAny_count`. -/
theorem schedulerLaws : Obligations.SchedulerLaws := by
  intro d s c hs hc
  have inv := hs.clocks d c hc
  rw [peekEarliest_eq hc, targetStamp_eq hc]
  refine ⟨fun h hh e x he hx => ?_, fun hn e x he hx => ?_, fun h hh => by rw [inv.target_of_head hh],
    fun hn => ⟨_, rfl, inv.target_of_nil (List.head?_eq_none_iff.1 hn)⟩,
    fun e x t u hx apart ht hu => cancel_schedule_restores hs hc hx apart ht hu, fun e x w hx hl hi hany => ?_⟩
  · rw [← whenOf_event he]
    exact inv.head_le hh (hs.mem_list hc he hx)
  · have mem := hs.mem_list hc he hx
    rw [List.head?_eq_none_iff.1 hn] at mem
    cases mem
  · have absent : e ∉ c.list := hs.only hc hx (by simp [hl])
    have sorted : c.list.Pairwise fun f g => whenOf (s.sched.events.set e ⟨w, x.handler, .inDomain d⟩) f ≤
        whenOf (s.sched.events.set e ⟨w, x.handler, .inDomain d⟩) g :=
      inv.sorted.imp_of_mem fun {f g} hf hg hfg => by
        rwa [whenOf_set_ne (ne_of_mem_of_not_mem hf absent), whenOf_set_ne (ne_of_mem_of_not_mem hg absent)]
    obtain ⟨before, after, place, split, earlier, later, count⟩ :=
      insertAny_place _ w absent (Config.tieChoice s.draws) sorted
    obtain ⟨t, next, events, clock, self, others, domains, draws, same⟩ :=
      schedule_inserts hc hx hl hi (by simpa only [insertSorted, hany] using place)
    rw [← events] at earlier later count
    refine ⟨t, before, after, next, split, clock, earlier, later, count, self, others, domains, ?_, same⟩
    rw [draws, State.afterInsert, hany]

end Sys2Proof.Machine

/-!
PROOFS. The condition predicates (41_pipeline.md R209), and what every instruction shares (R201, R210, R213): an effect that
leaves the counter alone, and then the charge.
-/

namespace Sys2Proof.Machine

open Sys2Proof

/-- Settles O30: a predicate's opposite is its negation, and the composite ones are conjunctions and an equality of flags. -/
theorem conditionPredicates : Obligations.ConditionPredicates := by
  intro p
  have opposite (b : Bool) : (!b) = true ↔ ¬b = true := by simp
  have same (a b : Bool) : (a == b) = true ↔ (a = true ↔ b = true) := beq_iff_eq.trans Bool.eq_iff_iff
  exact ⟨.rfl, opposite _, .rfl, opposite _, .rfl, opposite _, .rfl, opposite _, Bool.and_eq_true_iff, opposite _,
    same _ _, opposite _, Bool.and_eq_true_iff, opposite _, rfl, Bool.false_ne_true⟩

/-! ## The counter before the charge -/

theorem pcWrite_cycles {i : Instr} {v : Word} {s t : State} (e : pcWrite i v s = .next t) :
    t.cpu.cycles = s.cpu.cycles := by
  obtain ⟨-, rfl⟩ := pcWrite_next e
  rfl

theorem dpFinish_cycles {i : Instr} {w b : Bool} {rd : RegNum} {m : Mode} {o : AluOut} {s t : State}
    (e : dpFinish i w b rd m o s = .next t) : t.cpu.cycles = s.cpu.cycles := by
  unfold dpFinish at e
  split at e
  · exact pcWrite_cycles e
  · cases e
    cases w <;> simp

theorem lsExecute_cycles {p u w : Bool} {rn : RegNum} {off : Word} {m : Mode} {access : Word → State → Result State}
    {s t : State} (ha : ∀ a v, access a s = .next v → RegsOnly s.cpu v.cpu)
    (e : lsExecute p u w rn off m access s = .next t) : t.cpu.cycles = s.cpu.cycles := by
  obtain ⟨v, hv, ht⟩ := andThen_eq_next.1 e
  cases ht
  split
  · exact ((ha _ _ hv).writeReg _ _ _).cycles
  · exact (ha _ _ hv).cycles

theorem ldmFinish_cycles {i : Instr} {f : BtFields} {base : Word} {m : Mode} {loaded : List (RegNum × Word)}
    {s t : State} (e : ldmFinish i f base m loaded s = .next t) : t.cpu.cycles = s.cpu.cycles := by
  have body := (((RegsOnly.ofEq rfl).writeRegs m loaded).writeback f base m : RegsOnly s.cpu _).cycles
  unfold ldmFinish at e
  split at e
  · exact (pcWrite_cycles e).trans body
  · cases e
    exact body

theorem msrWrite_cycles {i : Instr} {b : Bool} {k : BitVec 4} {v : Word} {m : Mode} {s t : State}
    (e : msrWrite i b k v m s = .next t) : t.cpu.cycles = s.cpu.cycles := by
  unfold msrWrite at e
  split at e
  · split at e
    · cases e; rfl
    · cases e
  · dsimp only at e
    split at e
    · cases e; rfl
    · cases e

/-- Every instruction is `retire` of an effect that leaves the counter alone; that of an opcode this core lacks is never
reached, since its word faults at decode. -/
theorem exec_retires (i : Instr) (s : State) :
    ∃ body, exec i s = retire i s body ∧ ∀ m u, body m = .next u → u.cpu.cycles = s.cpu.cycles := by
  cases i with
  | andRsh f | eorRsh f | subRsh f | rsbRsh f | addRsh f | tstRsh f | cmpRsh f | cmnRsh f | orrRsh f | movRsh f
  | bicRsh f | mvnRsh f =>
    refine ⟨_, rfl, fun m u hu => ?_⟩
    split at hu
    · cases hu
    · exact dpFinish_cycles hu
  | andSh f | eorSh f | subSh f | rsbSh f | addSh f | tstSh f | cmpSh f | cmnSh f | orrSh f | movSh f | bicSh f
  | mvnSh f => exact ⟨_, rfl, fun _ _ hu => dpFinish_cycles hu⟩
  | andImm f | eorImm f | subImm f | rsbImm f | addImm f | tstImm f | cmpImm f | cmnImm f | orrImm f | movImm f
  | bicImm f | mvnImm f => exact ⟨_, rfl, fun _ _ hu => dpFinish_cycles hu⟩
  | adcRsh f | sbcRsh f | rscRsh f | teqRsh f | adcSh f | sbcSh f | rscSh f | teqSh f | adcImm f | sbcImm f | rscImm f
  | teqImm f => exact ⟨fun _ => .next s, rfl, fun _ _ hu => by cases hu; rfl⟩
  | mul f | mla f => exact ⟨_, rfl, fun _ _ hu => by cases hu; simp⟩
  | strImm f | strReg f => exact ⟨_, rfl, fun _ _ hu => lsExecute_cycles (fun _ _ hv => str_regs hv) hu⟩
  | ldrImm f | ldrReg f => exact ⟨_, rfl, fun _ _ hu => lsExecute_cycles (fun _ _ hv => ldr_regs hv) hu⟩
  | strbImm f | strbReg f => exact ⟨_, rfl, fun _ _ hu => lsExecute_cycles (fun _ _ hv => strb_regs hv) hu⟩
  | ldrbImm f | ldrbReg f => exact ⟨_, rfl, fun _ _ hu => lsExecute_cycles (fun _ _ hv => ldrb_regs hv) hu⟩
  | stm f =>
    refine ⟨_, rfl, fun m u hu => ?_⟩
    dsimp only at hu
    split at hu
    · cases hu
    · obtain ⟨v, hv, ht⟩ := andThen_eq_next.1 hu
      cases ht
      exact ((RegsOnly.ofEq (storeSlots_cpu hv)).writeback f _ m).cycles
  | ldm f =>
    refine ⟨_, rfl, fun m u hu => ?_⟩
    dsimp only at hu
    split at hu
    · cases hu
    · obtain ⟨⟨l, v⟩, hv, ht⟩ := andThen_eq_next.1 hu
      rw [← loadSlots_cpu hv]
      exact ldmFinish_cycles ht
  | b f => exact ⟨_, rfl, fun _ _ hu => pcWrite_cycles hu⟩
  | bl f => exact ⟨_, rfl, fun m _ hu => by rw [pcWrite_cycles hu, writeReg_cycles]⟩
  | mrs f =>
    refine ⟨_, rfl, fun m u hu => ?_⟩
    split at hu
    · split at hu
      · cases hu; simp
      · cases hu
    · cases hu; simp
  | msrReg f | msrImm f => exact ⟨_, rfl, fun _ _ hu => msrWrite_cycles hu⟩
  | swi f => exact ⟨_, rfl, fun _ _ hu => by cases hu; rfl⟩

/-! ## A condition that fails, and the charge -/

theorem exec_failed {i : Instr} {s : State} (hw : i.checkWord = none) (hc : condHolds s.cpu.cpsr i.cond = false) :
    exec i s = accountInstr i s (advance s) := by
  obtain ⟨body, he, -⟩ := exec_retires i s
  rw [he, retire_failed hw hc]

/-- Settles O29: `retire` leaves the advance alone, and the charge fits. -/
theorem conditionFailedOnlyAdvances : Obligations.ConditionFailedOnlyAdvances := by
  intro i s hw hc ht
  have next : exec i s = .next (charge i s (advance s)) := by
    rw [exec_failed hw hc]
    exact account_inTime (s := advance s) ht _ _
  exact ⟨_, next, advanced_of ht (.ofEq rfl), rfl, rfl, rfl, rfl, rfl, rfl, ⟨rfl, rfl, rfl, rfl, rfl, rfl⟩⟩

/-- Whatever an instruction has done before its charge, the charge is of its cost, exactly (R213). -/
theorem exec_charged {i : Instr} {s t : State} (h : exec i s = .next t) : Charged i s t := by
  have config : t.config = s.config := sameConfig_worldRel.exec h
  obtain ⟨body, he, kept⟩ := exec_retires i s
  rw [he] at h
  have charged {u : State} (hu : u.cpu.cycles = s.cpu.cycles) (ha : accountInstr i s u = .next t) : Charged i s t := by
    obtain ⟨fits, rfl⟩ := account_next ha
    have hk : u.config = s.config := config
    rw [Charged, cycles_add fits, hu, hk, baseCost]
  obtain ⟨-, ⟨-, m, u, -, hu, ha⟩ | ⟨-, ha⟩⟩ := retire_next h
  · exact charged (kept m u hu) ha
  · exact charged (u := advance s) rfl ha

/-- A charge that does not fit stops, with the counter of before and, where nothing outside the engine has moved, its world. -/
theorem accountInstr_overflow {i : Instr} {s u : State} (h : ¬InTime (baseCost s.config i) s)
    (hc : u.cpu.cycles = s.cpu.cycles) (hk : u.config = s.config) (hw : u.world = s.world) :
    accountInstr i s u =
      raise (.intCounterOverflow s.cpu.cycles (baseCost s.config i) (some (encode i)) (s.cpu.pc - 8)) s := by
  have overflows : ¬InTime (baseCost s.config i) u := by rwa [InTime, hc, hk]
  rw [accountInstr, account_overflow overflows, hc, raise_congr hw, State.instrAddr]

/-- A branch from an aligned `pc` goes to an aligned address. -/
theorem isAligned_branch {pc : Word} (h : pc.toNat % 4 = 0) (offset24 : BitVec 24) :
    isAligned (pc + branchDelta offset24) = true := by
  rw [isAligned_iff, branchDelta, BitVec.toNat_add, BitVec.toNat_mul, show (4 : Word).toNat = 4 from rfl]
  omega

/-- B and BL write R15, and BL the link register, before the charge. -/
theorem branch_overflow {f : BrFields} {m : Mode} {s : State} (hc : condHolds s.cpu.cpsr f.cond = true)
    (hm : s.mode = some m) (ha : s.cpu.pc.toNat % 4 = 0) {i : Instr} (hi : i ∈ [Instr.b f, .bl f])
    (ht : ¬InTime (baseCost s.config i) s) :
    exec i s = raise (.intCounterOverflow s.cpu.cycles (baseCost s.config i) (some (encode i)) (s.cpu.pc - 8)) s := by
  have runs (i : Instr) (hw : i.checkWord = none) (hi : i.cond = f.cond) (body : Mode → Result State) :
      retire i s body = andThen (body m) (accountInstr i s) := by simp [retire, hw, hi, hc, hm]
  have target := isAligned_branch ha f.offset24
  simp only [List.mem_cons, List.not_mem_nil, or_false] at hi
  obtain rfl | rfl := hi
  · rw [exec, execB, runs _ rfl rfl, pcWrite_aligned target, andThen_next]
    exact accountInstr_overflow ht rfl rfl rfl
  · rw [exec, execBl, runs _ rfl rfl, pcWrite_aligned target, andThen_next]
    exact accountInstr_overflow ht (by simp) (by simp) (writeReg_world m _ _ s)

end Sys2Proof.Machine

/-!
PROOFS. The fetch cycle (41_pipeline.md R201 to R217): the poll, the exception service, the fill step, and the instruction of
a full queue.
-/

namespace Sys2Proof.Machine

open Sys2Proof

/-! ## A step of a session that runs -/

theorem step_eq_turnStep {s : State} (hf : s.fault = none) (hc : configOk s = true) : step s = turnStep s := by
  simp only [step, hf, hc, if_true]

theorem step_run {s : State} {boot : Bool} (hf : s.fault = none) (hc : configOk s = true) (ht : s.turn = .run boot) :
    step s = andThen (fetchCycle s) fun t => .next (afterCycle boot t) := by
  simp only [step_eq_turnStep hf hc, turnStep, ht]

/-- The next turn is read from the state it is part of, which it does not change (R217). -/
theorem afterCycle_turn (boot : Bool) (s : State) : (afterCycle boot s).turn = turnAfterCycle boot (afterCycle boot s) := by
  rw [afterCycle_eq]
  rfl

/-! ## The dispatch -/

theorem dispatched_of_some {s : State} {c : ExcClass} (h : selectException (pollLines s) = some c) :
    dispatched s = service c (pollLines s) := by
  simp only [dispatched, takeException, h]

theorem dispatched_of_none {s : State} (h : selectException (pollLines s) = none) : dispatched s = pollLines s := by
  simp only [dispatched, takeException, h]

/-- An exception service empties the queue, so that a full queue after the dispatch means the poll alone. -/
theorem dispatched_of_two {s : State} {q0 q1 : Fetched} (h : (dispatched s).cpu.queue = .two q0 q1) :
    dispatched s = pollLines s := by
  cases hs : selectException (pollLines s) with
  | none => exact dispatched_of_none hs
  | some c =>
    rw [dispatched_of_some hs, service_queue] at h
    cases h

theorem dispatched_inTime (s : State) (n : Nat) : InTime n (dispatched s) ↔ InTime n s := by
  obtain ⟨-, -, hk⟩ := dispatched_outside s
  rw [InTime, InTime, dispatched_cycles, hk]

/-! ## The fill step -/

theorem fetchWord_plain {s : State} (h : s.plainAccess .word s.cpu.pc = true) :
    fetchWord s = .next (s.mem.readWord s.cpu.pc, s) := busRead_plain h _ _

/-- `s` with the word at `pc` at the end of the queue and R15 past it (R205), before the charge. -/
def filled (s : State) : State :=
  { s with cpu.queue := s.cpu.queue.push ⟨s.mem.readWord s.cpu.pc, s.cpu.pc⟩, cpu.pc := s.cpu.pc + 4 }

theorem fillStep_plain {s : State} (h : s.plainAccess .word s.cpu.pc = true) :
    fillStep s = account 1 none s.cpu.pc (filled s) := by
  rw [fillStep, fetchWord_plain h]
  rfl

theorem fetchCycle_fills {s : State} (h : (dispatched s).cpu.queue.len < 2) :
    fetchCycle s = fillStep (dispatched s) := by
  unfold fetchCycle
  split
  · rename_i q0 q1 hq
    rw [hq] at h
    exact absurd h (Nat.lt_irrefl 2)
  · rfl
  · rfl

/-- What a fetch cycle leaves that has come out of its dispatch in state `u` and fills the queue: the word at `pc` and the idle
cycle, everything else as the dispatch left it, and the next turn. -/
structure FillCycle (boot : Bool) (u t : State) : Prop where
  pc : t.cpu.pc = u.cpu.pc + 4
  queue : t.cpu.queue = u.cpu.queue.push ⟨u.mem.readWord u.cpu.pc, u.cpu.pc⟩
  cycles : t.cpu.cycles.toNat = u.cpu.cycles.toNat + u.config.cpuClockScale
  regs : t.cpu.regs = u.cpu.regs
  cpsr : t.cpu.cpsr = u.cpu.cpsr
  spsr : t.cpu.spsr = u.cpu.spsr
  pending : t.cpu.pending = u.cpu.pending
  sched : t.sched = u.sched
  mem : t.mem = u.mem
  host : t.host = u.host
  log : t.log = u.log
  turn : t.turn = turnAfterCycle boot t

section
variable {s : State} {boot : Bool} (hf : s.fault = none) (hc : configOk s = true) (ht : s.turn = .run boot)
  (hq : (dispatched s).cpu.queue.len < 2) (hp : s.plainAccess .word (dispatched s).cpu.pc = true)
include hf hc ht hq hp

/-- Where the dispatch leaves a queue that is not full and the word at `pc` is plain memory, the step is the fill step's
charge. -/
theorem step_fill :
    step s = andThen (account 1 none (dispatched s).cpu.pc (filled (dispatched s))) fun t => .next (afterCycle boot t) := by
  rw [step_run hf hc ht, fetchCycle_fills hq, fillStep_plain (by rw [dispatched_plainAccess, hp])]

theorem step_fill_next (hi : InTime 1 (dispatched s)) : ∃ t, step s = .next t ∧ FillCycle boot (dispatched s) t := by
  have charged := account_inTime (s := filled (dispatched s)) hi none (dispatched s).cpu.pc
  have cycles := cycles_add hi
  rw [Nat.one_mul] at charged cycles
  refine ⟨_, by rw [step_fill hf hc ht hq hp, charged, andThen_next], ?_⟩
  exact ⟨rfl, rfl, cycles, rfl, rfl, rfl, rfl, rfl, rfl, rfl, rfl, afterCycle_turn boot _⟩

theorem step_fill_overflow (hi : ¬InTime 1 (dispatched s)) :
    step s = raise (.intCounterOverflow (dispatched s).cpu.cycles 1 none (dispatched s).cpu.pc) (dispatched s) := by
  rw [step_fill hf hc ht hq hp, account_overflow (s := filled (dispatched s)) hi]
  rfl

end

/-- Settles O32: the charge of an instruction is `exec_charged`; one that does not fit is the only effect of a failed condition,
comes after a branch's writes, and after a fill step's. -/
theorem instructionsAreCharged : Obligations.InstructionsAreCharged := by
  refine ⟨fun i s t h => exec_charged h, fun i s hw hc ht => ?_,
    fun f m s hc hm ha i hi ht => branch_overflow hc hm ha hi ht, fun s boot hf hc ht hs hq hp hi => ?_⟩
  · rw [exec_failed hw hc]
    exact accountInstr_overflow ht rfl rfl rfl
  · have hd := dispatched_of_none hs
    rw [step_fill_overflow hf hc ht (by simpa [hd] using hq) (by simpa [hd] using hp) (by rwa [dispatched_inTime]), hd,
      pollLines_cycles, pollLines_pc]

/-- Settles O38: with nothing to service the dispatch is the poll, and the fill follows. -/
theorem fillStepFetches : Obligations.FillStepFetches := by
  intro s boot hf hc ht hs hq hp hi
  have hd := dispatched_of_none hs
  obtain ⟨t, next, left⟩ := step_fill_next hf hc ht (by simpa [hd] using hq) (by simpa [hd] using hp)
    (by rwa [dispatched_inTime])
  rw [hd] at left
  refine ⟨t, next, by simpa using left.pc, fun he => ?_, fun q0 he => ?_, by simpa using left.cycles,
    by simpa using left.regs, by simpa using left.cpsr, by simpa using left.spsr, by simpa using left.pending,
    by simpa using left.host, by simpa using left.mem, by simpa using left.log, by simpa using left.sched, left.turn⟩
  · simpa [he, Queue.push] using left.queue
  · simpa [he, Queue.push] using left.queue

/-! ## The exception cycle -/

theorem Spsrs.get_set_excMode (x : Spsrs) (c : ExcClass) (p : Psr) : (x.set c.mode p).get c.mode = some p := by
  cases c <;> rfl

/-- With a full queue the next instruction to execute is its oldest word, and R14 is that word's address plus the offset
(R435). -/
theorem returnAddr_of_two {s : State} {q0 q1 : Fetched} (h : EngineInv s) (hq : s.cpu.queue = .two q0 q1) (c : ExcClass) :
    returnAddr c s = q0.addr + c.offset := by
  have agrees := h.queue
  rw [hq] at agrees
  obtain ⟨h0, -⟩ := agrees
  rw [returnAddr, hq, h0]
  rfl

/-- Settles O35: the dispatch is the service of the class after the poll, which empties the queue, and the fill follows. -/
theorem exceptionCycle : Obligations.ExceptionCycle := by
  intro s c boot hf hc ht hs hp hi
  have hd := dispatched_of_some hs
  obtain ⟨t, next, left⟩ := step_fill_next hf hc ht (by simp [hd, Queue.len]) (by simpa [hd] using hp)
    (by rwa [dispatched_inTime])
  rw [hd] at left
  have ret : returnAddr c (pollLines s) = returnAddr c s := by simp [returnAddr]
  have lr : t.cpu.regs.get (.lr c.mode.bank) = returnAddr c s := by rw [left.regs, service_regs, RegFile.get_set_self, ret]
  refine ⟨t, next, left.pc, by simpa [Queue.push] using left.queue, by simpa using left.cpsr, ?_, lr, fun p hn => ?_,
    by simpa using left.pending, by simpa using left.host, by simpa using left.cycles, by simpa using left.mem,
    by simpa using left.log, by simpa using left.sched, left.turn, fun inv q0 q1 hq => ?_⟩
  · rw [left.spsr, service_spsr, Spsrs.get_set_excMode, pollLines_cpsr]
  · rw [left.regs, service_regs, RegFile.get_set, if_neg (by simpa using hn), pollLines_regs]
  · rw [lr, returnAddr_of_two inv hq]

/-! ## The instruction of a full queue -/

theorem fetchCycle_executes {s : State} {q0 q1 : Fetched} {i : Instr} (hq : (dispatched s).cpu.queue = .two q0 q1)
    (hi : decodeWord q0.word = .ok i) (hp : s.plainAccess .word (dispatched s).cpu.pc = true) :
    fetchCycle s = exec i (shifted q1 (s.mem.readWord (dispatched s).cpu.pc) (dispatched s)) := by
  obtain ⟨-, hmem, -⟩ := dispatched_outside s
  have fetched := fetchWord_plain (s := dispatched s) (by rw [dispatched_plainAccess, hp])
  simp only [fetchCycle, hq, decodeExecute, fetched, andThen_next, hi, hmem]

/-- Settles O37: a full queue means that the dispatch was the poll alone, the fetch cycle is `fetchCycle_executes`, and the
addresses are the engine's invariant. -/
theorem stepRunsDecodedInstruction : Obligations.StepRunsDecodedInstruction := by
  intro s boot q0 q1 i hf hc ht hq hi hp u
  have hu : shifted q1 (s.mem.readWord (dispatched s).cpu.pc) (dispatched s) = u := rfl
  refine ⟨?_, by rw [dispatched_of_two hq, pollLines_eq], fun inv => ?_⟩
  · rw [step_run hf hc ht, fetchCycle_executes hq hi hp, hu]
    simp only [afterCycle_eq]
    cases exec i u <;> rfl
  · have agrees := inv.dispatched.queue
    rw [hq] at agrees
    obtain ⟨h0, h1⟩ := agrees
    exact ⟨h0.symm, h1.symm⟩

end Sys2Proof.Machine

/-!
PROOFS. The driver and the host (41_pipeline.md R217, R218, R232; 70_reset_and_hazards.md R494; logs 5, 6, 7): what each turn
does.
-/

namespace Sys2Proof.Machine

open Sys2Proof

/-! ## An iteration begins -/

theorem enterIteration_eq (d : Nat) (s : State) : enterIteration d s = { s with turn := firstTurn d s } := by
  by_cases hd : d = s.config.engineDomain
  · subst hd
    unfold enterIteration firstTurn belowTarget
    cases s.clock s.config.engineDomain <;> simp
  · have first : firstTurn d s = .advance d := by
      unfold firstTurn
      cases s.clock d <;> simp [hd]
    simp [enterIteration, first, hd]

theorem startIteration_begins (s : State) : BeginsIteration s (startIteration s) := by
  refine ⟨fun h => ?_, fun d ds h => ?_⟩
  · simp only [startIteration, h, enterIteration_eq]
  · simp only [startIteration, h, enterIteration_eq]
    rfl

/-! ## The advance -/

/-- With the checks enabled the target, the first event's `when` or LOOKAHEAD past the stamp, is no earlier than the stamp. -/
theorem ClockInv.stamp_le_target {config : Config} {events : List EventSlot} {d : Nat} {c : Clock}
    (h : ClockInv config events d c) (hk : config.integrityChecks = true) : c.stamp ≤ c.target := by
  cases hl : c.list with
  | nil =>
    rw [BitVec.le_def, h.target_of_nil hl]
    exact Nat.le_add_right _ _
  | cons e rest =>
    rw [h.target_of_head (h := e) (by rw [hl]; rfl)]
    exact h.notPast hk e (by simp [hl])

theorem larger_eq_target {c : Clock} (h : c.stamp ≤ c.target) :
    (if c.stamp < c.target then c.target else c.stamp) = c.target := by
  split
  · rfl
  · rename_i hn
    exact BitVec.le_antisymm h (BitVec.not_lt.1 hn)

/-- The driver's advance under the invariants with the checks enabled (R232): the stamp moves to the target. -/
theorem driverAdvance_advances {d : Nat} {s : State} {c : Clock} (hs : SchedulerInv s) (hc : s.clock d = some c)
    (hk : s.config.integrityChecks = true) (fits : c.list = [] → c.target.toNat + lookahead s.config < 2 ^ 64) :
    ∃ t k, driverAdvance d s = .next t ∧ t.turn = .drain d ∧ t.clock d = some k ∧ k.stamp = c.target ∧
      k.list = c.list ∧ t.cpu = s.cpu := by
  have inv := hs.clocks d c hc
  have le := inv.stamp_le_target hk
  have head : ∀ e ∈ c.list.head?, c.target ≤ whenOf s.sched.events e := fun e he => by
    rw [inv.target_of_head he]
    exact BitVec.le_refl _
  obtain ⟨-, -, advances, -⟩ := advanceStampMovesForward d c.target s c hc
  obtain ⟨u, k, hu, clock, stamp, list, -, -, -, same⟩ := advances le (fun _ => head) fits
  refine ⟨{ u with turn := .drain d }, k, ?_, rfl, clock, stamp, list, same.cpu⟩
  simp only [driverAdvance, hc, larger_eq_target le, hu, andThen_next]

/-! ## The drain -/

/-- A handler with no script does nothing (log 5). -/
theorem takeScript_none {h : Nat} {l : List (Nat × List HostCall)} (hn : ∀ p ∈ l, p.1 ≠ h) :
    takeScript h l = ([], l) := by
  induction l with
  | nil => rfl
  | cons p rest ih =>
    rw [List.forall_mem_cons] at hn
    simp only [takeScript, if_neg hn.1, ih hn.2]

/-- A handler's first script is taken, and the others stay (log 5). -/
theorem takeScript_first {h : Nat} {before after : List (Nat × List HostCall)} {calls : List HostCall}
    (hn : ∀ p ∈ before, p.1 ≠ h) : takeScript h (before ++ (h, calls) :: after) = (calls, before ++ after) := by
  induction before with
  | nil => simp only [List.nil_append, takeScript, if_true]
  | cons p rest ih =>
    rw [List.forall_mem_cons] at hn
    simp only [List.cons_append, takeScript, if_neg hn.1, ih hn.2]

/-- A pop leaves the host's inputs, and of the event popped its handler. -/
theorem popEarliest_leaves {d e : Nat} {s t : State} {x : EventSlot} (hx : s.event e = some x)
    (h : popEarliest d s = .next (some e, t)) :
    t.host = s.host ∧ t.event e = some { x with link := .unscheduled } := by
  obtain ⟨c, -, ⟨-, ho, -⟩ | ⟨f, rest, y, -, ho, hy, -, hr⟩⟩ := popEarliest_next h
  · cases ho
  · cases ho
    cases hx.symm.trans hy
    refine ⟨?_, by rw [recomputeTarget_event hr]; exact event_setEvent_self hx _⟩
    obtain ⟨-, -, -, -, rfl⟩ := recomputeTarget_next hr
    rfl

section
variable {d e : Nat} {s p : State} {c : Clock} {x : EventSlot} {rest : List Nat} (hc : s.clock d = some c)
include hc

/-- A due head is popped, and its handler makes the calls its first script lists (R161, R232). -/
theorem driverDrain_due (hl : c.list = e :: rest) (hx : s.event e = some x) (due : x.when ≤ c.stamp)
    (hp : popEarliest d s = .next (some e, p)) :
    driverDrain d s = hostCalls (takeScript x.handler s.host.handlerScript).1
      { p with host.handlerScript := (takeScript x.handler s.host.handlerScript).2 } := by
  obtain ⟨host, slot⟩ := popEarliest_leaves hx hp
  have not_later : ¬c.stamp < whenOf s.sched.events e := by
    rw [whenOf_event hx]
    exact BitVec.not_lt.2 due
  simp only [driverDrain, hc, hl, if_neg not_later, hp, andThen_next, invokeHandler, slot, host]

/-- With nothing due the drain leaves its loop. -/
theorem driverDrain_ends (later : ∀ e ∈ c.list.head?, c.stamp < whenOf s.sched.events e) :
    driverDrain d s = .next (endIteration s) := by
  cases hl : c.list with
  | nil => simp only [driverDrain, hc, hl]
  | cons e rest => simp only [driverDrain, hc, hl, if_pos (later e (by rw [hl]; rfl))]

/-- Under the invariants a due head whose handler has no script is popped, and nothing else happens. -/
theorem driverDrain_pops (hs : SchedulerInv s) (hl : c.list = e :: rest) (hx : s.event e = some x) (due : x.when ≤ c.stamp)
    (unscripted : ∀ q ∈ s.host.handlerScript, q.1 ≠ x.handler) (fits : c.stamp.toNat + lookahead s.config < 2 ^ 64) :
    ∃ t k, driverDrain d s = .next t ∧ t.turn = s.turn ∧ t.clock d = some k ∧ k.stamp = c.stamp ∧ k.list = rest ∧
      t.event e = some ⟨x.when, x.handler, .unscheduled⟩ ∧ t.cpu = s.cpu := by
  have notPast : s.config.integrityChecks = true → c.stamp ≤ x.when := fun hk => by
    rw [← whenOf_event hx]
    exact (hs.clocks d c hc).notPast hk e (by simp [hl])
  obtain ⟨-, pops⟩ := popTakesEarliest d s c hc
  obtain ⟨-, pops, -⟩ := pops e rest x hl hx
  obtain ⟨p, k, hp, clock, stamp, list, -, slot, -, -, same⟩ := pops notPast fun _ => fits
  refine ⟨{ p with host.handlerScript := s.host.handlerScript }, k, ?_, same.turn, clock, stamp, list, slot, same.cpu⟩
  rw [driverDrain_due hc hl hx due hp, takeScript_none unscripted]
  rfl

end

/-! ## The turns -/

/-- After a fetch cycle the turn is read from the state it has left (R217). -/
theorem turn_after_run {s t : State} {boot : Bool} (ht : s.turn = .run boot) (h : step s = .next t) :
    t.turn = turnAfterCycle boot t := by
  obtain ⟨hf, hc, -⟩ := step_next h
  rw [step_run hf hc ht] at h
  obtain ⟨u, -, hu⟩ := andThen_eq_next.1 h
  cases hu
  exact afterCycle_turn boot u

/-- Settles O46: `driverAdvance_advances`, the drain by what is due, and each turn of the host by the head of its list. -/
theorem driverIteration : Obligations.DriverIteration := by
  refine ⟨fun d s c hf hok hs hc hk => ⟨fun ht fits => ?_, fun h rest x ht hl hx due unscripted fits => ?_⟩,
    fun d s c hf hok hc ht => ⟨fun h rest x before calls after p hl hx due script first hp => ?_, fun later => ?_⟩,
    fun s hf hok ht => ?_, fun s t boot ht h => turn_after_run ht h, fun s hf hok ht => ?_⟩
  all_goals have turn := step_eq_turnStep hf hok
  all_goals simp only [turnStep, ht] at turn
  · obtain ⟨t, k, next, drains, clock, stamp, list, cpu⟩ := driverAdvance_advances hs hc hk fits
    have inv := hs.clocks d c hc
    refine ⟨t, k, turn.trans next, drains, clock, ?_, list, cpu, fun hl => ?_⟩
    · rw [stamp, larger_eq_target (inv.stamp_le_target hk)]
    · rw [stamp, inv.target_of_nil hl]
  · obtain ⟨t, k, next, drains, left⟩ := driverDrain_pops hc hs hl hx due unscripted fits
    exact ⟨t, k, turn.trans next, drains.trans ht, left⟩
  · have calls_eq : step s = hostCalls calls { p with host.handlerScript := before ++ after } := by
      rw [turn, driverDrain_due hc hl hx due hp, script, takeScript_first first]
    refine ⟨calls_eq, fun t hn => ?_⟩
    have pop := popEarliest_keeps hp
    have kept := hostCalls_keeps (calls_eq.symm.trans hn)
    exact ⟨kept.turn.trans (pop.turn.trans ht), kept.cpu.trans pop.cpu, kept.log.trans pop.log⟩
  · rw [turn, driverDrain_ends hc later]
    refine ⟨fun hn => ?_, fun hn => ⟨startIteration s, by simp only [endIteration, hn], startIteration_begins s⟩⟩
    obtain ⟨call, calls, hi⟩ := List.exists_cons_of_ne_nil hn
    simp only [endIteration, hi]
  · rw [turn]
    exact ⟨fun call rest hi => by simp only [hostTurn, hi],
      fun hi => ⟨startIteration s, by simp only [hostTurn, hi], startIteration_begins s⟩⟩
  · rw [turn]
    refine ⟨fun call rest hb => by simp only [bootTurn, hb], fun rest k hb hk => ?_,
      fun hb => ⟨startIteration s, by simp only [bootTurn, hb], startIteration_begins s⟩⟩
    simp only [bootTurn, hb, belowTarget, hk, decide_eq_true_eq]

end Sys2Proof.Machine

/-!
PROOFS. The word-only restrictions (30_encoding.md R135, R136): the check made at decode is the first restriction that holds, and
nothing an instruction does after it is a decode-time fault.
-/

namespace Sys2Proof.Machine

open Sys2Proof

/-! ## The check as the first restriction of a list -/

theorem firstOf_append (l l' : List (Bool × DecodeFault)) : firstOf (l ++ l') = (firstOf l).or (firstOf l') := by
  induction l with
  | nil => rfl
  | cons p l ih =>
    obtain ⟨c, k⟩ := p
    cases c
    · exact ih
    · rfl

theorem unimplemented_eq (op : DpOp) : op.unimplemented = decide (op ∈ [DpOp.adc, .sbc, .rsc, .teq]) := by
  cases op <;> rfl

theorem compareOnly_eq (op : DpOp) : op.compareOnly = decide (op ∈ [DpOp.tst, .cmp, .cmn]) := by
  cases op <;> rfl

/-- R249 items 1 to 3 come before the item of the format. -/
theorem checkDp_eq (op : DpOp) (s : Bool) (rd : RegNum) (rest : Option DecodeFault) :
    checkDp op s rd rest = (firstOf (dpRestrictions op s rd)).or rest := by
  simp only [checkDp, dpRestrictions, firstOf, unimplemented_eq, compareOnly_eq, decide_not]
  split_ifs <;> rfl

/-- R303 items 1 to 4 come before those of the format. -/
theorem checkLs_eq (p w : Bool) (rn rd : RegNum) (rest : Option DecodeFault) :
    checkLs p w rn rd rest = (firstOf (lsRestrictions p w rn rd)).or rest := by
  simp only [checkLs, lsRestrictions, firstOf]
  split_ifs <;> rfl

/-- The check of each format follows its list. -/
theorem checkWord_eq_firstOf (f : Form) : f.checkWord = firstOf (restrictions f) := by
  cases f with
  | dpr op f => rw [restrictions, firstOf_append, ← checkDp_eq]; rfl
  | dps op f => rw [restrictions, firstOf_append, ← checkDp_eq]; rfl
  | dpi op f => rw [restrictions, Form.checkWord, checkDp_eq, Option.or_none]
  | lsi b l f => rw [restrictions, Form.checkWord, checkLs_eq, Option.or_none]
  | lsr b l f => rw [restrictions, firstOf_append, ← checkLs_eq]; rfl
  | mrs f | msrr f | msri f | mul a f | bt l f | br k f | swi f => rfl

/-- A restricted word stops whatever its condition and the state. -/
theorem exec_restricted {i : Instr} {k : DecodeFault} (h : firstOf (restrictions i.form) = some k) (s : State) :
    exec i s = raise (.atDecode k (encode i) (s.cpu.pc - 8)) s := by
  obtain ⟨body, he, -⟩ := exec_retires i s
  rw [he]
  exact retire_fault ((checkWord_eq_firstOf i.form).trans h) body

/-! ## No other decode-time fault -/

/-- The outcome is no fault made at decode. -/
def NoDecodeFault {α : Type} (o : Result α) : Prop := ∀ k w a u, o ≠ .fault (.fatal (.atDecode k w a) u)

section
variable {α β : Type} {s : State} {i : Instr}

@[simp] theorem NoDecodeFault.next (a : α) : NoDecodeFault (.next a : Result α) := nofun

@[simp] theorem NoDecodeFault.refused (r : Refusal) : NoDecodeFault (.refused r : Result α) := nofun

@[simp] theorem noDecodeFault_raise {why : Fatal} :
    NoDecodeFault (raise why s : Result α) ↔ ∀ k w a, why ≠ .atDecode k w a := by
  simp [NoDecodeFault, raise]

theorem NoDecodeFault.andThen {o : Result α} {f : α → Result β} (ho : NoDecodeFault o) (hf : ∀ a, NoDecodeFault (f a)) :
    NoDecodeFault (andThen o f) := by
  cases o with
  | next a => exact hf a
  | fault r => exact fun k w a u h => ho k w a u (by cases h; rfl)
  | refused r => exact .refused r

theorem recomputeTarget_noDecodeFault (d : Nat) (s : State) : NoDecodeFault (recomputeTarget d s) := by
  unfold recomputeTarget
  split
  · simp
  · split <;> simp

theorem schedule_noDecodeFault (d e : Nat) (w : Stamp) (s : State) : NoDecodeFault (schedule d e w s) := by
  unfold schedule
  split
  · simp
  · simp
  · split_ifs
    · simp
    · simp
    · exact recomputeTarget_noDecodeFault _ _

theorem cancel_noDecodeFault (d e : Nat) (s : State) : NoDecodeFault (cancel d e s) := by
  unfold cancel
  split
  · simp
  · simp
  · split_ifs
    · simp
    · simp
    · exact recomputeTarget_noDecodeFault _ _

theorem popEarliest_noDecodeFault (d : Nat) (s : State) : NoDecodeFault (popEarliest d s) := by
  unfold popEarliest
  split
  · simp
  split
  · simp
  split
  · simp
  split_ifs
  · simp
  · exact (recomputeTarget_noDecodeFault _ _).andThen fun _ => .next _

theorem hostCall_noDecodeFault (c : HostCall) (s : State) : NoDecodeFault (hostCall c s) := by
  cases c with
  | schedule d e w => exact schedule_noDecodeFault d e w s
  | cancel d e => exact cancel_noDecodeFault d e s
  | popEarliest d => exact (popEarliest_noDecodeFault d s).andThen fun _ => .next _
  | peekEarliest d | targetStamp d => simp only [hostCall]; split <;> simp
  | initEvent e k =>
    show NoDecodeFault (initEvent e k s)
    unfold initEvent
    split
    · simp
    · split_ifs <;> simp
  | setIrqLine l | setFiqLine l | busRead a w | busWrite a w v => exact .next _

theorem hostCalls_noDecodeFault (cs : List HostCall) (s : State) : NoDecodeFault (hostCalls cs s) := by
  induction cs generalizing s with
  | nil => exact .next s
  | cons c cs ih => exact (hostCall_noDecodeFault c s).andThen ih

theorem busRead_noDecodeFault (width : Width) (a : Word) (word : Option Word) (pc : Word) (s : State) :
    NoDecodeFault (busRead width a word pc s) := by
  unfold busRead
  split
  · simp
  · simp
  split
  · simp
  · refine (hostCalls_noDecodeFault _ _).andThen fun u => ?_
    split <;> simp

theorem busWrite_noDecodeFault (width : Width) (a v : Word) (word : Option Word) (pc : Word) (s : State) :
    NoDecodeFault (busWrite width a v word pc s) := by
  unfold busWrite
  split
  · simp
  · simp
  split
  · simp
  · refine (hostCalls_noDecodeFault _ _).andThen fun u => ?_
    split <;> simp

theorem loadWord_noDecodeFault (i : Instr) (a : Word) (s : State) : NoDecodeFault (loadWord i a s) := by
  unfold loadWord
  split
  · exact busRead_noDecodeFault _ _ _ _ _
  split
  · exact busRead_noDecodeFault _ _ _ _ _
  · exact (busRead_noDecodeFault _ _ _ _ _).andThen fun _ => .next _
  · simp

theorem storeWord_noDecodeFault (i : Instr) (a v : Word) (s : State) : NoDecodeFault (storeWord i a v s) := by
  unfold storeWord
  split
  · exact busWrite_noDecodeFault _ _ _ _ _ _
  split
  · exact busWrite_noDecodeFault _ _ _ _ _ _
  · exact busWrite_noDecodeFault _ _ _ _ _ _
  · simp

theorem strAccess_noDecodeFault (i : Instr) (rd : RegNum) (m : Mode) (a : Word) (s : State) :
    NoDecodeFault (strAccess i rd m a s) := storeWord_noDecodeFault i a _ s

theorem ldrAccess_noDecodeFault (i : Instr) (rd : RegNum) (m : Mode) (a : Word) (s : State) :
    NoDecodeFault (ldrAccess i rd m a s) := (loadWord_noDecodeFault i a s).andThen fun _ => .next _

theorem strbAccess_noDecodeFault (i : Instr) (rd : RegNum) (m : Mode) (a : Word) (s : State) :
    NoDecodeFault (strbAccess i rd m a s) := busWrite_noDecodeFault .byte a _ _ _ s

theorem ldrbAccess_noDecodeFault (i : Instr) (rd : RegNum) (m : Mode) (a : Word) (s : State) :
    NoDecodeFault (ldrbAccess i rd m a s) := (busRead_noDecodeFault .byte a _ _ s).andThen fun _ => .next _

theorem lsExecute_noDecodeFault {access : Word → State → Result State} (ha : ∀ a, NoDecodeFault (access a s))
    (p u w : Bool) (rn : RegNum) (off : Word) (m : Mode) : NoDecodeFault (lsExecute p u w rn off m access s) :=
  (ha _).andThen fun _ => .next _

theorem loadSlots_noDecodeFault (i : Instr) (slots : List (RegNum × Word)) (s : State) :
    NoDecodeFault (loadSlots i slots s) := by
  induction slots generalizing s with
  | nil => exact .next _
  | cons q rest ih => exact (busRead_noDecodeFault _ _ _ _ _).andThen fun p => (ih p.2).andThen fun _ => .next _

theorem storeSlots_noDecodeFault (i : Instr) (slots : List (Word × Word)) (s : State) :
    NoDecodeFault (storeSlots i slots s) := by
  induction slots generalizing s with
  | nil => exact .next _
  | cons q rest ih => exact (busWrite_noDecodeFault _ _ _ _ _ _).andThen ih

theorem account_noDecodeFault (n : Nat) (word : Option Word) (pc : Word) (s : State) :
    NoDecodeFault (account n word pc s) := by
  unfold account
  split <;> simp

theorem pcWrite_noDecodeFault (i : Instr) (v : Word) (s : State) : NoDecodeFault (pcWrite i v s) := by
  unfold pcWrite
  split <;> simp

theorem dpFinish_noDecodeFault (i : Instr) (w b : Bool) (rd : RegNum) (m : Mode) (o : AluOut) (s : State) :
    NoDecodeFault (dpFinish i w b rd m o s) := by
  unfold dpFinish
  split
  · exact pcWrite_noDecodeFault _ _ _
  · exact .next _

theorem ldmFinish_noDecodeFault (i : Instr) (f : BtFields) (base : Word) (m : Mode) (loaded : List (RegNum × Word))
    (s : State) : NoDecodeFault (ldmFinish i f base m loaded s) := by
  unfold ldmFinish
  split
  · exact pcWrite_noDecodeFault _ _ _
  · exact .next _

theorem msrWrite_noDecodeFault (i : Instr) (b : Bool) (mask : BitVec 4) (v : Word) (m : Mode) (s : State) :
    NoDecodeFault (msrWrite i b mask v m s) := by
  unfold msrWrite
  split
  · split <;> simp
  · dsimp only
    split <;> simp

/-- A word with no restriction: what follows the check is an effect and a charge. -/
theorem retire_noDecodeFault {body : Mode → Result State} (hw : i.checkWord = none) (hb : ∀ m, NoDecodeFault (body m)) :
    NoDecodeFault (retire i s body) := by
  simp only [retire, hw]
  split
  · split
    · exact (hb _).andThen (account_noDecodeFault _ _ _)
    · simp
  · exact account_noDecodeFault _ _ _ _

/-- No effect of an instruction is a decode-time fault. -/
theorem exec_noDecodeFault (hw : i.checkWord = none) (s : State) : NoDecodeFault (exec i s) := by
  cases i with
  | andRsh f | eorRsh f | subRsh f | rsbRsh f | addRsh f | tstRsh f | cmpRsh f | cmnRsh f | orrRsh f | movRsh f
  | bicRsh f | mvnRsh f =>
    refine retire_noDecodeFault hw fun m => ?_
    split
    · simp
    · exact dpFinish_noDecodeFault _ _ _ _ _ _ s
  | andSh f | eorSh f | subSh f | rsbSh f | addSh f | tstSh f | cmpSh f | cmnSh f | orrSh f | movSh f | bicSh f
  | mvnSh f => exact retire_noDecodeFault hw fun m => dpFinish_noDecodeFault _ _ _ _ _ _ s
  | andImm f | eorImm f | subImm f | rsbImm f | addImm f | tstImm f | cmpImm f | cmnImm f | orrImm f | movImm f
  | bicImm f | mvnImm f => exact retire_noDecodeFault hw fun m => dpFinish_noDecodeFault _ _ _ _ _ _ s
  | adcRsh f | sbcRsh f | rscRsh f | teqRsh f | adcSh f | sbcSh f | rscSh f | teqSh f | adcImm f | sbcImm f | rscImm f
  | teqImm f => cases hw
  | mul f | mla f => exact retire_noDecodeFault hw fun m => .next _
  | strImm f | strReg f =>
    exact retire_noDecodeFault hw fun m => lsExecute_noDecodeFault (strAccess_noDecodeFault _ _ m · s) _ _ _ _ _ m
  | ldrImm f | ldrReg f =>
    exact retire_noDecodeFault hw fun m => lsExecute_noDecodeFault (ldrAccess_noDecodeFault _ _ m · s) _ _ _ _ _ m
  | strbImm f | strbReg f =>
    exact retire_noDecodeFault hw fun m => lsExecute_noDecodeFault (strbAccess_noDecodeFault _ _ m · s) _ _ _ _ _ m
  | ldrbImm f | ldrbReg f =>
    exact retire_noDecodeFault hw fun m => lsExecute_noDecodeFault (ldrbAccess_noDecodeFault _ _ m · s) _ _ _ _ _ m
  | stm f =>
    refine retire_noDecodeFault hw fun m => ?_
    dsimp only
    split
    · simp
    · exact (storeSlots_noDecodeFault _ _ _).andThen fun _ => .next _
  | ldm f =>
    refine retire_noDecodeFault hw fun m => ?_
    dsimp only
    split
    · simp
    · exact (loadSlots_noDecodeFault _ _ _).andThen fun _ => ldmFinish_noDecodeFault _ _ _ _ _ _
  | b f | bl f => exact retire_noDecodeFault hw fun m => pcWrite_noDecodeFault _ _ _
  | mrs f =>
    refine retire_noDecodeFault hw fun m => ?_
    split
    · split <;> simp
    · exact .next _
  | msrReg f | msrImm f => exact retire_noDecodeFault hw fun m => msrWrite_noDecodeFault _ _ _ _ _ _
  | swi f => exact retire_noDecodeFault hw fun m => .next _

end

/-- Settles O31: the check is the list's first restriction by `checkWord_eq_firstOf`; a word with one stops in `retire`, and a word
with none goes on to effects none of which is a decode-time fault. -/
theorem restrictedWordsFault : Obligations.RestrictedWordsFault :=
  ⟨fun i => checkWord_eq_firstOf i.form, fun i s =>
    ⟨fun _ h => exec_restricted h s, fun h => exec_noDecodeFault ((checkWord_eq_firstOf i.form).trans h) s⟩⟩

/-- Settles O11: the opcode is the first restriction of R249 in each format, and the decoder reads TEQ from the word of BX lr. -/
theorem unimplementedOpcodesStop : Obligations.UnimplementedOpcodesStop := by
  refine ⟨fun i hi s => exec_restricted ?_ s, ⟨_, rfl⟩⟩
  simp only [List.mem_cons, List.not_mem_nil, or_false] at hi
  obtain ⟨f, rfl | rfl | rfl | rfl⟩ | ⟨f, rfl | rfl | rfl | rfl⟩ | ⟨f, rfl | rfl | rfl | rfl⟩ := hi <;> rfl

end Sys2Proof.Machine

/-!
PROOFS. Data processing (42_data_processing.md R240 to R262): the sixteen opcodes over one handler in three formats, and so one
proof of what an opcode writes and one of what it compares; the flags of R248 as exact arithmetic; and the amounts of a register
shift (R245).
-/

namespace Sys2Proof.Machine

open Sys2Proof

/-! ## The opcodes over the common handler -/

/-- What an opcode computes (R251 to R262); none for those this core lacks (R263). -/
def aluOf : DpOp → Option AluOp
  | .and => some aluAnd
  | .eor => some aluEor
  | .sub => some aluSub
  | .rsb => some aluRsb
  | .add => some aluAdd
  | .tst => some aluTst
  | .cmp => some aluCmp
  | .cmn => some aluCmn
  | .orr => some aluOrr
  | .mov => some aluMov
  | .bic => some aluBic
  | .mvn => some aluMvn
  | .adc | .sbc | .rsc | .teq => none

section
variable {op : DpOp} {alu : AluOp} (h : aluOf op = some alu)
include h

theorem exec_dpi (f : Dpi) (s : State) :
    exec (Form.instr (.dpi op f)) s = dpImm (Form.instr (.dpi op f)) alu (!op.compareOnly) f s := by
  cases op <;> cases h <;> rfl

theorem exec_dps (f : Dps) (s : State) :
    exec (Form.instr (.dps op f)) s = dpSh (Form.instr (.dps op f)) alu (!op.compareOnly) f s := by
  cases op <;> cases h <;> rfl

theorem exec_dpr (f : Dpr) (s : State) :
    exec (Form.instr (.dpr op f)) s = dpRsh (Form.instr (.dpr op f)) alu (!op.compareOnly) f s := by
  cases op <;> cases h <;> rfl

end

/-- An opcode whose word passes the check has a meaning. -/
theorem aluOf_of_checkDp {op : DpOp} {s : Bool} {rd : RegNum} {rest : Option DecodeFault}
    (h : checkDp op s rd rest = none) : ∃ alu, aluOf op = some alu := by
  cases op with
  | adc | sbc | rsc | teq => cases h
  | _ => exact ⟨_, rfl⟩

/-- A compare whose word passes the check sets the flags (R249). -/
theorem sets_of_checkDp {op : DpOp} {s : Bool} {rd : RegNum} {rest : Option DecodeFault} (hc : op.compareOnly = true)
    (h : checkDp op s rd rest = none) : s = true := by
  unfold checkDp at h
  split_ifs at h with _ hs
  simpa [hc] using hs

/-- The first restriction of a compare with `S = 0`. -/
theorem firstOf_compare_noS {op : DpOp} (hc : op.compareOnly = true) (rd : RegNum) (rest : List (Bool × DecodeFault)) :
    firstOf (dpRestrictions op false rd ++ rest) = some .intCompareNoS := by
  cases op with
  | tst | cmp | cmn => rfl
  | _ => cases hc

/-- The check of a format whose instruction is ready. -/
theorem Ready.checkWord {form : Form} {m : Mode} {s : State} (h : Ready form.instr m s) : form.checkWord = none := by
  rw [← h.word, Instr.checkWord, Form.form_instr]

section
variable {op : DpOp} {alu : AluOp} {m : Mode} {s : State} (h : aluOf op = some alu)
include h

theorem exec_dpi_ready {f : Dpi} (hr : Ready (Form.instr (.dpi op f)) m s) :
    exec (Form.instr (.dpi op f)) s =
      andThen (dpFinish (Form.instr (.dpi op f)) (!op.compareOnly) f.s f.rd m (dpiIn alu m f s) s)
        (accountInstr (Form.instr (.dpi op f)) s) :=
  (exec_dpi h f s).trans (retire_ready hr _)

theorem exec_dps_ready {f : Dps} (hr : Ready (Form.instr (.dps op f)) m s) :
    exec (Form.instr (.dps op f)) s =
      andThen (dpFinish (Form.instr (.dps op f)) (!op.compareOnly) f.s f.rd m (dpsIn alu m f s) s)
        (accountInstr (Form.instr (.dps op f)) s) :=
  (exec_dps h f s).trans (retire_ready hr _)

theorem exec_dpr_ready {f : Dpr} {x : ShiftOut} (hr : Ready (Form.instr (.dpr op f)) m s) (hx : dprShift m f s = some x) :
    exec (Form.instr (.dpr op f)) s =
      andThen (dpFinish (Form.instr (.dpr op f)) (!op.compareOnly) f.s f.rd m (dprIn alu m f x s) s)
        (accountInstr (Form.instr (.dpr op f)) s) := by
  refine (exec_dpr h f s).trans ((retire_ready hr _).trans ?_)
  rw [dprShift] at hx
  simp only [hx]
  rfl

/-- An amount that is fatal stops every opcode that executes (R245). -/
theorem exec_dpr_fatal {f : Dpr} (hr : Ready (Form.instr (.dpr op f)) m s) (hx : dprShift m f s = none) :
    exec (Form.instr (.dpr op f)) s =
      raise (.unimpRegShift32 (encode (Form.instr (.dpr op f))) (s.cpu.pc - 8) (regAmount m f.rs s)) s := by
  refine (exec_dpr h f s).trans ((retire_ready hr _).trans ?_)
  rw [dprShift] at hx
  simp only [hx]
  rfl

end

/-! ## What an opcode writes -/

/-- An opcode that writes Rd does what it computes, in the three formats. -/
theorem writesInAllForms {op : DpOp} {alu : AluOp} (h : aluOf op = some alu) (hc : op.compareOnly = false) :
    WritesInAllForms (fun f => Form.instr (.dpi op f)) (fun f => Form.instr (.dps op f))
      (fun f => Form.instr (.dpr op f)) alu where
  imm f m s hr := dpWrites_of hr fun r hf => by rw [exec_dpi_ready h hr, hc, ← hf]; rfl
  sh f m s hr := dpWrites_of hr fun r hf => by rw [exec_dps_ready h hr, hc, ← hf]; rfl
  rsh f m s x hr hx := dpWrites_of hr fun r hf => by rw [exec_dpr_ready h hr hx, hc, ← hf]; rfl

/-! ## What an opcode compares -/

/-- A ready instruction whose body is `dpFinish` for a compare does what `DpCompares` says. -/
theorem dpCompares_of {i : Instr} {m : Mode} {rd : RegNum} {b : Bool} {o : AluOut} {s : State} (h : Ready i m s)
    (hb : b = true) (he : exec i s = andThen (dpFinish i false b rd m o s) (accountInstr i s)) : DpCompares i o s := by
  subst hb
  exact ⟨_, he.trans (h.account (u := advance (setFlags true o s)) (by simp) (by simp)), compares_of h.time o⟩

/-- A compare does what it computes, in the three formats, and stops with `S = 0`. -/
theorem comparesInAllForms {op : DpOp} {alu : AluOp} (h : aluOf op = some alu) (hc : op.compareOnly = true) :
    ComparesInAllForms (fun f => Form.instr (.dpi op f)) (fun f => Form.instr (.dps op f))
      (fun f => Form.instr (.dpr op f)) alu where
  immNoS f s hs := exec_restricted (by
    rw [Form.form_instr, restrictions, hs, ← List.append_nil (dpRestrictions _ _ _)]
    exact firstOf_compare_noS hc f.rd []) s
  shNoS f s hs := exec_restricted (by rw [Form.form_instr, restrictions, hs]; exact firstOf_compare_noS hc f.rd _) s
  rshNoS f s hs := exec_restricted (by rw [Form.form_instr, restrictions, hs]; exact firstOf_compare_noS hc f.rd _) s
  imm f m s hr := dpCompares_of hr (sets_of_checkDp hc hr.checkWord) (by rw [exec_dpi_ready h hr, hc]; rfl)
  sh f m s hr := dpCompares_of hr (sets_of_checkDp hc hr.checkWord) (by rw [exec_dps_ready h hr, hc]; rfl)
  rsh f m s x hr hx := dpCompares_of hr (sets_of_checkDp hc hr.checkWord) (by rw [exec_dpr_ready h hr hx, hc]; rfl)

/-! ## The results, opcode by opcode -/

/-- `add_flags`, its signs read as bits 31 (R248). -/
theorem addFlags_eq (x y : Word) : addFlags x y = ⟨x + y, decide (2 ^ 32 ≤ x.toNat + y.toNat),
    (x.getLsbD 31 == y.getLsbD 31) && ((x + y).getLsbD 31 != x.getLsbD 31)⟩ := by
  simp only [addFlags, msb_eq_getLsbD, ge_iff_le]

/-- `sub_flags`, its signs read as bits 31 (R248). -/
theorem subFlags_eq (x y : Word) : subFlags x y = ⟨x - y, decide (y.toNat ≤ x.toNat),
    (x.getLsbD 31 != y.getLsbD 31) && ((x - y).getLsbD 31 != x.getLsbD 31)⟩ := by
  simp only [subFlags, msb_eq_getLsbD, ge_iff_le]

/-- Settles O1: `writesInAllForms` for AND. -/
theorem andResult : Obligations.AndResult := writesInAllForms (op := .and) rfl rfl

/-- Settles O2: `writesInAllForms` for EOR. -/
theorem eorResult : Obligations.EorResult := writesInAllForms (op := .eor) rfl rfl

/-- Settles O3: `writesInAllForms` for SUB, its flags those of `subFlags` with the right operand first. -/
theorem subIsReversed : Obligations.SubIsReversed := by
  unfold Obligations.SubIsReversed
  simp only [← subFlags_eq]
  exact writesInAllForms (op := .sub) rfl rfl

/-- Settles O4: `writesInAllForms` for RSB, its flags those of `subFlags` with Rn first. -/
theorem rsbIsReversed : Obligations.RsbIsReversed := by
  unfold Obligations.RsbIsReversed
  simp only [← subFlags_eq]
  exact writesInAllForms (op := .rsb) rfl rfl

/-- Settles O5: `writesInAllForms` for ADD, its flags those of `addFlags`. -/
theorem addResult : Obligations.AddResult := by
  unfold Obligations.AddResult
  simp only [← addFlags_eq]
  exact writesInAllForms (op := .add) rfl rfl

/-- Settles O6: `writesInAllForms` for ORR. -/
theorem orrResult : Obligations.OrrResult := writesInAllForms (op := .orr) rfl rfl

/-- Settles O7: `writesInAllForms` for MOV. -/
theorem movResult : Obligations.MovResult := writesInAllForms (op := .mov) rfl rfl

/-- Settles O8: `writesInAllForms` for BIC. -/
theorem bicResult : Obligations.BicResult := writesInAllForms (op := .bic) rfl rfl

/-- Settles O9: `writesInAllForms` for MVN. -/
theorem mvnResult : Obligations.MvnResult := writesInAllForms (op := .mvn) rfl rfl

/-- Settles O10: `comparesInAllForms` for the three opcodes, the operand order of CMP being a parameter. -/
theorem compareResults : Obligations.CompareResults := by
  unfold Obligations.CompareResults
  simp only [← subFlags_eq, ← addFlags_eq]
  exact ⟨comparesInAllForms (op := .tst) rfl rfl, comparesInAllForms (op := .cmp) rfl rfl,
    comparesInAllForms (op := .cmn) rfl rfl⟩

/-! ## Exact arithmetic (R248) -/

theorem addFlags_carry_iff (x y : Word) : (addFlags x y).c = true ↔ (addFlags x y).res.toNat ≠ x.toNat + y.toNat := by
  have hx := x.isLt
  have hy := y.isLt
  simp only [addFlags, decide_eq_true_eq, BitVec.toNat_add]
  omega

theorem subFlags_carry_iff (x y : Word) :
    (subFlags x y).c = true ↔ ((subFlags x y).res.toNat : Int) = x.toNat - y.toNat := by
  have hx := x.isLt
  have hy := y.isLt
  simp only [subFlags, decide_eq_true_eq, BitVec.toNat_sub]
  omega

/-- V of an addition is the library's signed overflow. -/
theorem addFlags_overflow (x y : Word) : (addFlags x y).v = x.saddOverflow y := by
  rw [BitVec.saddOverflow_eq]
  rfl

/-- V of a subtraction is the library's signed overflow, which lists the two signs that can overflow. -/
theorem subFlags_overflow (x y : Word) : (subFlags x y).v = x.ssubOverflow y := by
  rw [BitVec.ssubOverflow_eq, subFlags]
  cases x.msb <;> cases y.msb <;> cases (x - y).msb <;> rfl

theorem saddOverflow_iff (x y : Word) : x.saddOverflow y = true ↔ (x + y).toInt ≠ x.toInt + y.toInt := by
  refine ⟨fun h => ?_, fun h => by_contra fun hn => h (BitVec.toInt_add_of_not_saddOverflow hn)⟩
  have lt := (x + y).toInt_lt
  have le := (x + y).le_toInt
  simp only [BitVec.saddOverflow, Bool.or_eq_true, decide_eq_true_eq] at h
  omega

theorem ssubOverflow_iff (x y : Word) : x.ssubOverflow y = true ↔ (x - y).toInt ≠ x.toInt - y.toInt := by
  refine ⟨fun h => ?_, fun h => by_contra fun hn => h (BitVec.toInt_sub_of_not_ssubOverflow hn)⟩
  have lt := (x - y).toInt_lt
  have le := (x - y).le_toInt
  simp only [BitVec.ssubOverflow, Bool.or_eq_true, decide_eq_true_eq] at h
  omega

/-- Settles O12: the carries by arithmetic modulo 2^32, the overflows by the library's. -/
theorem flagsAreExact : Obligations.FlagsAreExact := by
  intro x y
  refine ⟨addFlags_carry_iff x y, ?_, subFlags_carry_iff x y, ?_⟩
  · rw [addFlags_overflow]
    exact saddOverflow_iff x y
  · rw [subFlags_overflow]
    exact ssubOverflow_iff x y

/-! ## Register shift amounts (R245) -/

/-- Amounts of 1 to 31 are those of an immediate shift. -/
theorem regShift_lt (cfg : Config) (kind : ShiftKind) (v : Word) (c : Bool) {n : BitVec 5} (hn : n ≠ 0#5) :
    regShift cfg kind v n.toNat c = some (immShift kind v n c) := by
  have hz : n.toNat ≠ 0 := fun h => hn (BitVec.eq_of_toNat_eq h)
  rw [immShift_of_ne_zero _ _ hn, regShift, if_neg hz, if_pos n.isLt]

theorem regShift_armSemantics {cfg : Config} (h : cfg.regShiftGe32 = .armSemantics) {k : Nat} (hk : 32 ≤ k)
    (kind : ShiftKind) (v : Word) (c : Bool) : regShift cfg kind v k c = some (armShift kind v k) := by
  simp only [regShift, h, if_neg (show ¬k = 0 by omega), if_neg (Nat.not_lt.2 hk)]

theorem regShift_fault {cfg : Config} (h : cfg.regShiftGe32 = .fault) {k : Nat} (hk : 32 ≤ k) (kind : ShiftKind)
    (v : Word) (c : Bool) : regShift cfg kind v k c = none := by
  simp only [regShift, h, if_neg (show ¬k = 0 by omega), if_neg (Nat.not_lt.2 hk)]

/-- A rotation by an amount that is no multiple of 32 is the immediate one by its low five bits. -/
theorem armShift_ror {k : Nat} (hk : k % 32 ≠ 0) (v : Word) (c : Bool) :
    armShift .ror v k = immShift .ror v (BitVec.ofNat 5 k) c := by
  have low : (BitVec.ofNat 5 k).toNat = k % 32 := BitVec.toNat_ofNat k 5
  have hn : BitVec.ofNat 5 k ≠ 0#5 := fun h => hk (by rw [← low, h]; rfl)
  rw [immShift_of_ne_zero _ _ hn, low, armShift, if_neg hk]

/-- An amount of 32 or more stops every register shift that executes, with `REG_SHIFT_GE32 = FAULT`. -/
theorem exec_dpr_amount_fault {op : DpOp} {f : Dpr} {m : Mode} {s : State} (hr : Ready (Form.instr (.dpr op f)) m s)
    (hp : s.config.regShiftGe32 = .fault) (hk : 32 ≤ regAmount m f.rs s) :
    exec (Form.instr (.dpr op f)) s =
      raise (.unimpRegShift32 (encode (Form.instr (.dpr op f))) (s.cpu.pc - 8) (regAmount m f.rs s)) s := by
  obtain ⟨alu, h⟩ := aluOf_of_checkDp hr.checkWord
  exact exec_dpr_fatal h hr (regShift_fault hp hk _ _ _)

/-- Settles O14: each range of amounts by its lemma, and `Rs = 15` by the list of restrictions. -/
theorem registerShiftAmounts : Obligations.RegisterShiftAmounts := by
  refine ⟨fun _ _ _ _ => rfl, fun cfg kind v c n hn => regShift_lt cfg kind v c hn, fun cfg v c k hp hk => ?_,
    fun op f m s hr hp hk => exec_dpr_amount_fault hr hp hk, fun op f s hd hrs => exec_restricted ?_ s⟩
  · simp only [regShift_armSemantics hp hk]
    refine ⟨?_, ?_, ?_, fun hz => ?_, fun hz => by rw [armShift_ror hz v c]⟩
    · rfl
    · rw [armShift, msb_eq_getLsbD]; rfl
    · rw [armShift, msb_eq_getLsbD]; rfl
    · rw [armShift, if_pos hz, msb_eq_getLsbD]
  · rw [Form.form_instr, restrictions, firstOf_append, hd, hrs]
    rfl

end Sys2Proof.Machine

/-!
PROOFS. Single loads and stores of plain memory (43_load_store.md R304 to R308, 20_memory.md R83, R87, R88): the frame of an
access that plain memory answers, and both ways of it in either width and format.
-/

namespace Sys2Proof.Machine

open Sys2Proof

/-! ## The frame of an access to plain memory -/

/-- What the engine keeps and what the access has left outside it are together the instruction's frame. -/
theorem EngineKeeps.keepsAllBut {l : List PhysReg} {b : List Nat} {r : List LogRecord} {s u t : State}
    (h : EngineKeeps l s t) (hl : LeftBy u t) (hu : KeepsAllBut [] b r s u) : KeepsAllBut l b r s t := by
  have hw := hl.world
  simp only [State.world, World.mk.injEq] at hw
  obtain ⟨hsched, hmem, hhost, hlog, hdraws⟩ := hw
  exact {
    regs := h.regs
    flags := by simp [FlagsSame, h.cpsr]
    control := by simp [ControlSame, h.cpsr]
    spsr := h.spsr
    pending := h.pending
    mem := fun a ha => by rw [hmem, hu.mem a ha]
    log := hlog.trans hu.log
    outside := ⟨hsched.trans hu.outside.sched, hhost.trans hu.outside.host, hl.fault.trans hu.outside.fault,
      hl.turn.trans hu.outside.turn, hdraws.trans hu.outside.draws, hl.config.trans hu.outside.config⟩ }

/-- The records an access emits (R87): a byte access emits none. -/
def SingleAccess.records (x : SingleAccess) (i : Instr) (m : Mode) (s : State) : List LogRecord :=
  if x.byte then [] else recordsOf i (!x.isLoad) (x.addr m s) s

section
variable {i : Instr} {m : Mode} {x : SingleAccess} {s : State}

@[simp] theorem SingleAccess.logged_mem : (x.logged i m s).mem = s.mem := by unfold logged; split <;> rfl

@[simp] theorem SingleAccess.logged_plainAccess (width : Width) (a : Word) :
    (x.logged i m s).plainAccess width a = s.plainAccess width a := by
  rw [State.plainAccess, State.plainAccess, logged_host]

theorem SingleAccess.logged_log : (x.logged i m s).log = s.log ++ x.records i m s := by
  unfold logged records
  split
  · rw [List.append_nil]
  · rfl

theorem SingleAccess.logged_keeps : KeepsAllBut [] [] (x.records i m s) s (x.logged i m s) := by
  refine ⟨fun _ _ => by simp, by simp [FlagsSame], by simp [ControlSame], by simp, by simp, fun _ _ => by simp,
    logged_log, ?_⟩
  unfold logged
  split <;> exact ⟨rfl, rfl, rfl, rfl, rfl, rfl⟩

/-! ## Loads and stores in either width -/

/-- A load of plain memory, in either width: the value read, the writeback and the frame. -/
theorem RunsAs.plainLoads (h : RunsAs i m x s) (hl : x.isLoad = true) (ha : x.allowed m s = true)
    (hp : s.plainAccess x.width (x.bus m s) = true) :
    ∃ t, exec i s = .next t ∧ readReg m x.rd t = x.value m s (s.mem.load x.width (x.bus m s)) ∧
      ((!x.p || x.w) = true → readReg m x.rn t = offsetAddr x.u (readReg m x.rn s) x.off) ∧
      KeepsAllBut ((phys m x.rd).toList ++ writtenBack x.p x.w m x.rn) [] (x.records i m s) s t ∧ Advanced i s t := by
  have hr : load i x.width (x.bus m s) (x.logged i m s) = .next (s.mem.load x.width (x.bus m s), x.logged i m s) := by
    rw [load, busRead_plain (by simpa using hp), SingleAccess.logged_mem]
  obtain ⟨t, he, hrd, hrn, hk, hleft, hadv⟩ := h.load_completes hl ha hr
  exact ⟨t, he, hrd, hrn, hk.keepsAllBut hleft SingleAccess.logged_keeps, hadv⟩

/-- A store to plain memory, in either width: the memory it leaves, the writeback and the frame. -/
theorem RunsAs.plainStores (h : RunsAs i m x s) (hl : x.isLoad = false) (ha : x.allowed m s = true)
    (hp : s.plainAccess x.width (x.bus m s) = true) :
    ∃ t, exec i s = .next t ∧ t.mem = s.mem.store x.width (x.bus m s) (readReg m x.rd s) ∧
      ((!x.p || x.w) = true → readReg m x.rn t = offsetAddr x.u (readReg m x.rn s) x.off) ∧
      KeepsAllBut (writtenBack x.p x.w m x.rn) (accessAddrs (x.bus m s) x.width.bytes) (x.records i m s) s t ∧
      Advanced i s t := by
  have hr : store i x.width (x.bus m s) (readReg m x.rd s) (x.logged i m s) = .next { x.logged i m s with
      mem := (x.logged i m s).mem.store x.width (x.bus m s) (readReg m x.rd s) } := by
    rw [store, busWrite_plain (by simpa using hp)]
  obtain ⟨t, he, hrn, hk, hleft, hadv⟩ := h.store_completes hl ha hr
  have hmem : t.mem = (x.logged i m s).mem.store x.width (x.bus m s) (readReg m x.rd s) :=
    congrArg World.mem hleft.world
  have hstored := SingleAccess.logged_keeps.trans (.store x.width (x.bus m s) (readReg m x.rd s) (x.logged i m s))
  refine ⟨t, he, ?_, hrn, ?_, hadv⟩
  · rwa [SingleAccess.logged_mem] at hmem
  · simpa using hk.keepsAllBut hleft hstored

/-! ## The four instructions -/

theorem RunsAs.loadsWord (h : RunsAs i m x s) (hl : x.isLoad = true) (hb : x.byte = false) :
    LoadsWord i m x.p x.u x.w x.rn x.rd x.off s := by
  obtain ⟨byte, isLoad, p, u, w, rn, rd, off⟩ := x
  obtain rfl : byte = false := hb
  obtain rfl : isLoad = true := hl
  exact fun ha hp => h.plainLoads rfl ha hp

theorem RunsAs.loadsByte (h : RunsAs i m x s) (hl : x.isLoad = true) (hb : x.byte = true) :
    LoadsByte i m x.p x.u x.w x.rn x.rd x.off s := by
  obtain ⟨byte, isLoad, p, u, w, rn, rd, off⟩ := x
  obtain rfl : byte = true := hb
  exact fun hp => h.plainLoads hl rfl hp

/-- The word stored is read back whole (R305). -/
theorem RunsAs.storesWord (h : RunsAs i m x s) (hl : x.isLoad = false) (hb : x.byte = false) :
    StoresWord i m x.p x.u x.w x.rn x.rd x.off s := by
  obtain ⟨byte, isLoad, p, u, w, rn, rd, off⟩ := x
  obtain rfl : byte = false := hb
  obtain rfl : isLoad = false := hl
  intro ha hp
  obtain ⟨t, he, hmem, hrest⟩ := h.plainStores rfl ha hp
  refine ⟨t, he, fun hm => ?_, hrest⟩
  rw [hmem]
  exact Memory.readWord_writeWord hm _ _

theorem byteOfWord_zero (v : Word) : byteOfWord v 0 = v.setWidth 8 :=
  (BitVec.setWidth_eq_extractLsb' (by decide)).symm

/-- The byte stored is the low one (R307). -/
theorem RunsAs.storesByte (h : RunsAs i m x s) (hl : x.isLoad = false) (hb : x.byte = true) :
    StoresByte i m x.p x.u x.w x.rn x.rd x.off s := by
  obtain ⟨byte, isLoad, p, u, w, rn, rd, off⟩ := x
  obtain rfl : byte = true := hb
  intro hp
  obtain ⟨t, he, hmem, hrest⟩ := h.plainStores hl rfl hp
  refine ⟨t, he, fun hm => ?_, hrest⟩
  rw [hmem, ← byteOfWord_zero]
  exact (Memory.readByte_writeByte hm _ _ _).trans (if_pos rfl)

end

/-- Settles O16: `RunsAs.loadsWord` in the two formats. -/
theorem ldrLoadsWord : Obligations.LdrLoadsWord :=
  ⟨fun _ _ _ h => (runsAs_lsi (byte := false) (isLoad := true) h).loadsWord rfl rfl,
    fun _ _ _ h => (runsAs_lsr (byte := false) (isLoad := true) h).loadsWord rfl rfl⟩

/-- Settles O17: `RunsAs.storesWord` in the two formats. -/
theorem strStoresWord : Obligations.StrStoresWord :=
  ⟨fun _ _ _ h => (runsAs_lsi (byte := false) (isLoad := false) h).storesWord rfl rfl,
    fun _ _ _ h => (runsAs_lsr (byte := false) (isLoad := false) h).storesWord rfl rfl⟩

/-- Settles O18: `RunsAs.loadsByte` and `RunsAs.storesByte`, each in the two formats. -/
theorem byteAccesses : Obligations.ByteAccesses :=
  ⟨fun _ _ _ h => (runsAs_lsi (byte := true) (isLoad := true) h).loadsByte rfl rfl,
    fun _ _ _ h => (runsAs_lsr (byte := true) (isLoad := true) h).loadsByte rfl rfl,
    fun _ _ _ h => (runsAs_lsi (byte := true) (isLoad := false) h).storesByte rfl rfl,
    fun _ _ _ h => (runsAs_lsr (byte := true) (isLoad := false) h).storesByte rfl rfl⟩

end Sys2Proof.Machine

/-!
PROOFS. Block transfers between registers and plain memory (44_block_transfer.md R340 to R345): where the walk stands at each
register and where it ends, against the table of R341; the slots of an LDM read and those of an STM written, the slots of one walk
lying apart.
-/

namespace Sys2Proof.Machine

open Sys2Proof

/-! ## The walk in closed form -/

theorem walkRegs_eq (f : BtFields) :
    walkRegs f = if f.u then allRegs.filter (fun r => f.listed r) else (allRegs.filter (fun r => f.listed r)).reverse := by
  unfold walkRegs
  split
  · rfl
  · exact List.filter_reverse

theorem walkFinal_eq (up : Bool) (rs : List RegNum) (a : Word) :
    walkFinal up rs a = if up then a + BitVec.ofNat 32 (4 * rs.length) else a - BitVec.ofNat 32 (4 * rs.length) := by
  induction rs generalizing a with
  | nil => cases up <;> simp [walkFinal]
  | cons r rs ih =>
    rw [walkFinal, ih, List.length_cons]
    cases up <;> simp only [walkStep, if_true, Bool.false_eq_true, if_false] <;> bv_omega

/-- The first slot of a walk from `a`: before or after the first step (R341). -/
def firstSlot (p up : Bool) (a : Word) : Word := if p then walkStep up a else a

theorem firstSlot_walkStep (p up : Bool) (a : Word) : firstSlot p up (walkStep up a) = walkStep up (firstSlot p up a) := by
  cases p <;> rfl

/-- A slot's address has walked past the registers before it. -/
theorem mem_walkSlots {p up : Bool} {rs : List RegNum} {a : Word} {q : RegNum × Word} (h : q ∈ walkSlots p up rs a) :
    ∃ before after, rs = before ++ q.1 :: after ∧ q.2 = walkFinal up before (firstSlot p up a) := by
  induction rs generalizing a with
  | nil => cases h
  | cons r rs ih =>
    rcases List.mem_cons.1 h with rfl | hm
    · exact ⟨[], rs, rfl, rfl⟩
    · obtain ⟨before, after, hs, ha⟩ := ih hm
      exact ⟨r :: before, after, by rw [hs, List.cons_append], by rw [ha, firstSlot_walkStep, walkFinal]⟩

/-! ## The table of R341 -/

theorem walkRegs_length (f : BtFields) : (walkRegs f).length = btCount f := by
  rw [walkRegs_eq, btCount]
  split
  · rfl
  · exact List.length_reverse

theorem btCount_le (f : BtFields) : btCount f ≤ 16 := List.length_filter_le _ allRegs

theorem btFinal_eq_table (f : BtFields) (base : Word) : btFinal f base = btFinalAddr f base := by
  rw [btFinal, walkFinal_eq, walkRegs_length]
  rfl

theorem allRegs_sorted : allRegs.Pairwise fun q r => q.toNat < r.toNat := by decide

/-- In a rising list, the registers below one are those before it. -/
theorem filter_below_of_sorted {before after : List RegNum} {r : RegNum}
    (h : (before ++ r :: after).Pairwise fun q r => q.toNat < r.toNat) :
    (before ++ r :: after).filter (fun q => decide (q.toNat < r.toNat)) = before := by
  obtain ⟨-, hr, hbefore⟩ := List.pairwise_append.1 h
  have above : ∀ q ∈ r :: after, ¬q.toNat < r.toNat := fun q hq => by
    rcases List.mem_cons.1 hq with rfl | hm
    · exact lt_irrefl _
    · exact lt_asymm ((List.pairwise_cons.1 hr).1 q hm)
  rw [List.filter_append, List.filter_eq_self.2 fun q hq => decide_eq_true (hbefore q hq r List.mem_cons_self),
    List.filter_eq_nil_iff.2 (by simpa using above), List.append_nil]

section
variable {f : BtFields} {base : Word} {before after : List RegNum} {r : RegNum}

theorem btRank_of_split (h : allRegs.filter (fun q => f.listed q) = before ++ r :: after) : btRank f r = before.length := by
  have hsorted : (before ++ r :: after).Pairwise fun q r => q.toNat < r.toNat := h ▸ allRegs_sorted.filter _
  have hrank : allRegs.filter (fun q => f.listed q && decide (q.toNat < r.toNat)) =
      (allRegs.filter fun q => f.listed q).filter fun q => decide (q.toNat < r.toNat) := by
    simp only [List.filter_filter, Bool.and_comm]
  rw [btRank, hrank, h, filter_below_of_sorted hsorted]

theorem btCount_of_split (h : allRegs.filter (fun q => f.listed q) = before ++ r :: after) :
    btCount f = before.length + 1 + after.length := by
  rw [btCount, h, List.length_append, List.length_cons]
  omega

/-- Upward the walk has passed a register's rank, downward the registers above it. -/
theorem btSlots_eq_table {q : RegNum × Word} (h : q ∈ btSlots f base) : q.2 = btSlotAddr f base q.1 := by
  obtain ⟨before, after, hs, ha⟩ := mem_walkSlots h
  rw [walkRegs_eq] at hs
  rw [ha, walkFinal_eq, firstSlot, btSlotAddr, btLowest]
  cases hu : f.u
  · have hs' : allRegs.filter (fun r => f.listed r) = after.reverse ++ q.1 :: before.reverse := by
      simpa [hu] using congrArg List.reverse hs
    rw [btRank_of_split hs', btCount_of_split hs']
    simp only [List.length_reverse]
    cases f.p <;> simp only [walkStep, if_true, Bool.false_eq_true, if_false] <;> bv_omega
  · have hs' : allRegs.filter (fun r => f.listed r) = before ++ q.1 :: after := by simpa [hu] using hs
    rw [btRank_of_split hs']
    cases f.p <;> simp only [walkStep, if_true, Bool.false_eq_true, if_false]

end

/-- Settles O22: the registers are the filtered list or its reverse, the slots `btSlots_eq_table`, the end `btFinal_eq_table`. -/
theorem walkFollowsTable : Obligations.WalkFollowsTable := fun f base =>
  ⟨(btSlots_regs f base).trans (walkRegs_eq f), fun _ hq => btSlots_eq_table hq, btFinal_eq_table f base⟩

/-! ## Loads of plain memory -/

section
variable {f : BtFields} {m : Mode} {s : State}

theorem loadSlots_plain {i : Instr} {slots : List (RegNum × Word)} (hp : ∀ q ∈ slots, s.plainAccess .word q.2 = true) :
    loadSlots i slots s = .next (slots.map fun q => (q.1, s.mem.readWord q.2), s) := by
  induction slots with
  | nil => rfl
  | cons q rest ih =>
    have : load i .word q.2 s = .next (s.mem.readWord q.2, s) := busRead_plain (hp q List.mem_cons_self) _ _
    rw [loadSlots, this, andThen_next, ih fun p hm => hp p (List.mem_cons_of_mem _ hm)]
    rfl

theorem loadedPc_of_mem {l : List (RegNum × Word)} {v : Word} (hn : (l.map Prod.fst).Nodup) (h : (15#4, v) ∈ l) :
    loadedPc l = some v := by
  cases hl : loadedPc l with
  | none => exact absurd (List.mem_map_of_mem h) (loadedPc_none hl)
  | some w =>
    obtain ⟨-, rfl⟩ := Prod.mk.inj (List.inj_on_of_nodup_map hn (loadedPc_mem hl) h rfl)
    rfl

theorem pcWrite_unaligned {v : Word} (h : v.toNat % 4 ≠ 0) (i : Instr) (s : State) :
    pcWrite i v s = raise (.unimpPcUnaligned (encode i) s.instrAddr v) s :=
  if_neg fun hc => h (isAligned_iff.1 hc)

/-- An LDM that loads an unaligned value for R15 stops, everything being as it was (R343). -/
theorem ldm_pc_unaligned {loaded : List (RegNum × Word)} {v : Word} (h : Ready (.ldm f) m s)
    (ha : (readReg m f.rn s).toNat % 4 = 0)
    (hr : loadSlots (.ldm f) (btSlots f (readReg m f.rn s)) s = .next (loaded, s))
    (hv : loadedPc loaded = some v) (hpc : v.toNat % 4 ≠ 0) :
    exec (.ldm f) s = raise (.unimpPcUnaligned (encode (.ldm f)) s.instrAddr v) s := by
  have hreg : RegsOnly s.cpu (ldmBody f (readReg m f.rn s) m loaded s).cpu :=
    ((RegsOnly.ofEq rfl).writeRegs m loaded).writeback f _ m
  have hleft : LeftBy s (ldmBody f (readReg m f.rn s) m loaded s) :=
    ((LeftBy.refl s).writeRegs m loaded).writeback f.w m _ _
  have hend : ldmFinish (.ldm f) f (readReg m f.rn s) m loaded s =
      pcWrite (.ldm f) v (ldmBody f (readReg m f.rn s) m loaded s) := by
    rw [ldmFinish, hv]
    rfl
  obtain ⟨hsame, -⟩ := hreg
  have haddr : (ldmBody f (readReg m f.rn s) m loaded s).instrAddr = s.instrAddr := congrArg (· - 8) hsame
  rw [exec_ldm_aligned h ha, hr, andThen_next, hend, pcWrite_unaligned hpc, haddr, raise, raise, hleft.world]
  rfl

end

/-- Settles O23: the slots are read as `loadSlots_plain`; the transfer is `ldm_completes`, its frame that of unchanged memory, or
stops at R15 by `ldm_pc_unaligned`. -/
theorem ldmLoadsRegisters : Obligations.LdmLoadsRegisters := by
  intro f m s h base ha hp
  have hload := loadSlots_plain (i := .ldm f) hp
  have hregs : ((btSlots f base).map fun q => (q.1, s.mem.readWord q.2)).map Prod.fst = walkRegs f := by
    rw [← btSlots_regs f base, List.map_map]
    rfl
  constructor
  · intro hpc
    obtain ⟨t, he, hvals, hbase, hkeep, hleft, hjump, hadv⟩ := ldm_completes h ha hload hregs (List.forall_mem_map.2 hpc)
    have hframe := hkeep.keepsAllBut hleft (KeepsAllBut.refl [] [] s)
    rw [List.filterMap_map] at hframe
    exact ⟨t, he, List.forall_mem_map.1 hvals, hbase, hframe, List.forall_mem_map.1 hjump, hadv⟩
  · intro q hq h15 hpc
    have hmem := List.mem_map_of_mem (f := fun q => (q.1, s.mem.readWord q.2)) hq
    rw [h15] at hmem
    exact ldm_pc_unaligned h ha hload (loadedPc_of_mem (hregs ▸ walkRegs_nodup f) hmem) hpc

/-! ## The slots lie apart -/

theorem aligned_walkFinal {up : Bool} {a : Word} (h : a.toNat % 4 = 0) (rs : List RegNum) :
    (walkFinal up rs a).toNat % 4 = 0 := by
  rw [walkFinal_eq]
  split <;> bv_omega

theorem aligned_firstSlot {a : Word} (h : a.toNat % 4 = 0) (p up : Bool) : (firstSlot p up a).toNat % 4 = 0 := by
  unfold firstSlot
  split
  · exact aligned_walkFinal (rs := [0#4]) h
  · exact h

theorem btSlots_aligned {f : BtFields} {base : Word} (h : base.toNat % 4 = 0) {q : RegNum × Word} (hq : q ∈ btSlots f base) :
    q.2.toNat % 4 = 0 := by
  obtain ⟨before, -, -, ha⟩ := mem_walkSlots hq
  rw [ha]
  exact aligned_walkFinal (aligned_firstSlot h f.p f.u) before

/-- A walk of at most sixteen registers does not come back to an address. -/
theorem walkSlots_apart {p up : Bool} {rs : List RegNum} (h : rs.length ≤ 16) (a : Word) :
    (walkSlots p up rs a).Pairwise fun q q' => q.2 ≠ q'.2 := by
  induction rs generalizing a with
  | nil => exact .nil
  | cons r rs ih =>
    rw [List.length_cons] at h
    refine List.pairwise_cons.2 ⟨fun q hq => ?_, ih (by omega) _⟩
    obtain ⟨before, after, hs, ha⟩ := mem_walkSlots hq
    have hlen : rs.length = before.length + (after.length + 1) := by rw [hs, List.length_append, List.length_cons]
    have hstep : q.2 = walkFinal up (r :: before) (firstSlot p up a) := by rw [ha, firstSlot_walkStep, walkFinal]
    rw [hstep, walkFinal_eq, List.length_cons]
    change firstSlot p up a ≠ _
    split <;> bv_omega

theorem btSlots_apart (f : BtFields) (base : Word) : (btSlots f base).Pairwise fun q q' => q.2 ≠ q'.2 :=
  walkSlots_apart ((walkRegs_length f).trans_le (btCount_le f)) base

/-- Aligned words that share a byte are the same word. -/
theorem aligned_words_meet {a b x : Word} (ha : a.toNat % 4 = 0) (hb : b.toNat % 4 = 0) (hx : x.toNat ∈ accessAddrs a 4)
    (hy : x.toNat ∈ accessAddrs b 4) : a = b := by
  simp only [accessAddrs, List.mem_map, List.mem_range] at hx hy
  obtain ⟨j, hj, hx⟩ := hx
  obtain ⟨k, hk, hy⟩ := hy
  bv_omega

/-! ## Stores to plain memory -/

/-- Plain memory after the writes of an STM's slots, in order (R344). -/
def wordsWritten (slots : List (Word × Word)) (mem : Memory) : Memory :=
  slots.foldl (fun mem q => mem.writeWord q.1 q.2) mem

/-- An STM's slots in plain memory leave `wordsWritten`. -/
theorem storeSlots_plain {i : Instr} {slots : List (Word × Word)} {s : State}
    (hp : ∀ q ∈ slots, s.plainAccess .word q.1 = true) :
    storeSlots i slots s = .next { s with mem := wordsWritten slots s.mem } := by
  induction slots generalizing s with
  | nil => rfl
  | cons q rest ih =>
    have : store i .word q.1 q.2 s = .next { s with mem := s.mem.writeWord q.1 q.2 } :=
      busWrite_plain (hp q List.mem_cons_self) _ _ _
    rw [storeSlots, this, andThen_next]
    exact ih (s := { s with mem := s.mem.writeWord q.1 q.2 }) fun p hm => hp p (List.mem_cons_of_mem _ hm)

theorem wordsWritten_keeps (slots : List (Word × Word)) (s : State) :
    KeepsAllBut [] (slots.flatMap fun q => accessAddrs q.1 4) [] s { s with mem := wordsWritten slots s.mem } := by
  induction slots generalizing s with
  | nil => exact .refl [] [] s
  | cons q rest ih => exact (KeepsAllBut.store .word q.1 q.2 s).trans (ih _)

/-- The slots being aligned and apart, each keeps its word through the writes of the others. -/
theorem readWord_wordsWritten {slots : List (Word × Word)} {s : State} (hm : s.mem.wf)
    (ha : ∀ q ∈ slots, q.1.toNat % 4 = 0) (hd : slots.Pairwise fun q q' => q.1 ≠ q'.1) {q : Word × Word} (hq : q ∈ slots) :
    (wordsWritten slots s.mem).readWord q.1 = q.2 := by
  induction slots generalizing s with
  | nil => cases hq
  | cons p rest ih =>
    obtain ⟨hap, har⟩ := List.forall_mem_cons.1 ha
    obtain ⟨hne, hrest⟩ := List.pairwise_cons.1 hd
    rcases List.mem_cons.1 hq with rfl | hmem
    · have hkept : ∀ b : Word, b.toNat ∈ accessAddrs q.1 4 →
          (wordsWritten (q :: rest) s.mem).readByte b = (s.mem.writeWord q.1 q.2).readByte b := fun b hb =>
        (wordsWritten_keeps rest { s with mem := s.mem.writeWord q.1 q.2 }).mem b fun hin => by
          obtain ⟨r, hr, hbr⟩ := List.mem_flatMap.1 hin
          exact hne r hr (aligned_words_meet hap (har r hr) hb hbr)
      rw [Memory.readWord_congr hkept, Memory.readWord_writeWord hm]
    · exact ih (s := { s with mem := s.mem.writeWord p.1 p.2 }) (Memory.wf_writeWord hm p.1 p.2) har hrest hmem

/-- Settles O24: the slots are written as `storeSlots_plain`, each keeps its word by `readWord_wordsWritten`, and the rest of the
transfer is `stm_completes` with the frame of the writes. -/
theorem stmStoresRegisters : Obligations.StmStoresRegisters := by
  intro f m s h base ha hp
  have hstore := storeSlots_plain (i := .stm f) (slots := storedSlots m (btSlots f base) s) (List.forall_mem_map.2 hp)
  obtain ⟨t, he, hbase, hkeep, hleft, hadv⟩ := stm_completes h ha hstore
  have hmem : t.mem = wordsWritten (storedSlots m (btSlots f base) s) s.mem := congrArg World.mem hleft.world
  have hframe := hkeep.keepsAllBut hleft (wordsWritten_keeps (storedSlots m (btSlots f base) s) s)
  rw [storedSlots, List.flatMap_map] at hframe
  refine ⟨t, he, fun hm q hq => ?_, hbase, hframe, hadv⟩
  have haligned : ∀ p ∈ storedSlots m (btSlots f base) s, p.1.toNat % 4 = 0 :=
    List.forall_mem_map.2 fun _ hq => btSlots_aligned ha hq
  have hapart : (storedSlots m (btSlots f base) s).Pairwise fun p p' => p.1 ≠ p'.1 :=
    List.pairwise_map.2 (btSlots_apart f base)
  have hslot : (q.2, storedValue m q.1 s) ∈ storedSlots m (btSlots f base) s := List.mem_map_of_mem hq
  have hread := readWord_wordsWritten hm haligned hapart hslot
  rw [← hmem] at hread
  exact hread

end Sys2Proof.Machine

/-!
PROOFS. Multiply (45_multiply.md R370 to R374): what a ready multiply leaves, from the common ending of data processing, and the
low word of the exact product in the arithmetic of words.
-/

namespace Sys2Proof.Machine

open Sys2Proof

/-- What R371 leaves of the destination of a multiply. -/
theorem rd_ne_pc_of_ready_mul {a : Bool} {f : MulFields} {m : Mode} {s : State} (h : Ready (Form.instr (.mul a f)) m s) :
    f.rd ≠ 15#4 := by
  have hw : (Form.mul a f).checkWord = none := h.checkWord
  simp only [Form.checkWord] at hw
  split_ifs at hw with hpc
  exact fun hrd => hpc (by simp [hrd])

/-- A ready multiply writes the result its body computes, C cleared and V kept (R374). -/
theorem multiply_writesRd {a : Bool} {f : MulFields} {m : Mode} {s : State} {body : Mode → Result State} {res : Word}
    (h : Ready (Form.instr (.mul a f)) m s) (hb : body m = mulFinish f.s f.rd m res s) :
    ∃ t, retire (Form.instr (.mul a f)) s body = .next t ∧
      WritesRd (Form.instr (.mul a f)) m f.rd f.s res false s.cpu.cpsr.v s t :=
  ⟨_, retire_completes h hb (by simp) (by simp),
    writesRd_of h.time (rd_ne_pc_of_ready_mul h) f.s (mulFlags s.cpu.cpsr res)⟩

/-- Settles O15: `multiply_writesRd` for both results, the low word of the exact number being the arithmetic of words. -/
theorem multiplyResults : Obligations.MultiplyResults := by
  unfold Obligations.MultiplyResults
  simp only [BitVec.ofNat_add, BitVec.ofNat_mul, BitVec.ofNat_toNat, BitVec.setWidth_eq]
  exact ⟨fun _ _ _ h => multiply_writesRd (a := false) h rfl, fun _ _ _ h => multiply_writesRd (a := true) h rfl⟩

end Sys2Proof.Machine

/-!
PROOFS. Branch and system (46_branch_system.md R390 to R396): the two branches over one PC write, status registers as words with
what MRS reads and MSR writes of them, and SWI with the service it leads to.
-/

namespace Sys2Proof.Machine

open Sys2Proof

/-! ## How a ready instruction ends -/

section
variable {i : Instr} {m : Mode} {s u : State} {body : Mode → Result State}

/-- A body that changes neither R15, the queue nor the counter before its advance. -/
theorem exec_advances (h : Ready i m s) (he : exec i s = retire i s body) (hb : body m = .next (advance u))
    (hpc : u.cpu.pc = s.cpu.pc) (hq : u.cpu.queue = s.cpu.queue) (hc : u.cpu.cycles = s.cpu.cycles)
    (hk : u.config = s.config) :
    exec i s = .next (charge i s (advance u)) ∧ Advanced i s (charge i s (advance u)) :=
  ⟨he.trans (retire_completes h hb hc hk), congrArg (· + 4) hpc, hq, charge_charged h.time hc⟩

theorem exec_stops {why : Fatal} (h : Ready i m s) (he : exec i s = retire i s body) (hb : body m = raise why s) :
    exec i s = raise why s := by
  rw [he, retire_ready h, hb, andThen_raise]

end

/-! ## Branches -/

/-- The byte displacement of a branch is its signed offset in words (R130). -/
theorem branchDelta_eq (offset24 : BitVec 24) : branchDelta offset24 = BitVec.ofInt 32 (offset24.toInt * 4) := by
  rw [BitVec.ofInt_mul]
  rfl

/-- A ready branch from an aligned `pc` jumps, and keeps what it has kept before its PC write. -/
theorem branch_jumps {i : Instr} {m : Mode} {s u : State} {offset24 : BitVec 24} {written : List PhysReg}
    {body : Mode → Result State} (h : Ready i m s) (he : exec i s = retire i s body)
    (hb : body m = pcWrite i (s.cpu.pc + branchDelta offset24) u) (ha : s.cpu.pc.toNat % 4 = 0)
    (hr : RegsOnly s.cpu u.cpu) (hu : KeepsAllBut written [] [] s u) :
    ∃ t, exec i s = .next t ∧ t.cpu.regs = u.cpu.regs ∧
      Jumped i (s.cpu.pc + BitVec.ofInt 32 (offset24.toInt * 4)) s t ∧ KeepsAllBut written [] [] s t := by
  rw [pcWrite_aligned (isAligned_branch ha offset24), branchDelta_eq] at hb
  exact ⟨_, he.trans (retire_completes h hb hr.cycles hu.outside.config), rfl, jumped_of h.time hr _, (hu.jump _).charge⟩

/-- Settles O25: both are `branch_jumps`, BL after the write of R14 of the current mode. -/
theorem branchTargets : Obligations.BranchTargets := by
  refine ⟨fun f m s h ha => ?_, fun f m s h ha => ?_⟩
  · obtain ⟨t, he, -, hj, hk⟩ := branch_jumps h rfl rfl ha (.ofEq rfl) (.refl [] [] s)
    exact ⟨t, he, hj, hk⟩
  · have hlr : phys m 14#4 = some (.lr m.bank) := rfl
    obtain ⟨t, he, hregs, hj, hk⟩ := branch_jumps h rfl rfl ha ((RegsOnly.ofEq rfl).writeReg m 14#4 (s.cpu.pc - 4))
      (.writeReg m 14#4 (s.cpu.pc - 4) s)
    refine ⟨t, he, ?_, hj, hk⟩
    rw [readReg_some hlr, hregs, writeReg_get, if_pos hlr]

/-! ## Status words -/

/-- Each field of a status register is read back from where `toWord` puts it. -/
theorem Psr.laidOut_toWord (p : Psr) : p.laidOut p.toWord := by
  simp (disch := decide) only [laidOut, toWord, BitVec.getLsbD_append, BitVec.getLsbD_ofBool, BitVec.getLsbD_zero,
    BitVec.extractLsb'_append_eq_of_le, BitVec.extractLsb'_append_eq_of_add_le, BitVec.extractLsb'_eq_self, Nat.reduceSub,
    Nat.reduceLT, ↓reduceIte, decide_true, Bool.true_and, and_self]

/-- The layout determines the word: the fields cover it. -/
theorem Psr.eq_toWord_of_laidOut {p : Psr} {w : Word} (h : p.laidOut w) : p.toWord = w := by
  obtain ⟨hn, hz, hc, hv, hreserved, hi, hf, h5, hm⟩ := h
  have zero5 : 0#1 = BitVec.ofBool (w.getLsbD 5) := by rw [h5]; rfl
  rw [toWord, ← hn, ← hz, ← hc, ← hv, ← hreserved, ← hi, ← hf, ← hm, zero5]
  simp only [ofBool_getLsbD, BitVec.extractLsb'_append_extractLsb'_eq_extractLsb', BitVec.extractLsb'_eq_self]

theorem getLsbD_mergeWord (old v mask : Word) (k : Nat) :
    (mergeWord old v mask).getLsbD k = if mask.getLsbD k then v.getLsbD k else old.getLsbD k := by
  by_cases hk : k < 32
  · cases h : mask.getLsbD k <;> simp_all [mergeWord]
  · simp [mergeWord, BitVec.getLsbD_of_ge _ k (Nat.le_of_not_lt hk)]

/-- A field of a merged word whose bits are all selected alike is that of `v` or that of the old word. -/
theorem extractLsb'_mergeWord {mask : Word} {start len : Nat} {b : Bool} (h : ∀ j < len, mask.getLsbD (start + j) = b)
    (old v : Word) : (mergeWord old v mask).extractLsb' start len =
      if b then v.extractLsb' start len else old.extractLsb' start len := by
  ext j hj
  cases b <;> simp [getLsbD_mergeWord, h j hj]

/-- The bits an MSR writes: 31:28 with `f`; 7:6 and 4:0 with `c` (R393). -/
theorem getLsbD_psrMask (f c : Bool) {k : Nat} (hk : k < 32) :
    (psrMask f c).getLsbD k = if 28 ≤ k then f else if 8 ≤ k ∨ k = 5 then false else c := by
  revert k f c
  decide

/-- An MSR writes the bits of `psrMask` and no other (R393): each field of the merged word is the merged field. -/
theorem toWord_msrMerge (p : Psr) (flags control : Bool) (v : Word) :
    (msrMerge p flags control v).toWord = mergeWord p.toWord v (psrMask flags control) := by
  have reserved : ∀ j < 20, (psrMask flags control).getLsbD (8 + j) = false := fun j hj => by
    rw [getLsbD_psrMask _ _ (by omega), if_neg (by omega), if_pos (by omega)]
  have mode : ∀ j < 5, (psrMask flags control).getLsbD (0 + j) = control := fun j hj => by
    rw [getLsbD_psrMask _ _ (by omega), if_neg (by omega), if_neg (by omega)]
  obtain ⟨hn, hz, hc, hv, hreserved, hi, hf, h5, hm⟩ := p.laidOut_toWord
  refine Psr.eq_toWord_of_laidOut ?_
  simp (disch := decide) only [Psr.laidOut, getLsbD_mergeWord, getLsbD_psrMask, extractLsb'_mergeWord reserved,
    extractLsb'_mergeWord mode, hn, hz, hc, hv, hreserved, hi, hf, h5, hm]
  cases flags <;> cases control <;> exact ⟨rfl, rfl, rfl, rfl, rfl, rfl, rfl, rfl, rfl⟩

theorem Psr.extractLsb'_toWord_mode (p : Psr) : p.toWord.extractLsb' 0 5 = p.m := by
  obtain ⟨-, -, -, -, -, -, -, -, hm⟩ := p.laidOut_toWord
  exact hm

theorem Spsrs.get_eq_none {m : Mode} (h : m = .usr ∨ m = .sys) (x : Spsrs) : x.get m = none := by
  obtain rfl | rfl := h <;> rfl

/-- A mode that has an SPSR reads what is written there, and no other mode does. -/
theorem Spsrs.get_set {x : Spsrs} {m : Mode} {p : Psr} (h : x.get m = some p) (q : Psr) (k : Mode) :
    (x.set m q).get k = if k = m then some q else x.get k := by
  cases m with
  | usr | sys => cases h
  | fiq | irq | svc | abt | und => cases k <;> rfl

/-! ## MRS -/

theorem rd_ne_pc_of_ready_mrs {f : MrsFields} {m : Mode} {s : State} (h : Ready (.mrs f) m s) : f.rd ≠ 15#4 := by
  have hw : (Form.mrs f).checkWord = none := h.word
  simpa [Form.checkWord] using hw

/-- A ready MRS that reads the word `w` writes it to Rd and advances. -/
theorem mrs_reads {f : MrsFields} {m : Mode} {s : State} {w : Word} {body : Mode → Result State} (h : Ready (.mrs f) m s)
    (he : exec (.mrs f) s = retire (.mrs f) s body) (hb : body m = .next (advance (writeReg m f.rd w s))) :
    ∃ t, exec (.mrs f) s = .next t ∧ readReg m f.rd t = w ∧ KeepsAllBut (phys m f.rd).toList [] [] s t ∧
      Advanced (.mrs f) s t := by
  have hrd := rd_ne_pc_of_ready_mrs h
  obtain ⟨next, advanced⟩ := exec_advances h he hb (by simp) (by simp) (by simp) (by simp)
  refine ⟨_, next, ?_, (KeepsAllBut.writeReg m f.rd w s).advance.charge, advanced⟩
  rw [(FlowOnly.advanced _ s _).readReg m hrd, readReg_writeReg _ _ _ _ _ hrd, if_pos rfl]

/-- Settles O26: the layout is `Psr.laidOut_toWord`, the reads are `mrs_reads`, and a mode without SPSR has none to read. -/
theorem mrsReadsStatus : Obligations.MrsReadsStatus := by
  refine ⟨Psr.laidOut_toWord, fun f s hrd => exec_restricted (by simp [restrictions, Instr.form, firstOf, hrd]) s,
    fun f m s h => ⟨fun hs => ?_, fun hs p hp => ?_, fun hs hm => ?_⟩⟩
  · exact mrs_reads h rfl (by simp only [hs, Bool.false_eq_true, if_false])
  · exact mrs_reads h rfl (by simp only [hs, if_true, hp])
  · exact exec_stops h rfl (by simp only [hs, if_true, Spsrs.get_eq_none hm, State.instrAddr])

/-! ## MSR -/

/-- The mode check of an MSR to CPSR, on the word that the register will read as (R393). -/
theorem msrWrite_cpsr (i : Instr) (mask : BitVec 4) (v : Word) (m : Mode) (s : State) :
    msrWrite i false mask v m s =
      if (Mode.ofBits ((mergeWord s.cpu.cpsr.toWord v
          (psrMask (mask.getLsbD 3) (mask.getLsbD 0 && m != .usr))).extractLsb' 0 5)).isSome then
        .next (advance (s.setCpsr (msrMerge s.cpu.cpsr (mask.getLsbD 3) (mask.getLsbD 0 && m != .usr) v)))
      else raise (.unimpMsrMode (encode i) (s.cpu.pc - 8) v) s := by
  rw [← toWord_msrMerge, Psr.extractLsb'_toWord_mode]
  rfl

theorem msrWrite_spsr {m : Mode} {s : State} {p : Psr} (hp : s.cpu.spsr.get m = some p) (i : Instr) (mask : BitVec 4)
    (v : Word) : msrWrite i true mask v m s =
      .next (advance (s.setSpsr m (msrMerge p (mask.getLsbD 3) (mask.getLsbD 0) v))) := by
  simp only [msrWrite, if_true, hp, maskF, maskC]

theorem msrWrite_no_spsr {m : Mode} (hm : m = .usr ∨ m = .sys) (i : Instr) (mask : BitVec 4) (v : Word) (s : State) :
    msrWrite i true mask v m s = raise (.unimpSpsrNone (encode i) (s.cpu.pc - 8)) s := by
  simp only [msrWrite, if_true, Spsrs.get_eq_none hm, State.instrAddr]

/-- An MSR of either form ends as `msrWrite` does, which writes one status register or stops (R393). -/
theorem msr_does {i : Instr} {spsr : Bool} {mask : BitVec 4} {v : Word} {m : Mode} {s : State}
    {body : Mode → Result State} (h : Ready i m s) (he : exec i s = retire i s body)
    (hb : body m = msrWrite i spsr mask v m s) : MsrDoes i spsr mask v m s := by
  refine ⟨?_, ?_, ?_, ?_⟩
  · rintro rfl hm
    rw [msrWrite_cpsr, if_pos hm] at hb
    obtain ⟨next, advanced⟩ := exec_advances h he hb rfl rfl rfl rfl
    exact ⟨_, next, toWord_msrMerge .., .refl [] s, .refl [] s, ⟨rfl, rfl, rfl, ⟨rfl, rfl, rfl, rfl, rfl, rfl⟩⟩, advanced⟩
  · rintro rfl hm
    rw [msrWrite_cpsr, if_neg (by rw [hm]; exact Bool.false_ne_true)] at hb
    exact exec_stops h he hb
  · rintro rfl p hp
    rw [msrWrite_spsr hp] at hb
    obtain ⟨next, advanced⟩ := exec_advances h he hb rfl rfl rfl rfl
    have hget := Spsrs.get_set hp (msrMerge p (mask.getLsbD 3) (mask.getLsbD 0) v)
    exact ⟨_, _, next, (hget m).trans (if_pos rfl), toWord_msrMerge .., fun k hk => (hget k).trans (if_neg hk), rfl,
      .refl [] s, .refl [] s, rfl, rfl, ⟨rfl, rfl, rfl, rfl, rfl, rfl⟩, advanced⟩
  · rintro rfl hm
    exact exec_stops h he (hb.trans (msrWrite_no_spsr hm i mask v s))

/-- Settles O27: both forms are `msr_does`, each with its own value. -/
theorem msrWritesStatus : Obligations.MsrWritesStatus :=
  ⟨fun f s hrm => exec_restricted (by simp [restrictions, Instr.form, firstOf, hrm]) s,
    fun _ _ _ h => msr_does h rfl rfl, fun _ _ _ h => msr_does h rfl rfl⟩

/-! ## SWI -/

/-- SWI comes last in the order of R432: where nothing is selected, setting its bit selects it. -/
theorem selectException_swi {s t : State} (h : selectException s = none)
    (hp : t.cpu.pending = { s.cpu.pending with swi := true }) (hc : t.cpu.cpsr = s.cpu.cpsr) :
    selectException t = some .swi := by
  unfold selectException at h
  split_ifs at h with hreset hdabt hfiq hirq hpabt
  simp [selectException, hp, hc, hreset, hdabt, hfiq, hirq, hpabt]

/-- The poll keeps the bit of SWI, and reads the same lines whether it is set or not (R439). -/
theorem pendingAfterPoll_swi {s t : State} (hp : t.cpu.pending = { s.cpu.pending with swi := true })
    (hh : t.host = s.host) : pendingAfterPoll t = { pendingAfterPoll s with swi := true } := by
  simp only [pendingAfterPoll, linesAtPoll, hp, hh]

/-- With a full queue SWI returns to the oldest word of the queue (R435). -/
theorem returnAddr_swi {s : State} (hq : s.cpu.queue.len = 2) : returnAddr .swi s = s.cpu.pc - 8 := by
  rw [returnAddr, hq, ExcClass.offset, BitVec.add_zero]
  rfl

/-- Settles O28: SWI's own effect is its pending bit, the selection is `selectException_swi`, and the service is that of any
class, from the R15 that has advanced over the SWI. -/
theorem swiBecomesPending : Obligations.SwiBecomesPending := by
  intro f m s h
  obtain ⟨next, advanced⟩ := exec_advances (u := s.setPending .swi true) h rfl rfl rfl rfl rfl rfl
  refine ⟨_, next, rfl, rfl, rfl, rfl, rfl, rfl, ⟨rfl, rfl, rfl, rfl, rfl, rfl⟩, advanced, fun hnone => ?_, rfl, rfl, ?_,
    fun hq => ?_⟩
  · refine selectException_swi hnone ?_ (by simp [charge])
    rw [pollLines_pending, pollLines_pending]
    exact pendingAfterPoll_swi rfl rfl
  · rw [service_spsr, pollLines_cpsr]
    rfl
  · rw [service_regs, show PhysReg.lr .svc = .lr ExcClass.swi.mode.bank from rfl, RegFile.get_set_self,
      returnAddr_swi (by rw [pollLines_queue, advanced.queue, hq]), pollLines_pc, advanced.pc]
    bv_omega

end Sys2Proof.Machine

/-!
PROOFS. Exceptions (60_exceptions.md R430 to R435): the class that is selected, and what service of a class leaves.
-/

namespace Sys2Proof.Machine

open Sys2Proof

/-! ## Selection -/

/-- One step of the search of R432: a class that may be taken is selected before all that follow it. -/
theorem findSome_class_cons (c : ExcClass) (b : Bool) (rest : List (ExcClass × Bool)) :
    ((c, b) :: rest).findSome? (fun p => if p.2 then some p.1 else none) =
      if b then some c else rest.findSome? fun p => if p.2 then some p.1 else none := by
  cases b <;> rfl

/-- Settles O33: the search of the table meets the classes in the order in which the selection tests them. -/
theorem selectionOrder : Obligations.SelectionOrder := by
  intro s
  simp only [findSome_class_cons, List.findSome?_nil, selectException]

/-! ## Service -/

/-- The row of R430's table of a class: its vector, the mode entered, whether F is set, and the offset of the return address. -/
def ExcClass.row (c : ExcClass) : ExcClass × Word × Mode × Bool × Word := (c, c.vector, c.mode, c.setsF, c.offset)

/-- The mode of a class has an SPSR (R45), which takes what is saved; the other modes keep theirs. -/
theorem Spsrs.get_set_excMode_ne (x : Spsrs) (c : ExcClass) (p : Psr) {k : Mode} (hk : k ≠ c.mode) :
    (x.set c.mode p).get k = x.get k := by
  obtain ⟨old, hold⟩ : ∃ old, x.get c.mode = some old := by cases c <;> exact ⟨_, rfl⟩
  rw [Spsrs.get_set hold, if_neg hk]

theorem Pending.get_set (p : Pending) (c k : ExcClass) (b : Bool) :
    (p.set c b).get k = if k = c then b else p.get k := by
  cases c <;> cases k <;> rfl

theorem Mode.ofBits_bits (m : Mode) : Mode.ofBits m.bits = some m := by
  cases m <;> rfl

theorem service_mode (c : ExcClass) (s : State) : (service c s).mode = some c.mode :=
  Mode.ofBits_bits c.mode

theorem RegsBut.service (c : ExcClass) (s : State) : RegsBut [.lr c.mode.bank] s (service c s) := fun p hp => by
  rw [service_regs, RegFile.get_set, if_neg (by simpa using hp)]

/-- Settles O34: the table of R430 is `ExcClass.row` of each class, and `service` follows that row whatever the class. -/
theorem serviceEntersHandler : Obligations.ServiceEntersHandler := by
  intro s row hrow
  obtain ⟨c, -, rfl⟩ : ∃ c ∈ [ExcClass.reset, .dabt, .fiq, .irq, .pabt, .swi], c.row = row := List.mem_map.1 hrow
  refine ⟨rfl, rfl, ?_, .service c s, Spsrs.get_set_excMode s.cpu.spsr c s.cpu.cpsr,
    fun k hk => Spsrs.get_set_excMode_ne s.cpu.spsr c s.cpu.cpsr hk, ⟨rfl, rfl, rfl, rfl⟩, service_mode c s, rfl, rfl,
    ?_, fun k hk => ?_, rfl, rfl, rfl, ⟨rfl, rfl, rfl, rfl, rfl, rfl⟩⟩
  · exact RegFile.get_set_self s.cpu.regs (.lr c.mode.bank) (returnAddr c s)
  · exact (Pending.get_set s.cpu.pending c c false).trans (if_pos rfl)
  · exact (Pending.get_set s.cpu.pending c k false).trans (if_neg hk)

end Sys2Proof.Machine

/-!
PROOFS. Reset (70_reset_and_hazards.md R490 to R494): the step that begins the first iteration, and the fetch cycle that
services RESET.
-/

namespace Sys2Proof.Machine

open Sys2Proof

/-- The machine at power-on with any memory and line levels, nothing scripted, and any turn: the states `ResetCycle` speaks
of. -/
def atPowerOn (config : Config) (mem : Memory) (lines : Lines) (turn : Turn) : State :=
  { State.powerOn config with mem := mem, host := { HostEnv.quiet with lines := lines }, turn := turn }

section
variable {config : Config} {mem : Memory} {lines : Lines} {turn : Turn}

theorem atPowerOn_fault (h : lookahead config < 2 ^ 64) : (atPowerOn config mem lines turn).fault = none := by
  simp [atPowerOn, State.powerOn, constructionFault, lookaheadFits_of_lt h]

/-! ## The step before the first fetch cycle (R494) -/

/-- An iteration for the engine's domain begins with the engine's turn where the engine is below its target (R217). -/
theorem firstTurn_engine {s : State} {c : Clock} (hc : s.clock s.config.engineDomain = some c)
    (h : s.cpu.cycles < c.target) : firstTurn s.config.engineDomain s = .run false := by
  simp only [firstTurn, hc, h, and_self, if_true]

/-- The counter is 0, and the target is LOOKAHEAD, which is not 0 (R234). -/
theorem firstTurn_atPowerOn (hok : configOk (atPowerOn config mem lines turn) = true) (h : lookahead config < 2 ^ 64) :
    firstTurn (atPowerOn config mem lines turn).config.engineDomain (atPowerOn config mem lines turn) = .run false := by
  obtain ⟨c, hc⟩ := engineDomain_clock hok
  have scale : 1 ≤ config.clockScale := by
    simp only [configOk, Bool.and_eq_true, decide_eq_true_eq] at hok
    exact hok.1
  refine firstTurn_engine hc (BitVec.lt_def.2 ?_)
  rw [powerOn_clock hc, clock_powerOn_target h]
  show 0 < 16 * config.clockScale
  omega

/-- The host has no step of its own to take, so that the first iteration begins, for the engine's domain (log 6). -/
theorem step_atPowerOn_boot (hok : configOk (atPowerOn config mem lines .boot) = true) (h : lookahead config < 2 ^ 64) :
    step (atPowerOn config mem lines .boot) = .next (atPowerOn config mem lines (.run false)) := by
  obtain ⟨-, -, -, -, boot⟩ := driverIteration
  obtain ⟨-, -, begins⟩ := boot (atPowerOn config mem lines .boot) (atPowerOn_fault h) hok rfl
  obtain ⟨t, next, first, -⟩ := begins rfl
  rw [next, first rfl, firstTurn_atPowerOn hok h]
  rfl

/-! ## The dispatch of the first fetch cycle (R491, R492) -/

/-- The reset exception is pending at power-on and is first in the order (R432). -/
theorem dispatched_atPowerOn :
    dispatched (atPowerOn config mem lines turn) = service .reset (pollLines (atPowerOn config mem lines turn)) :=
  dispatched_of_some rfl

/-- The return address of an empty queue at address 0 is the 0 that R14_svc holds already. -/
theorem service_reset_regs :
    (service .reset (pollLines (atPowerOn config mem lines turn))).cpu.regs = RegFile.zero := by
  have ret : returnAddr .reset (pollLines (atPowerOn config mem lines turn)) = 0 := by
    show 0#32 - BitVec.ofNat 32 (4 * 0) + 0#32 = 0
    decide
  rw [service_regs, ret, pollLines_regs]
  rfl

theorem entryCpsr_reset_toWord : (entryCpsr .reset Psr.zero).toWord = 0x000000D3#32 := by decide

theorem plainAccess_atPowerOn (width : Width) (a : Word) : (atPowerOn config mem lines turn).plainAccess width a = true :=
  plainAccess_iff.2 (busKind_nil a width.bytes)

theorem inTime_atPowerOn (h : config.cpuClockScale < 2 ^ 64) : InTime 1 (atPowerOn config mem lines turn) := by
  show 0 + 1 * config.cpuClockScale ≤ 2 ^ 64 - 1
  omega

end

/-- Settles O36: the first step is `step_atPowerOn_boot`; the dispatch of the first fetch cycle is the service of RESET, and the
fill follows. -/
theorem resetCycle : Obligations.ResetCycle := by
  intro config mem lines s hok fits scale
  refine ⟨step_atPowerOn_boot hok fits, fun boot => ?_⟩
  have hd := dispatched_atPowerOn (config := config) (mem := mem) (lines := lines) (turn := .run boot)
  obtain ⟨t, next, left⟩ := step_fill_next (s := atPowerOn config mem lines (.run boot)) (atPowerOn_fault fits) hok rfl
    (by simp [hd, Queue.len]) (plainAccess_atPowerOn _ _) ((dispatched_inTime _ _).2 (inTime_atPowerOn scale))
  rw [hd] at left
  refine ⟨t, next, ?_, left.spsr, left.regs.trans service_reset_regs, left.pc, left.queue, left.pending, ?_, left.mem,
    left.sched⟩
  · rw [left.cpsr]
    exact entryCpsr_reset_toWord
  · rw [left.cycles]
    exact Nat.zero_add _

end Sys2Proof.Machine
